-- ==== Sys2Proof/Word.lean ====
section
/-! DEFINITION. The block's two quantities: the byte `u8` and the 32-bit word `u32` (00_scope.md R11). -/

namespace Sys2Proof

/-- A `u8` (R11). -/
abbrev Byte := BitVec 8

/-- A `u32` (R11). -/
abbrev Word := BitVec 32

end Sys2Proof
end

