-- ==== Sys2Proof/Config.lean ====
section
/-! DEFINITION. The implementation parameters of 00_scope.md R9: the fixed ones as constants, the OPEN ones as the
record `Params`, which the state carries, and the free values. -/

namespace Sys2Proof.Config

/-- `PREAMBLE` (R9, R91). -/
def preamble : Byte := 0x7F

/-- `PREAMBLE_LEN` (R9). -/
def preambleLen : Nat := 5

/-- `HEADER_MASK` (R9, R93): DESIGN CHOICE of the spec (D1), taken at its value; unsafe (log 2). -/
def headerMask : Byte := 0xFC

/-- `HEADER_PATTERN` (R9, R93): as `headerMask` (log 2). -/
def headerPattern : Byte := 0x80

/-- `BROADCAST` (R9, R231). -/
def broadcast : Byte := 0xFF

/-- The HEADER of every frame the block sends (R100). -/
def responseHeader : Byte := 0x81

/-- `CRC_POLY_REFLECTED` (R9). -/
def crcPoly : Word := 0xEDB88320

/-- `CRC_INIT` (R9). -/
def crcInit : Word := 0xFFFFFFFF

/-- `CRC_XOROUT` (R9). -/
def crcXorOut : Word := 0xFFFFFFFF

/-- `PAGE_SIZE` and `ERASE_PAGE_SIZE` (R9). -/
def pageSize : Nat := 64

/-- The bytes of the option region, `OB_WORDS` words (R9). -/
def obSize : Nat := 24

/-- `WINDOW_BASE` (R9). -/
def windowBase : Nat := 32

/-- What an erased flash or option byte reads as (R38). -/
def erased : Byte := 0xFF

/-- The size of the memory read space (R62): one past the last u32 address. -/
def addressSpace : Nat := 2 ^ 32

end Sys2Proof.Config

namespace Sys2Proof

/-- A span of addresses of the memory read space, for `Params.readable`. -/
structure Region where
  base : Word
  size : Nat
  deriving DecidableEq, Repr, Inhabited

/-- The OPEN parameters of R9, and the platform predicates READABLE (R62) and FLASH_WRITABLE (R210) as data.
DESIGN CHOICE: the state carries them (log 1); safe. -/
structure Params where
  opInfo : Byte
  opGetChip : Byte
  opGetId : Byte
  opSilent : Byte
  opUnsilent : Byte
  opGo : Byte
  opErase : Byte
  opWrite : Byte
  opGetCrc32 : Byte
  opGetNodeId : Byte
  opSetNodeId : Byte
  /-- `BL_VERSION.major` -/
  blMajor : Byte
  /-- `BL_VERSION.minor` -/
  blMinor : Byte
  /-- `CHIP_NAME` -/
  chipName : List Byte
  /-- `UID_BYTES` (R36) -/
  uid : Vector Byte 8
  /-- `NODE_ID_OB_POS` -/
  nodeIdPos : Fin 24
  /-- `FW_ID_OB_POS` -/
  fwIdPos : Fin 24
  /-- `OB_BASE` -/
  obBase : Word
  /-- `FLASH_BASE` -/
  flashBase : Word
  /-- `FLASH_SIZE` -/
  flashSize : Nat
  /-- the page addresses for which FLASH_WRITABLE does not hold (R210); DESIGN CHOICE of representation (log 17) -/
  unwritable : List Word
  /-- the READABLE addresses beside the flash array and the option bytes (R62); DESIGN CHOICE of representation
  (log 17) -/
  readable : List Region
  /-- `BOOT_TIMEOUT_TICKS` -/
  bootTicks : Nat
  /-- `GO_COUNTDOWN_TICKS` -/
  goTicks : Nat
  /-- `BACKOFF_UNIT`, in a unit of time of the reader's choice (R246) -/
  backoffUnit : Nat
  deriving DecidableEq, Repr, Inhabited

/-- The eleven opcode parameters, in the table's order (R9). -/
def Params.opcodes (p : Params) : List Byte :=
  [p.opInfo, p.opGetChip, p.opGetId, p.opSilent, p.opUnsilent, p.opGo, p.opErase, p.opWrite, p.opGetCrc32,
   p.opGetNodeId, p.opSetNodeId]

/-- R10: the opcodes are pairwise distinct and none is the preamble. -/
def Params.opcodesOk (p : Params) : Bool :=
  decide p.opcodes.Nodup && p.opcodes.all (· != Config.preamble)

/-- The constraints of R9 and R10 on the parameters, with the two regions inside the address space. That the flash
array and the option region are disjoint is DEDUCED (log 16). -/
def Params.wf (p : Params) : Bool :=
  p.opcodesOk
  && decide (p.chipName.length ≤ 255)
  && decide (p.nodeIdPos ≠ p.fwIdPos)
  && decide (p.obBase.toNat % 4 = 0 ∧ p.obBase.toNat + Config.obSize ≤ Config.addressSpace)
  && decide (p.flashBase.toNat % 64 = 0 ∧ p.flashSize % 64 = 0
      ∧ p.flashBase.toNat + p.flashSize ≤ Config.addressSpace)
  && decide (p.obBase.toNat + Config.obSize ≤ p.flashBase.toNat ∨ p.flashBase.toNat + p.flashSize ≤ p.obBase.toNat)
  && decide (1 ≤ p.bootTicks ∧ 1 ≤ p.goTicks)

/-- The parameters of the chip that `State.reset` is the reset state of: OPEN (R9, D12 to D15, D19, D22), so nothing
is known of them. -/
opaque Config.params : Params

/-- FREE VALUE: `freeByte n a` is what a byte takes at the `n`-th draw at address (or option position) `a`: a byte
programmed while not erased (R209, R211; log 5), a READABLE byte outside flash and option bytes (R62; log 6), and a
byte that a reset caught in the middle of a flash sequence (R341; log 21). -/
opaque Config.freeByte : Nat → Nat → Byte

end Sys2Proof
end

