-- ==== Sys2Proof/Machine/Crc.lean ====
section
/-! DEFINITION. The CRC engine's functions on an accumulator (40_crc.md R130 to R134). -/

namespace Sys2Proof.Machine

/-- One turn of the inner loop of R131. -/
def crcBit (acc : Word) : Word :=
  if acc.getLsbD 0 then (acc >>> 1) ^^^ Config.crcPoly else acc >>> 1

/-- `n` turns of the inner loop of R131. -/
def crcBits : Nat → Word → Word
  | 0, acc => acc
  | n + 1, acc => crcBits n (crcBit acc)

/-- One byte of the outer loop of R131. -/
def crcByte (acc : Word) (b : Byte) : Word := crcBits 8 (acc ^^^ b.setWidth 32)

/-- `crc_update(acc, s)` (R131), as the new accumulator. -/
def crcUpdate (acc : Word) (s : List Byte) : Word := s.foldl crcByte acc

/-- `crc_finalize(acc)` (R132). -/
def crcFinalize (acc : Word) : Word := acc ^^^ Config.crcXorOut

/-- `crc_calc(s)` (R133). -/
def crcCalc (s : List Byte) : Word := crcFinalize (crcUpdate Config.crcInit s)

/-- The table `T` of R134. -/
def crcTable (i : Byte) : Word := crcBits 8 (i.setWidth 32)

/-- The table-driven `crc_update` of R134. -/
def crcTableUpdate (acc : Word) (s : List Byte) : Word :=
  s.foldl (fun a b => (a >>> 8) ^^^ crcTable ((a ^^^ b.setWidth 32).setWidth 8)) acc

end Sys2Proof.Machine
end

