-- ==== Sys2Proof/Syntax.lean ====
section
/-! DEFINITION. The instructions: one constructor for each of the 25 rows of `spec/opcode_table.json` (00_scope.md R3). -/

namespace Sys2Proof

/-- The ADDRESS field of a frame (30_encoding.md R92, R94): one byte, or eight. -/
inductive Addr where
  | short (a : Byte)
  | long (u : Vector Byte 8)
  deriving DecidableEq, Repr

/-- The accumulator operand of a CRC operation (40_crc.md, opening; 10_state.md R22, R23): the decoder's `st.crc`, or
a caller's temporary, given by its value (the operation's result on it goes to `State.ret`, log 11). -/
inductive Acc where
  | decoder
  | temp (w : Word)
  deriving DecidableEq, Repr

/-- The instructions. A wire command (`info` to `setNodeId`) carries its frame's ADDRESS and DATA; a header row is
the one byte; a port operation carries the operands its rule gives it. -/
inductive Instr where
  /-- INFO, R240 -/
  | info (dst : Addr) (d : List Byte)
  /-- GET_CHIP, R241 -/
  | getChip (dst : Addr) (d : List Byte)
  /-- GET_ID, R242 -/
  | getId (dst : Addr) (d : List Byte)
  /-- SILENT, R247 -/
  | silent (dst : Addr) (d : List Byte)
  /-- UNSILENT, R248 -/
  | unsilent (dst : Addr) (d : List Byte)
  /-- GO, R249 -/
  | go (dst : Addr) (d : List Byte)
  /-- ERASE, R250 -/
  | erase (dst : Addr) (d : List Byte)
  /-- WRITE, R253 -/
  | write (dst : Addr) (d : List Byte)
  /-- GET_CRC32, R255 -/
  | getCrc32 (dst : Addr) (d : List Byte)
  /-- GET_NODE_ID, R256 -/
  | getNodeId (dst : Addr) (d : List Byte)
  /-- SET_NODE_ID, R257 -/
  | setNodeId (dst : Addr) (d : List Byte)
  /-- HDR_REQ, 0x80, R92 -/
  | hdrReq
  /-- HDR_RESP, 0x81, R92 -/
  | hdrResp
  /-- HDR_REQL, 0x82, R92 -/
  | hdrReql
  /-- HDR_RESPL, 0x83, R92 -/
  | hdrRespl
  /-- CRC_INIT, R130 -/
  | crcInit (acc : Acc)
  /-- CRC_UPDATE, R131 -/
  | crcUpdate (acc : Acc) (bytes : List Byte)
  /-- CRC_FINALIZE, R132 -/
  | crcFinalize (acc : Acc)
  /-- CRC_CALC, R133 -/
  | crcCalc (bytes : List Byte)
  /-- DECODER_STEP, R150 -/
  | decoderStep (b : Byte)
  /-- SERIALIZE, R180 -/
  | serialize (node cmd : Byte) (data : List Byte) (len : Byte)
  /-- ERASE_PAGE, R215 -/
  | erasePage (a : Word)
  /-- WRITE_PAGE, R216 -/
  | writePage (a : Word) (d : Vector Byte 64)
  /-- WRITE_OPTION_BYTE, R217 -/
  | writeOptionByte (k : Fin 24) (v : Byte)
  /-- LOOP_ITERATION, R290 -/
  | loopIteration
  deriving DecidableEq, Repr

/-- The eleven commands by name, the rows of R102. -/
inductive Cmd where
  | info | getChip | getId | silent | unsilent | go | erase | write | getCrc32 | getNodeId | setNodeId
  deriving DecidableEq, Repr

end Sys2Proof
end

