-- ==== Sys2Proof/WellFormed.lean ====
section
/-! DEFINITION. Which terms of `Instr` the spec's encodings and operand ranges admit. -/

namespace Sys2Proof

/-- DATA has 0 to 255 bytes (00_scope.md R9 `DATA_MAX`, 30_encoding.md R96). -/
def payloadOk (d : List Byte) : Bool := decide (d.length ≤ 255)

/-- The operand ranges of R96 (every command) and R180 (`L ≤ len(data)`); the other operands' types are their ranges
(R216's 64 bytes, R217's `k ∈ 0..23`). -/
def Instr.wellFormed : Instr → Bool
  | .info _ d => payloadOk d
  | .getChip _ d => payloadOk d
  | .getId _ d => payloadOk d
  | .silent _ d => payloadOk d
  | .unsilent _ d => payloadOk d
  | .go _ d => payloadOk d
  | .erase _ d => payloadOk d
  | .write _ d => payloadOk d
  | .getCrc32 _ d => payloadOk d
  | .getNodeId _ d => payloadOk d
  | .setNodeId _ d => payloadOk d
  | .hdrReq => true
  | .hdrResp => true
  | .hdrReql => true
  | .hdrRespl => true
  | .crcInit _ => true
  | .crcUpdate _ _ => true
  | .crcFinalize _ => true
  | .crcCalc _ => true
  | .decoderStep _ => true
  | .serialize _ _ data len => decide (len.toNat ≤ data.length)
  | .erasePage _ => true
  | .writePage _ _ => true
  | .writeOptionByte _ _ => true
  | .loopIteration => true

end Sys2Proof
end

