-- ==== Sys2Proof/Decode.lean ====
section
/-! DEFINITION. The frame and command encoding of 30_encoding.md: the decoder, total on any bytes and rejecting by
name, and after it the encoder. The byte-at-a-time decoder of 41_codec.md is Machine/Codec.lean; this one reads a
whole frame. -/

namespace Sys2Proof

open Machine (crcCalc bytesLe32)

/-! ### The HEADER byte -/

/-- `HeaderMatch` (R93). -/
def headerMatch (b : Byte) : Bool := (b &&& Config.headerMask) == Config.headerPattern

/-- HEADER bit 1, ADDR8 (R92). -/
def headerLong (b : Byte) : Bool := b.getLsbD 1

/-- HEADER bit 0, RESP (R92). -/
def headerResp (b : Byte) : Bool := b.getLsbD 0

/-- The row of the table a header byte is (R92, R93), by its two flags. -/
def headerInstr (b : Byte) : Instr :=
  match headerLong b, headerResp b with
  | false, false => .hdrReq
  | false, true => .hdrResp
  | true, false => .hdrReql
  | true, true => .hdrRespl

/-! ### The command map -/

/-- The opcode parameter of a command (R95, R102). -/
def Params.opcode (p : Params) : Cmd → Byte
  | .info => p.opInfo
  | .getChip => p.opGetChip
  | .getId => p.opGetId
  | .silent => p.opSilent
  | .unsilent => p.opUnsilent
  | .go => p.opGo
  | .erase => p.opErase
  | .write => p.opWrite
  | .getCrc32 => p.opGetCrc32
  | .getNodeId => p.opGetNodeId
  | .setNodeId => p.opSetNodeId

/-- The commands in the order of R102. -/
def Cmd.all : List Cmd :=
  [.info, .getChip, .getId, .silent, .unsilent, .go, .erase, .write, .getCrc32, .getNodeId, .setNodeId]

/-- The command a COMMAND byte is; none for a byte that is no opcode (R105). -/
def Params.cmdOf (p : Params) (b : Byte) : Option Cmd := Cmd.all.find? fun c => p.opcode c == b

/-- The command as an instruction, with its frame's ADDRESS and DATA. -/
def Cmd.instr (c : Cmd) (dst : Addr) (d : List Byte) : Instr :=
  match c with
  | .info => .info dst d
  | .getChip => .getChip dst d
  | .getId => .getId dst d
  | .silent => .silent dst d
  | .unsilent => .unsilent dst d
  | .go => .go dst d
  | .erase => .erase dst d
  | .write => .write dst d
  | .getCrc32 => .getCrc32 dst d
  | .getNodeId => .getNodeId dst d
  | .setNodeId => .setNodeId dst d

/-- The instruction that a request's COMMAND, ADDRESS and DATA are (R102, R105). -/
def requestInstr (p : Params) (cmd : Byte) (dst : Addr) (d : List Byte) : Option Instr :=
  (p.cmdOf cmd).map fun c => c.instr dst d

/-! ### The frame decoder -/

/-- Why bytes are no instruction. -/
inductive DecodeError where
  /-- no run of at least five preambles in front (R91) -/
  | noPreamble
  /-- the byte after the run fails `HeaderMatch`, or there is none (R106) -/
  | badHeader
  /-- a frame with HEADER bit 0 set: never acted on (R101, R107) -/
  | responseFrame
  /-- fewer bytes than HEADER bit 1 and LENGTH call for (R99) -/
  | truncated
  /-- bytes after the CRC32 field (R90) -/
  | trailing
  /-- a preamble run and a header byte inside the frame: the decoders on the bus restart there (R352) -/
  | resynchronised
  /-- the CRC32 field is not the CRC of the covered bytes (R98) -/
  | badCrc
  /-- COMMAND is none of the eleven opcodes (R105) -/
  | unknownOpcode
  deriving DecidableEq, Repr

/-- Does a decoder that has just seen `run` preambles resynchronise on some byte of these (R151, R352)? -/
def resyncs : Nat → List Byte → Bool
  | _, [] => false
  | run, b :: bs =>
    if b = Config.preamble then resyncs (min (run + 1) Config.preambleLen) bs
    else (decide (Config.preambleLen ≤ run) && headerMatch b) || resyncs 0 bs

/-- The ADDRESS field: one byte or eight (R92, R94), and what follows it. -/
def takeAddr (long : Bool) (bs : List Byte) : Option (Addr × List Byte) :=
  match long, bs with
  | false, a :: rest => some (.short a, rest)
  | true, u0 :: u1 :: u2 :: u3 :: u4 :: u5 :: u6 :: u7 :: rest =>
    some (.long #v[u0, u1, u2, u3, u4, u5, u6, u7], rest)
  | _, _ => none

/-- A Request frame from its HEADER `h` on (R90, R96, R98, R101, R105). -/
def decodeFrame (p : Params) (h : Byte) (bs : List Byte) : Except DecodeError Instr :=
  if headerResp h then .error .responseFrame
  else if resyncs 0 bs then .error .resynchronised
  else
    match takeAddr (headerLong h) bs with
    | some (dst, cmd :: len :: rest) =>
      if rest.length < len.toNat + 4 then .error .truncated
      else if len.toNat + 4 < rest.length then .error .trailing
      else if rest.drop len.toNat = bytesLe32 (crcCalc (h :: bs.take (bs.length - 4))) then
        match requestInstr p cmd dst (rest.take len.toNat) with
        | some i => .ok i
        | none => .error .unknownOpcode
      else .error .badCrc
    | _ => .error .truncated

/-- The instruction that bytes on the wire are: at least five preambles (R91), then either one header byte and nothing
else (a header row of the table) or a Request frame. -/
def decode (p : Params) (bs : List Byte) : Except DecodeError Instr :=
  if (bs.takeWhile (· == Config.preamble)).length < Config.preambleLen then .error .noPreamble
  else
    match bs.dropWhile (· == Config.preamble) with
    | [] => .error .badHeader
    | h :: rest =>
      if headerMatch h then
        match rest with
        | [] => .ok (headerInstr h)
        | _ :: _ => decodeFrame p h rest
      else .error .badHeader

/-! ### The encoder -/

/-- The five preambles a sender emits (R91). -/
def preambles : List Byte := List.replicate Config.preambleLen Config.preamble

/-- The bytes of an ADDRESS field (R94). -/
def Addr.bytes : Addr → List Byte
  | .short a => [a]
  | .long u => u.toList

/-- The HEADER of a Request with this addressing (R93). -/
def Addr.requestHeader : Addr → Byte
  | .short _ => 0x80
  | .long _ => 0x82

/-- HEADER to the last DATA byte: the bytes the CRC covers (R98). -/
def frameBody (h : Byte) (addr : List Byte) (cmd : Byte) (d : List Byte) : List Byte :=
  h :: (addr ++ cmd :: BitVec.ofNat 8 d.length :: d)

/-- A frame around its covered bytes (R90, R98). -/
def frameOf (body : List Byte) : List Byte := preambles ++ body ++ bytesLe32 (crcCalc body)

/-- The Request frame of R90, the notation REQ and REQL of R108. -/
def requestFrame (cmd : Byte) (dst : Addr) (d : List Byte) : List Byte :=
  frameOf (frameBody dst.requestHeader dst.bytes cmd d)

/-- The Response frame of R100, the notation RESP of R108. -/
def responseFrame (node cmd : Byte) (d : List Byte) : List Byte :=
  frameOf (frameBody Config.responseHeader [node] cmd d)

/-- The command, ADDRESS and DATA of a wire command. -/
def Instr.request? : Instr → Option (Cmd × Addr × List Byte)
  | .info dst d => some (.info, dst, d)
  | .getChip dst d => some (.getChip, dst, d)
  | .getId dst d => some (.getId, dst, d)
  | .silent dst d => some (.silent, dst, d)
  | .unsilent dst d => some (.unsilent, dst, d)
  | .go dst d => some (.go, dst, d)
  | .erase dst d => some (.erase, dst, d)
  | .write dst d => some (.write, dst, d)
  | .getCrc32 dst d => some (.getCrc32, dst, d)
  | .getNodeId dst d => some (.getNodeId, dst, d)
  | .setNodeId dst d => some (.setNodeId, dst, d)
  | .hdrReq => none
  | .hdrResp => none
  | .hdrReql => none
  | .hdrRespl => none
  | .crcInit _ => none
  | .crcUpdate _ _ => none
  | .crcFinalize _ => none
  | .crcCalc _ => none
  | .decoderStep _ => none
  | .serialize _ _ _ _ => none
  | .erasePage _ => none
  | .writePage _ _ => none
  | .writeOptionByte _ _ => none
  | .loopIteration => none

/-- The byte of a header row (R93). -/
def Instr.headerByte? : Instr → Option Byte
  | .hdrReq => some 0x80
  | .hdrResp => some 0x81
  | .hdrReql => some 0x82
  | .hdrRespl => some 0x83
  | .info _ _ => none
  | .getChip _ _ => none
  | .getId _ _ => none
  | .silent _ _ => none
  | .unsilent _ _ => none
  | .go _ _ => none
  | .erase _ _ => none
  | .write _ _ => none
  | .getCrc32 _ _ => none
  | .getNodeId _ _ => none
  | .setNodeId _ _ => none
  | .crcInit _ => none
  | .crcUpdate _ _ => none
  | .crcFinalize _ => none
  | .crcCalc _ => none
  | .decoderStep _ => none
  | .serialize _ _ _ _ => none
  | .erasePage _ => none
  | .writePage _ _ => none
  | .writeOptionByte _ _ => none
  | .loopIteration => none

/-- The bytes of an instruction on the wire; none for a port operation, which has no wire encoding (R3, and the
opening of 30_encoding.md). -/
def encode (p : Params) (i : Instr) : Option (List Byte) :=
  match i.request?, i.headerByte? with
  | some (c, dst, d), _ => some (requestFrame (p.opcode c) dst d)
  | none, some h => some (preambles ++ [h])
  | none, none => none

/-- Can these fields be sent as one frame? Not if a decoder would restart inside it (R352). -/
def requestClean (cmd : Byte) (dst : Addr) (d : List Byte) : Bool :=
  let body := frameBody dst.requestHeader dst.bytes cmd d
  !resyncs 0 (body.drop 1 ++ bytesLe32 (crcCalc body))

/-! ### The table's words -/

/-- The bytes on the wire that one table byte stands for (log 12): as a HEADER it follows five preambles; as a COMMAND
it stands in a broadcast frame without DATA. -/
def commandFrame (b : Byte) : List Byte := requestFrame b (.short Config.broadcast) []

/-- The instruction the decoder reads from a table row's byte. A row's 8 bits are one byte of the frame, HEADER or
COMMAND, and the rows of the port operations have no bits (log 12). -/
def decodeTableWord (nbits w : Nat) : Option Instr :=
  if nbits = 8 then
    match decode Config.params (preambles ++ [BitVec.ofNat 8 w]) with
    | .ok i => some i
    | .error _ => (decode Config.params (commandFrame (BitVec.ofNat 8 w))).toOption
  else none

end Sys2Proof
end

