-- ==== Sys2Proof/Machine/State.lean ====
section
/-! DEFINITION. The block's state (10_state.md), plain data, and its values at reset (R47, R39, R48). -/

namespace Sys2Proof.Machine

/-! ### Decoder and packet -/

/-- `st.dstate` (R25). -/
inductive DState where
  | idle | header | address | command | length | data | crc
  deriving DecidableEq, Repr

/-- `st.pkt.type` (R30). -/
inductive PktType where
  | request | response
  deriving DecidableEq, Repr

/-- `st.pkt.address_length ∈ {1, 8}` (R31). -/
inductive AddrLen where
  | one | eight
  deriving DecidableEq, Repr

/-- `st.pkt` (R30 to R33). -/
structure Packet where
  type : PktType
  addressLength : AddrLen
  address : Vector Byte 8
  command : Byte
  dataLength : Byte
  data : Vector Byte 255
  deriving DecidableEq, Repr

/-- The decoder (R22, R24 to R29) and the packet it owns (R50). -/
structure Decoder where
  dstate : DState
  /-- `st.idx` (R26) -/
  idx : Byte
  /-- `st.pre_run`, saturating at 5 (R27) -/
  preRun : Nat
  /-- `st.sync_count` (R28) -/
  syncCount : Word
  /-- `st.crc`, stored before the final XOR (R22) -/
  crc : Word
  /-- `st.rx_crc` (R29) -/
  rxCrc : Word
  pkt : Packet
  deriving DecidableEq, Repr

/-! ### Flash -/

/-- The flash array as (address, byte) pairs; an address not listed reads 0xFF (R38; log 4). Canonical form: addresses
strictly rising, no 0xFF listed (`Memory.wf`). -/
abbrev Memory := List Host.Cell

/-- A control bit (R39, R203). -/
inductive Mode where
  | pageErase | pageProgram | optErase | optProgram
  deriving DecidableEq, Repr

/-- `fc.mode`, a subset of the four (R39). -/
structure ModeSet where
  pageErase : Bool
  pageProgram : Bool
  optErase : Bool
  optProgram : Bool
  deriving DecidableEq, Repr

/-- The effect that `Start`, `BufferLoad` or `OBWriteWord` leaves pending (R205, R206, R208, R209). -/
inductive Pending where
  | pageErase (a : Word)
  | pageProgram (a : Word) (words : Vector Word 16)
  | optErase
  | bufferLoad (i : Fin 16) (w : Word)
  | obWord (i : Fin 6) (w : Word)
  deriving DecidableEq, Repr

/-- The flash controller (R39). `stageIdx` is the index `StageWord` remembers (R208). -/
structure Controller where
  locked : Bool
  obUnlocked : Bool
  mode : ModeSet
  addr : Word
  stage : Word
  stageIdx : Fin 16
  pagebuf : Vector (Option Word) 16
  busy : Bool
  pending : Option Pending
  deriving DecidableEq, Repr

/-- The controller's port operations but `WaitNotBusy` (R200). -/
inductive FlashOp where
  | unlock
  | lock
  | obUnlock
  | setMode (m : Mode)
  | clearMode (m : Mode)
  | writeAddr (a : Word)
  | start
  | bufferReset
  | stageWord (i : Fin 16) (w : Word)
  | bufferLoad
  | obWriteWord (i : Fin 6) (w : Word)
  deriving DecidableEq, Repr

/-! ### Control loop, trace, outputs -/

/-- `st.boot_mode` (R41). -/
inductive BootMode where
  | bootWait | stay | go
  deriving DecidableEq, Repr

/-- The entries of `st.trace` (R42). -/
inductive Event where
  | flash (op : FlashOp)
  | waitNotBusy
  | delay (n : Nat)
  | tx (b : Byte)
  | handoff
  deriving DecidableEq, Repr

/-- What the core still has to do of a tick, in order: port operations, waits, the response of a command (R233), and
part (c) of the iteration (R293). -/
inductive Task where
  | port (op : FlashOp)
  | wait
  | respond (cmd : Byte) (payload : List Byte)
  | countdown
  deriving DecidableEq, Repr

/-- The model's own: the value the last port operation returned (log 11). -/
inductive Ret where
  | none
  | word (w : Word)
  | valid (b : Bool)
  | count (n : Nat)
  deriving DecidableEq, Repr

/-- What the flash controller does at one poll of a set busy flag (R206, R219): it completes, it needs longer, or it
never completes. -/
inductive Poll where
  | clears | busy | never
  deriving DecidableEq, Repr

/-- The model's own: the other agents' choices, as scripts (log 7). An exhausted script offers no byte, takes no byte,
and clears at the first poll. -/
structure Env where
  /-- one entry per loop iteration: the byte RX offers, if any (R44) -/
  rxIn : List (Option Byte)
  /-- one entry per turn of the host: how many bytes it takes from the TX FIFO (R45) -/
  txTake : List Nat
  /-- one entry per poll of a set busy flag -/
  fcPolls : List Poll
  deriving DecidableEq, Repr

/-- The state (R20). -/
structure State where
  dec : Decoder
  /-- `st.silent` (R35) -/
  silent : Bool
  /-- `st.ob` (R36) -/
  ob : Vector Byte 24
  /-- `st.tx` (R37) -/
  tx : List Byte
  /-- `st.flash` (R38) -/
  flash : Memory
  /-- `fc` (R39) -/
  fc : Controller
  /-- `st.boot_mode` (R41) -/
  bootMode : BootMode
  /-- `st.countdown` (R41) -/
  countdown : Nat
  /-- `st.last_sync` (R41) -/
  lastSync : Word
  /-- `st.trace` (R42) -/
  trace : List Event
  /-- the run has ended by `Handoff()` (R294) -/
  handedOff : Bool
  /-- the model's own: the rest of a tick held in `WaitNotBusy` (R14, R219; log 8) -/
  work : List Task
  /-- the model's own: the last port operation's value (log 11) -/
  ret : Ret
  /-- the parameters of R9 (log 1); no step writes them -/
  par : Params
  /-- the model's own: the other agents' scripts (log 7) -/
  env : Env
  /-- the model's own: how many free values have been drawn (log 5) -/
  draws : Nat
  deriving DecidableEq, Repr

/-! ### How a step can stop -/

/-- The model faults of R317: the spec's marks for cases it gives no value. All three are safe: the block goes on in
some way nobody states, and the model says nothing. -/
inductive Fault where
  /-- Raised by `Start` for a page erase or program whose address is not a multiple of 64, not inside the flash array,
  or not FLASH_WRITABLE (R67, R210, R211): ERASE_PAGE, WRITE_PAGE, ERASE, WRITE. Safe. -/
  | unmodelledFlashAddress
  /-- Raised by a controller operation outside its requirement (R205, R208, R209, R211). The sequencer never issues
  one. Safe. -/
  | unmodelledController
  /-- Raised by GET_CRC32 when the span has a byte that is not READABLE, or wraps (R62). Safe. -/
  | unmodelledRead
  deriving DecidableEq, Repr

/-- Why the model gives no meaning to a step. -/
inductive Refusal where
  /-- An instruction whose meaning is not written; raised by no arm of `exec`. Safe. -/
  | notModelled (mnemonic : String)
  /-- Raised by `step` and `exec` after `Handoff()`: the block takes no further step (R294, 93 U20). Safe. -/
  | handedOff
  /-- Raised by `exec` while a tick is held in `WaitNotBusy`: no operation may be invoked while another is
  mid-sequence (R51, R351). `step` never asks for one. Safe. -/
  | midSequence
  /-- Raised by SERIALIZE with `L > len(data)`, which R180 excludes. Safe. -/
  | illFormed
  deriving DecidableEq, Repr

/-! ### Reset -/

/-- No control bit armed (R39). -/
def ModeSet.empty : ModeSet := ⟨false, false, false, false⟩

/-- The controller after reset (R39). The fields R39 leaves unspecified are 0, the page buffer empty: DESIGN CHOICE,
unsafe (log 3). -/
def Controller.reset : Controller where
  locked := true
  obUnlocked := false
  mode := ModeSet.empty
  addr := 0
  stage := 0
  stageIdx := 0
  pagebuf := Vector.replicate 16 none
  busy := false
  pending := none

/-- The packet after reset: R47 says any value; zeros are a DESIGN CHOICE, unsafe (log 3). -/
def Packet.reset : Packet where
  type := .request
  addressLength := .one
  address := Vector.replicate 8 0
  command := 0
  dataLength := 0
  data := Vector.replicate 255 0

/-- The decoder after reset (R47). `idx`, `crc` and `rxCrc` are any value in R47; zeros are a DESIGN CHOICE, unsafe
(log 3). -/
def Decoder.reset : Decoder where
  dstate := .idle
  idx := 0
  preRun := 0
  syncCount := 0
  crc := 0
  rxCrc := 0
  pkt := Packet.reset

/-- Nothing scripted: DESIGN CHOICE (log 7). -/
def Env.quiet : Env := ⟨[], [], []⟩

/-- Entry into the bootloader (R47, R340) on a chip with these parameters, flash and option bytes: the persistent
state is a launch parameter (R48). -/
def State.launch (p : Params) (flash : Memory) (ob : Vector Byte 24) : State where
  dec := Decoder.reset
  silent := false
  ob := ob
  tx := []
  flash := flash
  fc := Controller.reset
  bootMode := .bootWait
  countdown := p.bootTicks
  lastSync := 0
  trace := []
  handedOff := false
  work := []
  ret := .none
  par := p
  env := Env.quiet
  draws := 0

/-- The machine right after reset: a launch of the unknown chip `Config.params` with the flash and the option bytes
erased, a DESIGN CHOICE, unsafe (log 4). -/
def State.reset : State := State.launch Config.params [] (Vector.replicate 24 Config.erased)

end Sys2Proof.Machine
end

