-- ==== Sys2Proof/Machine/Flags.lean ====
section
/-! DEFINITION. The block's flags (10_state.md R46): the packet type and the addressing mode of a header byte, and the
per-step verdict of the decoder. The others, `st.silent` and `fc.busy`, are plain fields. -/

namespace Sys2Proof.Machine

/-- `st.pkt.type`, from HEADER bit 0 (R30, R153). -/
def pktTypeOf (b : Byte) : PktType := if headerResp b then .response else .request

/-- `st.pkt.address_length`, from HEADER bit 1 (R31, R153). -/
def addrLenOf (b : Byte) : AddrLen := if headerLong b then .eight else .one

/-- The number an address length is (R31). -/
def AddrLen.size : AddrLen → Nat
  | .one => 1
  | .eight => 8

/-- `frame_valid` on the fourth CRC byte (R34, R159): the CRCs agree and the frame is a Request (R161). -/
def frameVerdict (d : Decoder) (received : Word) : Bool :=
  decide (received = crcFinalize d.crc) && decide (d.pkt.type = .request)

end Sys2Proof.Machine
end

