-- ==== Sys2Proof/Machine/Operands.lean ====
section
/-! DEFINITION. The operand forms: the packet's ADDRESS and DATA, and the assembly of payload fields (30_encoding.md
R103). Every multi-byte field is little-endian (R64), none is sign-extended. -/

namespace Sys2Proof.Machine

/-- The packet's ADDRESS field, by its address length (R31). -/
def Packet.addr (p : Packet) : Addr :=
  match p.addressLength with
  | .one => .short p.address[0]
  | .eight => .long p.address

/-- `data[0..L-1]`: the payload of the current frame (R33, R97). -/
def Packet.payload (p : Packet) : List Byte := p.data.toList.take p.dataLength.toNat

/-- `d[k]` of a payload that has been checked to be long enough (R235); 0 stands for a byte that no caller reads. -/
def arg (d : List Byte) (k : Nat) : Byte := d.getD k 0

/-- The little-endian u32 at `d[k..k+3]`. -/
def argWord (d : List Byte) (k : Nat) : Word := le32 (arg d k) (arg d (k + 1)) (arg d (k + 2)) (arg d (k + 3))

/-- ERASE: the block index `le16(d[1], d[2])`. -/
def eraseBlock (d : List Byte) : BitVec 16 := le16 (arg d 1) (arg d 2)

/-- ERASE: `FLASH_BASE + block * 64`, modulo 2^32. -/
def eraseAddress (p : Params) (d : List Byte) : Word := p.flashBase + (eraseBlock d).setWidth 32 * 64

/-- WRITE: the decoded byte `dec[i] = (d[2+i] + corr) mod 256`, with `corr = d[1]` (R253). -/
def writeDecoded (d : List Byte) (i : Nat) : Byte := arg d (2 + i) + arg d 1

/-- WRITE: the target `le32(dec[0..3])`. -/
def writeAddress (d : List Byte) : Word :=
  le32 (writeDecoded d 0) (writeDecoded d 1) (writeDecoded d 2) (writeDecoded d 3)

/-- WRITE: the page `dec[4..67]`. -/
def writePageBytes (d : List Byte) : Vector Byte 64 := Vector.ofFn fun k => writeDecoded d (4 + k.val)

/-- GET_ID: the window `d[0] + 32`, 32 to 287. -/
def backoffWindow (seed : Byte) : Nat := seed.toNat + Config.windowBase

/-- Word `i` of a page, `le32(d[4i..4i+3])` (R65, R216). -/
def pageWord (d : Vector Byte 64) (i : Fin 16) : Word :=
  le32 d[4 * i.val] d[4 * i.val + 1] d[4 * i.val + 2] d[4 * i.val + 3]

/-- Word `i` of the option region, `le32(ob[4i..4i+3])` (R65, R217). -/
def optionWord (ob : Vector Byte 24) (i : Fin 6) : Word :=
  le32 ob[4 * i.val] ob[4 * i.val + 1] ob[4 * i.val + 2] ob[4 * i.val + 3]

end Sys2Proof.Machine
end

