-- ==== Sys2Proof/Machine/Ops.lean ====
section
/-! DEFINITION. The shared operations: memory, `MemRead`, the flash-controller port, the response, the drop, and the
running of a tick's tasks. The block has no exception to take and none to return from (60_exceptions.md R310, R320,
R321): the analogue is the drop (R237), which leaves the state as it is. -/

namespace Sys2Proof.Machine

open Host (Outcome)

/-! ### The flash array as memory -/

/-- The byte at an address: an address not listed is erased (R38; log 4). -/
def Memory.read : Memory → Nat → Byte
  | [], _ => Config.erased
  | (k, v) :: m, a => if k = a then v else Memory.read m a

/-- The memory without an entry for `a`. -/
def Memory.remove (m : Memory) (a : Nat) : Memory := m.filter fun c => c.1 != a

/-- An entry put in before the first higher address. -/
def Memory.insert : Memory → Nat → Byte → Memory
  | [], a, v => [(a, v)]
  | c :: m, a, v => if a < c.1 then (a, v) :: c :: m else c :: Memory.insert m a v

/-- One byte written; an erased byte is not listed. -/
def Memory.write (m : Memory) (a : Nat) (v : Byte) : Memory :=
  if v = Config.erased then m.remove a else Memory.insert (m.remove a) a v

/-- Bytes written from `a` upwards. -/
def Memory.writeBytes (m : Memory) (a : Nat) : List Byte → Memory
  | [] => m
  | b :: bs => Memory.writeBytes (m.write a b) (a + 1) bs

/-- Bytes programmed from `a` upwards (R211): an erased byte takes the value, any other a free value (log 5), the
`n`-th draw. -/
def Memory.program (n : Nat) (m : Memory) (a : Nat) : List Byte → Memory
  | [] => m
  | b :: bs =>
    Memory.program n (m.write a (if m.read a = Config.erased then b else Config.freeByte n a)) (a + 1) bs

/-- The canonical form: addresses strictly rising, no erased byte listed. -/
def Memory.wf (m : Memory) : Bool :=
  decide (m.Pairwise fun c d => c.1 < d.1) && m.all fun c => c.2 != Config.erased

/-! ### Address spaces and MemRead -/

/-- `[a, a+n)` lies in the flash array (R71). -/
def inFlash (p : Params) (a n : Nat) : Bool :=
  decide (p.flashBase.toNat ≤ a ∧ a + n ≤ p.flashBase.toNat + p.flashSize)

/-- The requirement of a page erase and a page program on its address (R67, R210, R211). -/
def pageOk (p : Params) (a : Word) : Bool :=
  decide (a.toNat % Config.pageSize = 0) && inFlash p a.toNat Config.pageSize && !p.unwritable.contains a

/-- `READABLE` beyond the flash array and the option bytes (R62; log 17). -/
def platformReadable (p : Params) (a : Nat) : Bool :=
  p.readable.any fun r => decide (r.base.toNat ≤ a ∧ a < r.base.toNat + r.size)

/-- One byte of the memory read space (R62): an option byte, a flash byte, a free value (log 6), or the fault. The
option region is looked at first (log 16). -/
def memByte (s : State) (a : Nat) : Except Fault Byte :=
  if h : s.par.obBase.toNat ≤ a ∧ a < s.par.obBase.toNat + 24 then .ok (s.ob[a - s.par.obBase.toNat]'(by omega))
  else if inFlash s.par a 1 then .ok (s.flash.read a)
  else if platformReadable s.par a then .ok (Config.freeByte s.draws a)
  else .error .unmodelledRead

/-- The bytes at `a`, `a+1`, …, `n` of them. -/
def memBytes (s : State) : Nat → Nat → Except Fault (List Byte)
  | _, 0 => .ok []
  | a, n + 1 =>
    match memByte s a with
    | .error f => .error f
    | .ok b =>
      match memBytes s (a + 1) n with
      | .error f => .error f
      | .ok bs => .ok (b :: bs)

/-- `MemRead(addr, n)` (R62): a span that wraps past 0xFFFFFFFF is the fault. -/
def memRead (s : State) (a : Word) (n : Nat) : Except Fault (List Byte) :=
  if Config.addressSpace < a.toNat + n then .error .unmodelledRead else memBytes s a.toNat n

/-! ### Node identity -/

/-- `node_id` (R36), read at the moment of use. -/
def State.nodeId (s : State) : Byte := s.ob[s.par.nodeIdPos]

/-- `fw_id` (R36), read at the moment of use. -/
def State.fwId (s : State) : Byte := s.ob[s.par.fwIdPos]

/-! ### Trace, TX, response -/

/-- An event appended to `st.trace` (R42). -/
def State.log (s : State) (e : Event) : State := { s with trace := s.trace ++ [e] }

/-- Bytes appended to the TX FIFO, `emit` of R13 for each (R37). -/
def State.emit (s : State) (bs : List Byte) : State := { s with tx := s.tx ++ bs }

/-- `Respond(op, payload)` (R233): nothing while silent, else the frame under the node id of this moment. -/
def respond (cmd : Byte) (payload : List Byte) (s : State) : State :=
  if s.silent then s else s.emit (responseFrame s.nodeId cmd payload)

/-- `Delay(n)` (R13, R246): a busy-wait that changes nothing but the trace. -/
def delay (n : Nat) (s : State) : State := s.log (.delay n)

/-- How long `Delay(n)` lasts, `n × BACKOFF_UNIT` (R246). No step depends on it (R370). -/
def delayDuration (p : Params) (n : Nat) : Nat := n * p.backoffUnit

/-! ### The flash controller -/

/-- `m ∈ fc.mode`. -/
def ModeSet.has (s : ModeSet) : Mode → Bool
  | .pageErase => s.pageErase
  | .pageProgram => s.pageProgram
  | .optErase => s.optErase
  | .optProgram => s.optProgram

/-- `fc.mode ∪ {m}` for `true`, `fc.mode \ {m}` for `false` (R203). -/
def ModeSet.put (s : ModeSet) (m : Mode) (on : Bool) : ModeSet :=
  match m with
  | .pageErase => { s with pageErase := on }
  | .pageProgram => { s with pageProgram := on }
  | .optErase => { s with optErase := on }
  | .optProgram => { s with optProgram := on }

/-- `{m}`. -/
def ModeSet.only (m : Mode) : ModeSet := ModeSet.empty.put m true

/-- The sixteen words of a page buffer with no empty entry (R211). -/
def bufferWords (buf : Vector (Option Word) 16) : Option (Vector Word 16) :=
  if buf.all (·.isSome) then some (buf.map (·.getD 0)) else none

/-- Busy set with a pending effect (R206). -/
def Controller.await (fc : Controller) (e : Pending) : Controller := { fc with busy := true, pending := some e }

/-- `Start` (R205), with the requirements of the effect it records (R210, R211, R212). Where several fail at once, the
spec names a fault for each and no order: R205's own are checked first, then the page address, then the page buffer
(DESIGN CHOICE, log 18). -/
def Controller.start (p : Params) (fc : Controller) : Except Fault Controller :=
  if fc.locked then .error .unmodelledController
  else if fc.mode = ModeSet.only .pageErase then
    if pageOk p fc.addr then .ok (fc.await (.pageErase fc.addr)) else .error .unmodelledFlashAddress
  else if fc.mode = ModeSet.only .pageProgram then
    if pageOk p fc.addr then
      match bufferWords fc.pagebuf with
      | some ws => .ok (fc.await (.pageProgram fc.addr ws))
      | none => .error .unmodelledController
    else .error .unmodelledFlashAddress
  else if fc.mode = ModeSet.only .optErase ∧ fc.obUnlocked = true then .ok (fc.await .optErase)
  else .error .unmodelledController

/-- A port operation's effect on the controller (R200). -/
def Controller.port (p : Params) (fc : Controller) : FlashOp → Except Fault Controller
  | .unlock => .ok { fc with locked := false }                                     -- R201
  | .lock => .ok { fc with locked := true, obUnlocked := false }                   -- R201
  | .obUnlock => .ok { fc with locked := false, obUnlocked := true }               -- R202
  | .setMode m => .ok { fc with mode := fc.mode.put m true }                       -- R203
  | .clearMode m => .ok { fc with mode := fc.mode.put m false }                    -- R203
  | .writeAddr a => .ok { fc with addr := a }                                      -- R204
  | .start => fc.start p                                                           -- R205
  | .bufferReset => .ok { fc with pagebuf := Vector.replicate 16 none }            -- R207
  | .stageWord i w =>                                                              -- R208
    if fc.mode.has .pageProgram then .ok { fc with stage := w, stageIdx := i } else .error .unmodelledController
  | .bufferLoad =>                                                                 -- R208
    if fc.mode.has .pageProgram then .ok (fc.await (.bufferLoad fc.stageIdx fc.stage))
    else .error .unmodelledController
  | .obWriteWord i w =>                                                            -- R209
    if fc.mode.has .optProgram ∧ fc.obUnlocked = true ∧ fc.locked = false then .ok (fc.await (.obWord i w))
    else .error .unmodelledController

/-- A new controller, and the port's events in the trace. -/
def State.ported (s : State) (fc : Controller) (es : List Event) : State :=
  { s with fc := fc, trace := s.trace ++ es }

/-- `FlashOp(op)` (R13): the controller's operation, and its entry in the trace (R42). -/
def portOp (op : FlashOp) (s : State) : Except Fault State :=
  match s.fc.port s.par op with
  | .error f => .error f
  | .ok fc => .ok (s.ported fc [.flash op])

/-- Option word `i` programmed with `w` (R209): as `Memory.program`, byte by byte. -/
def programOption (n : Nat) (ob : Vector Byte 24) (i : Fin 6) (w : Word) : Vector Byte 24 :=
  Vector.ofFn fun j =>
    if j.val / 4 = i.val then
      (if ob[j] = Config.erased then byteOf w (j.val % 4) else Config.freeByte n j.val)
    else ob[j]

/-- What a pending effect does outside the controller (R209 to R212). A program counts as one draw (log 5). -/
def pendingEffect (s : State) : Pending → State
  | .pageErase a =>
    { s with flash := s.flash.writeBytes a.toNat (List.replicate Config.pageSize Config.erased) }
  | .pageProgram a ws =>
    { s with flash := Memory.program s.draws s.flash a.toNat (ws.toList.flatMap bytesLe32), draws := s.draws + 1 }
  | .optErase => { s with ob := Vector.replicate 24 Config.erased }
  | .bufferLoad _ _ => s
  | .obWord i w => { s with ob := programOption s.draws s.ob i w, draws := s.draws + 1 }

/-- What completion does inside the controller (R206, R208). -/
def Controller.complete (fc : Controller) : Controller :=
  match fc.pending with
  | some (.bufferLoad i w) => { fc with busy := false, pending := none, pagebuf := fc.pagebuf.set i.val (some w) }
  | _ => { fc with busy := false, pending := none }

/-- The controller applies the pending effect and clears busy (R206). -/
def State.complete (s : State) : State :=
  let done := match s.fc.pending with
    | some e => pendingEffect s e
    | none => s
  { done with fc := s.fc.complete }

/-- One visit of `WaitNotBusy` (R206): has it returned, and the state after it. The wait stands in the trace when it
returns (log 8). -/
def pollBusy (s : State) : Bool × State :=
  if s.fc.busy then
    match s.env.fcPolls with
    | [] => (true, s.complete.log .waitNotBusy)
    | .clears :: ps => (true, ({ s with env := { s.env with fcPolls := ps } }.complete).log .waitNotBusy)
    | .busy :: ps => (false, { s with env := { s.env with fcPolls := ps } })
    | .never :: _ => (false, s)
  else (true, s.log .waitNotBusy)

/-! ### The tasks of a tick -/

/-- Part (c) of an iteration (R290, R293): the countdown, and `Handoff()` when it is 0 and the TX FIFO is empty. -/
def countdownStep (s : State) : State :=
  match s.bootMode with
  | .stay => s
  | .bootWait | .go =>
    let t := { s with countdown := s.countdown - 1 }
    if t.countdown = 0 ∧ t.tx = [] then { t.log .handoff with handedOff := true } else t

/-- A turn of the host (R45, R297; log 7): it takes bytes from the head of the TX FIFO, in order, each an event. -/
def hostTurn (s : State) : State :=
  match s.env.txTake with
  | [] => s
  | n :: ns =>
    { s with
      env := { s.env with txTake := ns }
      tx := s.tx.drop n
      trace := s.trace ++ (s.tx.take n).map .tx }

/-- The tasks in order. The host has a turn before every task that leaves an event or reads the FIFO (R45, R297;
log 7). A `WaitNotBusy` that does not return leaves the rest in `work` (R14, R219; log 8). -/
def run : List Task → State → Outcome State Fault Refusal
  | [], s => .next { s with work := [] }
  | .port op :: ts, s =>
    match portOp op (hostTurn s) with
    | .error f => .fault f
    | .ok s' => run ts s'
  | .wait :: ts, s =>
    match pollBusy (hostTurn s) with
    | (true, s') => run ts s'
    | (false, s') => .next { s' with work := .wait :: ts }
  | .respond cmd payload :: ts, s => run ts (respond cmd payload s)
  | .countdown :: ts, s => run ts (countdownStep (hostTurn s))

/-- What an operation does: the state with its immediate effects, and the tasks it leaves, or a fault (R317). -/
abbrev Plan := Except Fault (State × List Task)

/-- A plan carried out. -/
def runPlan : Plan → Outcome State Fault Refusal
  | .error f => .fault f
  | .ok (s, ts) => run ts s

/-- No operation after `Handoff()` (R294; log 10), and none while another is mid-sequence (R51, R351; log 9). -/
def atRest (s : State) (k : Outcome State Fault Refusal) : Outcome State Fault Refusal :=
  if s.handedOff then .refused .handedOff
  else if s.work ≠ [] then .refused .midSequence
  else k

/-! ### A later reset -/

/-- The page a pending effect changes. -/
def Pending.page : Pending → Option Word
  | .pageErase a => some a
  | .pageProgram a _ => some a
  | .optErase => none
  | .bufferLoad _ _ => none
  | .obWord _ _ => none

/-- Does a pending effect change the option bytes? -/
def Pending.options : Pending → Bool
  | .pageErase _ => false
  | .pageProgram _ _ => false
  | .optErase => true
  | .bufferLoad _ _ => false
  | .obWord _ _ => true

/-- The page a task still to do addresses. -/
def Task.page : Task → Option Word
  | .port (.writeAddr a) => some a
  | _ => none

/-- Does a task still to do program option bytes? -/
def Task.options : Task → Bool
  | .port (.obWriteWord _ _) => true
  | _ => false

/-- The pages that the sequence under way can still change, those the controller would refuse left out. -/
def State.openPages (s : State) : List Word :=
  (s.fc.pending.toList.filterMap Pending.page ++ s.work.filterMap Task.page).filter (pageOk s.par)

/-- Can the sequence under way still change the option bytes? -/
def State.openOptions (s : State) : Bool := s.fc.pending.any Pending.options || s.work.any Task.options

/-- A page of free values, the `n`-th draw. -/
def freePage (n : Nat) (a : Word) : List Byte :=
  (List.range Config.pageSize).map fun k => Config.freeByte n (a.toNat + k)

/-- What a reset in the middle of a flash sequence leaves (R341, D36): every byte that the sequence can still change is
a free value (log 21). Between two ticks nothing is under way, and nothing changes. -/
def State.interrupted (s : State) : State :=
  { s with
    flash := s.openPages.foldl (fun m a => m.writeBytes a.toNat (freePage s.draws a)) s.flash
    ob := if s.openOptions then Vector.ofFn fun j => Config.freeByte s.draws j.val else s.ob
    draws := s.draws + 1 }

/-- A later reset of the same chip (R340): the volatile state as at launch, the persistent state kept (R48) but for
what a sequence under way loses (R341). What the other agents do afterwards is `env`, given from outside: whether a
controller that hung before the reset (R321) completes again is left open, so every `env` is admitted (DESIGN CHOICE,
log 21). The draw counter goes on. -/
def State.relaunch (s : State) (env : Env) : State :=
  { State.launch s.par s.interrupted.flash s.interrupted.ob with env := env, draws := s.interrupted.draws }

/-! ### The address filter -/

/-- `AddrAccept` (R231). -/
def addrAccept (s : State) : Addr → Bool
  | .short a => a == s.nodeId || a == Config.broadcast
  | .long u => u == s.par.uid

/-- A request dispatched (R230): dropped if the address filter does not accept it (R231, R237), else the command's
plan. -/
def onRequest (dst : Addr) (s : State) (plan : Plan) : Plan :=
  if addrAccept s dst then plan else .ok (s, [])

end Sys2Proof.Machine
end

