-- ==== Sys2Proof/Machine/CrcEngine.lean ====
section
/-! DEFINITION. The CRC engine's port operations (40_crc.md R130 to R133). An operation on a caller's temporary leaves
its result in `ret`; none of them touches anything else (R23, R136). -/

namespace Sys2Proof.Machine

open Host (Outcome)

/-- The result of an operation on an accumulator: stored in `st.crc`, or handed back for a temporary (log 11). -/
def putAcc (acc : Acc) (w : Word) (s : State) : State :=
  match acc with
  | .decoder => { s with dec := { s.dec with crc := w } }
  | .temp _ => { s with ret := .word w }

/-- The value of an accumulator operand. -/
def accValue (acc : Acc) (s : State) : Word :=
  match acc with
  | .decoder => s.dec.crc
  | .temp w => w

/-- CRC_INIT (R130). -/
def execCrcInit (acc : Acc) (s : State) : Outcome State Fault Refusal :=
  atRest s (.next (putAcc acc Config.crcInit s))

/-- CRC_UPDATE (R131). -/
def execCrcUpdate (acc : Acc) (bytes : List Byte) (s : State) : Outcome State Fault Refusal :=
  atRest s (.next (putAcc acc (crcUpdate (accValue acc s) bytes) s))

/-- CRC_FINALIZE (R132): returns, and changes no accumulator. -/
def execCrcFinalize (acc : Acc) (s : State) : Outcome State Fault Refusal :=
  atRest s (.next { s with ret := .word (crcFinalize (accValue acc s)) })

/-- CRC_CALC (R133). -/
def execCrcCalc (bytes : List Byte) (s : State) : Outcome State Fault Refusal :=
  atRest s (.next { s with ret := .word (crcCalc bytes) })

end Sys2Proof.Machine
end

