-- ==== Sys2Proof/Machine/Codec.lean ====
section
/-! DEFINITION. The packet codec (41_codec.md): the decoder byte step and the serialiser. -/

namespace Sys2Proof.Machine

open Host (Outcome)

/-! ### The decoder byte step -/

/-- `PreambleCount` (R151). -/
def preambleCount (b : Byte) (d : Decoder) : Bool × Decoder :=
  if b = Config.preamble then
    (false, { d with syncCount := d.syncCount + 1, preRun := min (d.preRun + 1) Config.preambleLen })
  else (decide (Config.preambleLen ≤ d.preRun) && headerMatch b, { d with preRun := 0 })

/-- `HeaderStep` (R153). -/
def headerStep (b : Byte) (d : Decoder) : Decoder :=
  { d with
    pkt := { d.pkt with type := pktTypeOf b, addressLength := addrLenOf b }
    crc := Config.crcInit
    idx := 0
    dstate := .address }

/-- `AddressStep` (R154). An index beyond the buffer occurs in no run and writes nothing (log 15). -/
def addressStep (b : Byte) (d : Decoder) : Decoder :=
  let idx := d.idx + 1
  { d with
    pkt := { d.pkt with address := d.pkt.address.setIfInBounds d.idx.toNat b }
    idx := idx
    dstate := if idx.toNat = d.pkt.addressLength.size then .command else .address }

/-- `CommandStep` (R155). -/
def commandStep (b : Byte) (d : Decoder) : Decoder :=
  { d with pkt := { d.pkt with command := b }, dstate := .length }

/-- `LengthStep` (R156). -/
def lengthStep (b : Byte) (d : Decoder) : Decoder :=
  { d with
    pkt := { d.pkt with dataLength := b }
    idx := 0
    dstate := if b = 0 then .crc else .data }

/-- `DataStep` (R157). An index beyond the buffer occurs in no run and writes nothing (log 15). -/
def dataStep (b : Byte) (d : Decoder) : Decoder :=
  let idx := d.idx + 1
  let full := decide (idx = d.pkt.dataLength)
  { d with
    pkt := { d.pkt with data := d.pkt.data.setIfInBounds d.idx.toNat b }
    idx := if full then 0 else idx
    dstate := if full then .crc else .data }

/-- `CrcStep` (R159). -/
def crcStep (b : Byte) (d : Decoder) : Bool × Decoder :=
  let rx := setByte d.rxCrc d.idx.toNat b
  let idx := d.idx + 1
  if idx = 4 then (frameVerdict d rx, { d with rxCrc := rx, idx := idx, dstate := .idle })
  else (false, { d with rxCrc := rx, idx := idx })

/-- A byte folded into `st.crc` (R158). -/
def foldCrc (b : Byte) (d : Decoder) : Decoder := { d with crc := crcByte d.crc b }

/-- The state's handling of a byte, and the folding (R150, R158): neither Idle nor Crc folds. -/
def handleByte (b : Byte) (d : Decoder) : Bool × Decoder :=
  match d.dstate with
  | .idle => (false, d)
  | .header => (false, foldCrc b (headerStep b d))
  | .address => (false, foldCrc b (addressStep b d))
  | .command => (false, foldCrc b (commandStep b d))
  | .length => (false, foldCrc b (lengthStep b d))
  | .data => (false, foldCrc b (dataStep b d))
  | .crc => crcStep b d

/-- `decoder_step(b)` (R150): counting, then resynchronisation (R152), then the state's handling. -/
def decoderStep (b : Byte) (d : Decoder) : Bool × Decoder :=
  let (resync, d1) := preambleCount b d
  handleByte b (if resync then { d1 with dstate := .header } else d1)

/-- Bytes fed one after another: `frame_valid` of the last one, and the decoder after it. -/
def feed : List Byte → Bool × Decoder → Bool × Decoder
  | [], r => r
  | b :: bs, r => feed bs (decoderStep b r.2)

/-- The byte received by the decoder, without its verdict. -/
def receive (b : Byte) (s : State) : State := { s with dec := (decoderStep b s.dec).2 }

/-- DECODER_STEP (R150): returns `frame_valid` (log 11). -/
def execDecoderStep (b : Byte) (s : State) : Outcome State Fault Refusal :=
  atRest s (.next { receive b s with ret := .valid (decoderStep b s.dec).1 })

/-! ### The header bytes (R92, R93). After a run of five preambles each restarts framing (R152, R153); without it the
byte belongs to the decoder's current state (R106, R163). -/

/-- HDR_REQ: 0x80 received. -/
def execHdrReq (s : State) : Outcome State Fault Refusal := atRest s (.next (receive 0x80 s))

/-- HDR_RESP: 0x81 received. -/
def execHdrResp (s : State) : Outcome State Fault Refusal := atRest s (.next (receive 0x81 s))

/-- HDR_REQL: 0x82 received. -/
def execHdrReql (s : State) : Outcome State Fault Refusal := atRest s (.next (receive 0x82 s))

/-- HDR_RESPL: 0x83 received. -/
def execHdrRespl (s : State) : Outcome State Fault Refusal := atRest s (.next (receive 0x83 s))

/-! ### The serialiser -/

/-- SERIALIZE (R180): the frame of `data[0..L-1]` goes to the TX FIFO, its length is returned (R181; log 11).
`L > len(data)` is outside R180 (log 14). -/
def execSerialize (node cmd : Byte) (data : List Byte) (len : Byte) (s : State) : Outcome State Fault Refusal :=
  atRest s
    (if data.length < len.toNat then .refused .illFormed
     else
      let f := responseFrame node cmd (data.take len.toNat)
      .next { s.emit f with ret := .count f.length })

end Sys2Proof.Machine
end

