-- ==== Sys2Proof/Machine/Flash.lean ====
section
/-! DEFINITION. The flash sequencer (42_flash.md R215 to R217): each operation is its exact sequence of port
operations and waits. -/

namespace Sys2Proof.Machine

open Host (Outcome)

/-- The sequence of `erase_page(a)` (R215). -/
def erasePageTasks (a : Word) : List Task :=
  [.port .unlock, .port (.setMode .pageErase), .port (.writeAddr a), .port .start, .wait,
   .port (.clearMode .pageErase)]

/-- One turn of the loop of R216: word `i` staged and loaded. -/
def loadWordTasks (d : Vector Byte 64) (i : Fin 16) : List Task :=
  [.port (.setMode .pageProgram), .port (.stageWord i (pageWord d i)), .port .bufferLoad, .wait,
   .port (.clearMode .pageProgram)]

/-- The sequence of `write_page(a, d)` (R216). -/
def writePageTasks (a : Word) (d : Vector Byte 64) : List Task :=
  [.port .unlock, .port .bufferReset]
  ++ (List.finRange 16).flatMap (loadWordTasks d)
  ++ [.port (.setMode .pageProgram), .port (.writeAddr a), .port .start, .wait, .port (.clearMode .pageProgram)]

/-- One turn of the loop of R217: option word `i` programmed. -/
def optionWordTasks (staged : Vector Byte 24) (i : Fin 6) : List Task :=
  [.port (.setMode .optProgram), .port (.obWriteWord i (optionWord staged i)), .wait,
   .port (.clearMode .optProgram)]

/-- The sequence of R217 after the staging copy has been made and changed. -/
def optionTasks (staged : Vector Byte 24) : List Task :=
  [.port .obUnlock, .port (.setMode .optErase), .port .start, .wait, .port (.clearMode .optErase)]
  ++ (List.finRange 6).flatMap (optionWordTasks staged)
  ++ [.port .lock]

/-- The sequence of `write_option_byte(k, v)` (R217). The staging copy is `MemRead(OB_BASE, 24)`, that is `st.ob`
(R62), with byte `k` overwritten; it is not a traced event. -/
def writeOptionTasks (k : Fin 24) (v : Byte) (s : State) : List Task := optionTasks (s.ob.set k.val v)

/-- ERASE_PAGE (R215). -/
def execErasePage (a : Word) (s : State) : Outcome State Fault Refusal :=
  atRest s (run (erasePageTasks a) s)

/-- WRITE_PAGE (R216). -/
def execWritePage (a : Word) (d : Vector Byte 64) (s : State) : Outcome State Fault Refusal :=
  atRest s (run (writePageTasks a d) s)

/-- WRITE_OPTION_BYTE (R217). -/
def execWriteOptionByte (k : Fin 24) (v : Byte) (s : State) : Outcome State Fault Refusal :=
  atRest s (run (writeOptionTasks k v s) s)

end Sys2Proof.Machine
end

