-- ==== Sys2Proof/Machine/Commands.lean ====
section
/-! DEFINITION. The eleven commands of the dispatcher (43_dispatcher.md §2). A command's plan is its rule's
pseudocode after the address filter; its meaning is the dispatch of its frame (R230): the filter, then the plan. The
packet bytes beyond the payload that GET_ID's hash reads stand in the packet buffer (R33, R245). -/

namespace Sys2Proof.Machine

open Host (Outcome)

/-- A dropped request (R237): nothing changes. -/
def dropped (s : State) : Plan := .ok (s, [])

/-- INFO (R240). -/
def planInfo (s : State) : Plan := .ok (s, [.respond s.par.opInfo [s.par.blMajor, s.par.blMinor]])

/-- GET_CHIP (R241). -/
def planGetChip (s : State) : Plan := .ok (s, [.respond s.par.opGetChip s.par.chipName])

/-- The reduction loop of R245 from `v` with window `w`, with `fuel` turns; each turn lowers `v`, so `v` turns are
enough. -/
def backoffReduce (w : Nat) : Nat → Nat → Nat
  | 0, v => v
  | fuel + 1, v =>
    if w ≤ v then backoffReduce w fuel (if 32 * w ≤ v then v - 32 * w else v - w) else v

/-- The seed `d[0..3]` of R245: the payload byte, then what the packet buffer holds (D10). -/
def backoffSeed (seed : Byte) (s : State) : List Byte :=
  [seed, s.dec.pkt.data[1], s.dec.pkt.data[2], s.dec.pkt.data[3]]

/-- The hash of R245, low 16 bits. -/
def backoffHash (seed : Byte) (s : State) : Nat :=
  ((crcCalc (s.par.uid.toList ++ backoffSeed seed s)).setWidth 16).toNat

/-- `BackoffValue` (R245). -/
def backoffValue (seed : Byte) (s : State) : Nat :=
  backoffReduce (backoffWindow seed) (backoffHash seed s) (backoffHash seed s)

/-- GET_ID (R242): the backoff for a payload of one byte (R244, R246), then the unique id. -/
def planGetId (d : List Byte) (s : State) : Plan :=
  let t := match d with
    | [seed] => delay (backoffValue seed s) s
    | _ => s
  .ok (t, [.respond s.par.opGetId s.par.uid.toList])

/-- SILENT (R247). -/
def planSilent (s : State) : Plan := .ok ({ s with silent := true }, [.respond s.par.opSilent []])

/-- UNSILENT (R248). -/
def planUnsilent (s : State) : Plan := .ok ({ s with silent := false }, [.respond s.par.opUnsilent []])

/-- GO (R249). -/
def planGo (s : State) : Plan :=
  .ok ({ s with bootMode := .go, countdown := s.par.goTicks }, [.respond s.par.opGo []])

/-- ERASE (R250), with the length rule (R235) and the firmware-id gate (R236). -/
def planErase (d : List Byte) (s : State) : Plan :=
  if d.length ≠ 3 then dropped s
  else if arg d 0 ≠ s.fwId then dropped s
  else .ok (s, erasePageTasks (eraseAddress s.par d) ++ [.respond s.par.opErase []])

/-- WRITE (R253), with the length rule (R235) and the firmware-id gate (R236). -/
def planWrite (d : List Byte) (s : State) : Plan :=
  if d.length ≠ 70 then dropped s
  else if arg d 0 ≠ s.fwId then dropped s
  else .ok (s, erasePageTasks (writeAddress d) ++ writePageTasks (writeAddress d) (writePageBytes d)
      ++ [.respond s.par.opWrite []])

/-- GET_CRC32 (R255), with the length rule (R235). A span read counts as one draw (log 6). -/
def planGetCrc32 (d : List Byte) (s : State) : Plan :=
  if d.length ≠ 8 then dropped s
  else
    match memRead s (argWord d 0) (argWord d 4).toNat with
    | .error f => .error f
    | .ok bs => .ok ({ s with draws := s.draws + 1 }, [.respond s.par.opGetCrc32 (bytesLe32 (crcCalc bs))])

/-- GET_NODE_ID (R256). -/
def planGetNodeId (s : State) : Plan := .ok (s, [.respond s.par.opGetNodeId [s.nodeId, s.fwId]])

/-- SET_NODE_ID (R257), with the length rule (R235). -/
def planSetNodeId (d : List Byte) (s : State) : Plan :=
  if d.length ≠ 2 then dropped s
  else if arg d 0 = 0 then
    .ok (s, writeOptionTasks s.par.nodeIdPos (arg d 1) s ++ [.respond s.par.opSetNodeId []])
  else if arg d 0 = 1 then
    .ok (s, writeOptionTasks s.par.fwIdPos (arg d 1) s ++ [.respond s.par.opSetNodeId []])
  else dropped s

/-! ### The meanings -/

/-- INFO (R240). -/
def execInfo (dst : Addr) (_d : List Byte) (s : State) : Outcome State Fault Refusal :=
  atRest s (runPlan (onRequest dst s (planInfo s)))

/-- GET_CHIP (R241). -/
def execGetChip (dst : Addr) (_d : List Byte) (s : State) : Outcome State Fault Refusal :=
  atRest s (runPlan (onRequest dst s (planGetChip s)))

/-- GET_ID (R242). -/
def execGetId (dst : Addr) (d : List Byte) (s : State) : Outcome State Fault Refusal :=
  atRest s (runPlan (onRequest dst s (planGetId d s)))

/-- SILENT (R247). -/
def execSilent (dst : Addr) (_d : List Byte) (s : State) : Outcome State Fault Refusal :=
  atRest s (runPlan (onRequest dst s (planSilent s)))

/-- UNSILENT (R248). -/
def execUnsilent (dst : Addr) (_d : List Byte) (s : State) : Outcome State Fault Refusal :=
  atRest s (runPlan (onRequest dst s (planUnsilent s)))

/-- GO (R249). -/
def execGo (dst : Addr) (_d : List Byte) (s : State) : Outcome State Fault Refusal :=
  atRest s (runPlan (onRequest dst s (planGo s)))

/-- ERASE (R250). -/
def execErase (dst : Addr) (d : List Byte) (s : State) : Outcome State Fault Refusal :=
  atRest s (runPlan (onRequest dst s (planErase d s)))

/-- WRITE (R253). -/
def execWrite (dst : Addr) (d : List Byte) (s : State) : Outcome State Fault Refusal :=
  atRest s (runPlan (onRequest dst s (planWrite d s)))

/-- GET_CRC32 (R255). -/
def execGetCrc32 (dst : Addr) (d : List Byte) (s : State) : Outcome State Fault Refusal :=
  atRest s (runPlan (onRequest dst s (planGetCrc32 d s)))

/-- GET_NODE_ID (R256). -/
def execGetNodeId (dst : Addr) (_d : List Byte) (s : State) : Outcome State Fault Refusal :=
  atRest s (runPlan (onRequest dst s (planGetNodeId s)))

/-- SET_NODE_ID (R257). -/
def execSetNodeId (dst : Addr) (d : List Byte) (s : State) : Outcome State Fault Refusal :=
  atRest s (runPlan (onRequest dst s (planSetNodeId d s)))

end Sys2Proof.Machine
end

