-- ==== Sys2Proof/Machine/Loop.lean ====
section
/-! DEFINITION. The control loop (44_control_loop.md), the dispatch of a validated packet (43_dispatcher.md R230), and
what stands around a loop iteration in a step: a turn of the host, and the rest of a tick that was held. -/

namespace Sys2Proof.Machine

open Host (Outcome)

/-- The plan of a wire command. The other instructions have none: `requestInstr` gives only wire commands. -/
def requestPlan (i : Instr) (s : State) : Plan :=
  match i with
  | .info dst _ => onRequest dst s (planInfo s)
  | .getChip dst _ => onRequest dst s (planGetChip s)
  | .getId dst d => onRequest dst s (planGetId d s)
  | .silent dst _ => onRequest dst s (planSilent s)
  | .unsilent dst _ => onRequest dst s (planUnsilent s)
  | .go dst _ => onRequest dst s (planGo s)
  | .erase dst d => onRequest dst s (planErase d s)
  | .write dst d => onRequest dst s (planWrite d s)
  | .getCrc32 dst d => onRequest dst s (planGetCrc32 d s)
  | .getNodeId dst _ => onRequest dst s (planGetNodeId s)
  | .setNodeId dst d => onRequest dst s (planSetNodeId d s)
  | .hdrReq => dropped s
  | .hdrResp => dropped s
  | .hdrReql => dropped s
  | .hdrRespl => dropped s
  | .crcInit _ => dropped s
  | .crcUpdate _ _ => dropped s
  | .crcFinalize _ => dropped s
  | .crcCalc _ => dropped s
  | .decoderStep _ => dropped s
  | .serialize _ _ _ _ => dropped s
  | .erasePage _ => dropped s
  | .writePage _ _ => dropped s
  | .writeOptionByte _ _ => dropped s
  | .loopIteration => dropped s

/-- The instruction a packet is (R102, R105). -/
def packetInstr (p : Params) (k : Packet) : Option Instr := requestInstr p k.command k.addr k.payload

/-- `dispatch(st.pkt)` (R230): an unknown opcode is dropped (R234). -/
def dispatch (s : State) : Plan :=
  match packetInstr s.par s.dec.pkt with
  | some i => requestPlan i s
  | none => dropped s

/-- Part (a) of an iteration (R290, R291). -/
def activityPoll (s : State) : State :=
  if s.dec.syncCount ≠ s.lastSync then
    { s with
      lastSync := s.dec.syncCount
      bootMode := match s.bootMode with
        | .bootWait => .stay
        | m => m }
  else s

/-- `RX.available()` and `RxByte()` (R44, R292): what RX offers at this iteration, and the script after it. -/
def rxPoll (s : State) : Option Byte × State :=
  match s.env.rxIn with
  | [] => (none, s)
  | o :: os => (o, { s with env := { s.env with rxIn := os } })

/-- Part (b) of an iteration (R290, R292): at most one byte, and the dispatch of the frame it completes. -/
def byteStep (s : State) : Plan :=
  match rxPoll s with
  | (none, t) => .ok (t, [])
  | (some b, t) => if (decoderStep b t.dec).1 then dispatch (receive b t) else .ok (receive b t, [])

/-- `loop_iteration()` (R290): part (c) follows whatever (b) leaves to do. -/
def iteration (s : State) : Plan :=
  match byteStep (activityPoll s) with
  | .error f => .error f
  | .ok (t, ts) => .ok (t, ts ++ [.countdown])

/-- LOOP_ITERATION (R290). -/
def execLoopIteration (s : State) : Outcome State Fault Refusal := atRest s (runPlan (iteration s))

/-- One step: none after `Handoff()` (R294); a turn of the host (R45; log 7); then the core goes on with a held tick, or
does the next loop iteration, given as `loop`. -/
def stepWith (loop : State → Outcome State Fault Refusal) (s : State) : Outcome State Fault Refusal :=
  if s.handedOff then .refused .handedOff
  else
    let t := hostTurn s
    if t.work = [] then loop t else run t.work t

/-! ### Placing an instruction (log 13) -/

/-- The decoder after five preambles: the next byte is a HEADER if it matches (R152). -/
def decoderAwaitingHeader (d : Decoder) : Decoder := (feed preambles (false, d)).2

/-- The decoder that has received all of a frame but its last byte. -/
def decoderAwaitingLast (frame : List Byte) (d : Decoder) : Decoder := (feed frame.dropLast (false, d)).2

/-- The state whose next step receives the byte `b` with this decoder: the core at rest, the byte first in the RX
script. -/
def placeByte (b : Byte) (d : Decoder) (s : State) : State :=
  { s with
    dec := d
    handedOff := false
    work := []
    env := { s.env with rxIn := some b :: s.env.rxIn } }

/-- The table byte `b` placed as the next thing the block receives (log 13): a HEADER byte after its run of preambles,
or, for a COMMAND byte, the last byte of the frame that holds it. -/
def placeTableByte (b : Byte) (s : State) : State :=
  if headerMatch b then placeByte b (decoderAwaitingHeader s.dec) s
  else
    let f := commandFrame b
    placeByte (f.getLastD 0) (decoderAwaitingLast f s.dec) s

end Sys2Proof.Machine
end

