-- ==== Sys2Proof/Machine/Dispatch.lean ====
section
/-! DEFINITION. One arm per instruction. -/

namespace Sys2Proof.Machine

def exec (i : Instr) (s : State) : Host.Outcome State Fault Refusal :=
  match i with
  | .info dst d => Sys2Proof.Machine.execInfo dst d s
  | .getChip dst d => Sys2Proof.Machine.execGetChip dst d s
  | .getId dst d => Sys2Proof.Machine.execGetId dst d s
  | .silent dst d => Sys2Proof.Machine.execSilent dst d s
  | .unsilent dst d => Sys2Proof.Machine.execUnsilent dst d s
  | .go dst d => Sys2Proof.Machine.execGo dst d s
  | .erase dst d => Sys2Proof.Machine.execErase dst d s
  | .write dst d => Sys2Proof.Machine.execWrite dst d s
  | .getCrc32 dst d => Sys2Proof.Machine.execGetCrc32 dst d s
  | .getNodeId dst d => Sys2Proof.Machine.execGetNodeId dst d s
  | .setNodeId dst d => Sys2Proof.Machine.execSetNodeId dst d s
  | .hdrReq => Sys2Proof.Machine.execHdrReq s
  | .hdrResp => Sys2Proof.Machine.execHdrResp s
  | .hdrReql => Sys2Proof.Machine.execHdrReql s
  | .hdrRespl => Sys2Proof.Machine.execHdrRespl s
  | .crcInit acc => Sys2Proof.Machine.execCrcInit acc s
  | .crcUpdate acc bytes => Sys2Proof.Machine.execCrcUpdate acc bytes s
  | .crcFinalize acc => Sys2Proof.Machine.execCrcFinalize acc s
  | .crcCalc bytes => Sys2Proof.Machine.execCrcCalc bytes s
  | .decoderStep b => Sys2Proof.Machine.execDecoderStep b s
  | .serialize node cmd data len => Sys2Proof.Machine.execSerialize node cmd data len s
  | .erasePage a => Sys2Proof.Machine.execErasePage a s
  | .writePage a d => Sys2Proof.Machine.execWritePage a d s
  | .writeOptionByte k v => Sys2Proof.Machine.execWriteOptionByte k v s
  | .loopIteration => Sys2Proof.Machine.execLoopIteration s

end Sys2Proof.Machine
end

