-- ==== Sys2Proof/Machine/Step.lean ====
section
/-! DEFINITION. The step: the host's turn, then one loop iteration of the core or the rest of a held one
(44_control_loop.md R290; Machine/Loop.lean). -/

namespace Sys2Proof.Machine

/-- One step of the block. -/
def step (s : State) : Host.Outcome State Fault Refusal := stepWith (exec .loopIteration) s

/-- `s` with a table row's byte placed so that the next step runs it (log 13). The rows of the port operations have no
bits, and nothing is placed for them (log 12). -/
def State.withFetchWord (s : State) (nbits w : Nat) : State :=
  if nbits = 8 then placeTableByte (BitVec.ofNat 8 w) s else s

end Sys2Proof.Machine
end

