-- ==== Sys2Proof/Safety.lean ====
section
/-! DEFINITION. The terms claims use: the states in which an operation may start, what the controller's script promises,
and the invariant of the machine. -/

namespace Sys2Proof.Machine

open Host (Outcome)

/-- An operation may be invoked: the run has not ended (R294), and no operation is mid-sequence (R51). -/
def Ready (s : State) : Prop := s.handedOff = false ∧ s.work = []

/-- The controller clears busy at each of its next `n` polls: the fairness premise of R219 for `n` waits. -/
def Clears (n : Nat) (s : State) : Prop := ∀ q ∈ s.env.fcPolls.take n, q = Poll.clears

/-- The controller never clears busy from now on (R219, R316). -/
def Stuck (s : State) : Prop := ∃ ps, s.env.fcPolls = .never :: ps

/-- The state with the scripts of `n` polls used up. -/
def State.polled (s : State) (n : Nat) : State := { s with env := { s.env with fcPolls := s.env.fcPolls.drop n } }

/-- The decoder's fields in a state that runs reach: R27 (`pre_run`), R25 (never between two byte steps in Header),
R26 (`idx` counts the bytes of the current field). -/
def decoderOk (d : Decoder) : Bool :=
  decide (d.preRun ≤ Config.preambleLen)
  && match d.dstate with
    | .idle => true
    | .header => false
    | .address => decide (d.idx.toNat < d.pkt.addressLength.size)
    | .command => true
    | .length => true
    | .data => decide (d.idx.toNat < d.pkt.dataLength.toNat)
    | .crc => decide (d.idx.toNat < 4)

/-- The flash array in canonical form, and every listed address inside [FLASH_BASE, FLASH_BASE+FLASH_SIZE) (R38). -/
def flashOk (p : Params) (m : Memory) : Bool := m.wf && m.all fun c => inFlash p c.1 1

/-- A pending page operation is at an address that R210 and R211 admit. -/
def pendingOk (p : Params) : Option Pending → Bool
  | some (.pageErase a) => pageOk p a
  | some (.pageProgram a _) => pageOk p a
  | some .optErase => true
  | some (.bufferLoad _ _) => true
  | some (.obWord _ _) => true
  | none => true

/-- Running these tasks from this controller issues no operation outside its requirement (R205, R208, R209), and
ends with no control bit armed and busy clear (R218). A refused page address ends the run before that. -/
def controllerOk (p : Params) : Controller → List Task → Bool
  | fc, [] => decide (fc.mode = ModeSet.empty) && !fc.busy
  | fc, .port op :: ts =>
    match fc.port p op with
    | .ok fc' => controllerOk p fc' ts
    | .error .unmodelledFlashAddress => true
    | .error .unmodelledController => false
    | .error .unmodelledRead => false
  | fc, .wait :: ts => controllerOk p (if fc.busy then fc.complete else fc) ts
  | fc, .respond _ _ :: ts => controllerOk p fc ts
  | fc, .countdown :: ts => controllerOk p fc ts

/-- A core in the middle of a tick is held in `WaitNotBusy` with busy set (R14, R206). -/
def heldOk (s : State) : Bool :=
  match s.work with
  | [] => true
  | .wait :: _ => s.fc.busy
  | .port _ :: _ => false
  | .respond _ _ :: _ => false
  | .countdown :: _ => false

/-- Part (c) of the iteration, if a held tick still has to do it, is its last task (R290). -/
def countdownLast (ts : List Task) : Bool := ts.dropLast.all (· != .countdown)

/-- The machine's invariant. -/
structure MachineInv (s : State) : Prop where
  decoder : decoderOk s.dec = true
  flash : flashOk s.par s.flash = true
  busy : s.fc.busy = s.fc.pending.isSome
  pending : pendingOk s.par s.fc.pending = true
  controller : controllerOk s.par s.fc s.work = true
  held : heldOk s = true
  last : countdownLast s.work = true
  /-- `Handoff()` happens with the countdown at 0 and the TX FIFO empty (R293) -/
  handoff : s.handedOff = true → s.countdown = 0 ∧ s.tx = [] ∧ s.work = []

/-- `b` restarts framing in this decoder (R151, R152). -/
def Restarts (b : Byte) (d : Decoder) : Prop := Config.preambleLen ≤ d.preRun ∧ headerMatch b = true

/-- The decoder after the counting of R151 of a byte that does not restart framing. -/
def counted (b : Byte) (d : Decoder) : Decoder :=
  if b = Config.preamble then
    { d with syncCount := d.syncCount + 1, preRun := min (d.preRun + 1) Config.preambleLen }
  else { d with preRun := 0 }

/-- What follows a dispatch in its tick (R290, R293): part (c) after a turn of the host, at once, or after what a held
tick still has to do. -/
def afterDispatch : Outcome State Fault Refusal → Outcome State Fault Refusal
  | .next t => if t.work = [] then .next (countdownStep (hostTurn t)) else .next { t with work := t.work ++ [.countdown] }
  | .fault f => .fault f
  | .refused r => .refused r

/-- The state in which an iteration that reads a byte hands it to the decoder: after the host's turn and part (a). -/
def beforeByte (s : State) : State := (rxPoll (activityPoll (hostTurn s))).2

/-- The byte of a `Tx` event. -/
def Event.txByte : Event → Option Byte
  | .tx b => some b
  | .flash _ => none
  | .waitNotBusy => none
  | .delay _ => none
  | .handoff => none

/-- Every byte composed so far, in order: those the host has taken, then those in the FIFO (R37, R45). -/
def State.wire (s : State) : List Byte := s.trace.filterMap Event.txByte ++ s.tx

/-! The traces of the sequences of 42_flash.md §2. -/

/-- The trace of `erase_page(a)` (R215). -/
def erasePageEvents (a : Word) : List Event :=
  [.flash .unlock, .flash (.setMode .pageErase), .flash (.writeAddr a), .flash .start, .waitNotBusy,
   .flash (.clearMode .pageErase)]

/-- The trace of one turn of the loop of R216. -/
def loadWordEvents (d : Vector Byte 64) (i : Fin 16) : List Event :=
  [.flash (.setMode .pageProgram), .flash (.stageWord i (pageWord d i)), .flash .bufferLoad, .waitNotBusy,
   .flash (.clearMode .pageProgram)]

/-- The trace of `write_page(a, d)` (R216). -/
def writePageEvents (a : Word) (d : Vector Byte 64) : List Event :=
  [.flash .unlock, .flash .bufferReset]
  ++ (List.finRange 16).flatMap (loadWordEvents d)
  ++ [.flash (.setMode .pageProgram), .flash (.writeAddr a), .flash .start, .waitNotBusy,
      .flash (.clearMode .pageProgram)]

/-- The trace of one turn of the loop of R217. -/
def optionWordEvents (st : Vector Byte 24) (i : Fin 6) : List Event :=
  [.flash (.setMode .optProgram), .flash (.obWriteWord i (optionWord st i)), .waitNotBusy,
   .flash (.clearMode .optProgram)]

/-- The trace of R217 after the staging copy. -/
def optionEvents (st : Vector Byte 24) : List Event :=
  [.flash .obUnlock, .flash (.setMode .optErase), .flash .start, .waitNotBusy, .flash (.clearMode .optErase)]
  ++ (List.finRange 6).flatMap (optionWordEvents st)
  ++ [.flash .lock]

/-- The events of the core itself: all but the bytes the host takes (R42). -/
def coreEvents (es : List Event) : List Event := es.filter fun e => e.txByte.isNone

/-- Started from `s`, the core has come to `t`, and would have come to `u` had the host taken nothing: the host's turns
took the first `k` bytes of the FIFO, whose events stand among the core's own, and used up part of its script (R45,
R297). -/
def UpToHost (s u t : State) : Prop :=
  ∃ (es : List Event) (k : Nat),
    t = { u with tx := u.tx.drop k, trace := s.trace ++ es, env := { u.env with txTake := t.env.txTake } } ∧
    k ≤ u.tx.length ∧ u.trace = s.trace ++ coreEvents es ∧ es.filterMap Event.txByte = u.tx.take k ∧
    t.env.txTake <:+ u.env.txTake

/-- The other agents never get in the way: the host takes nothing, and the controller clears busy at every poll. -/
def State.unhindered (s : State) : State :=
  { s with env := { s.env with txTake := [], fcPolls := s.env.fcPolls.filter (· = .clears) } }

/-- An outcome, and if its tick is held, at most `n` further steps until no task is left. -/
def finish : Nat → Outcome State Fault Refusal → Outcome State Fault Refusal
  | n + 1, .next t => if t.work = [] then .next t else finish n (step t)
  | 0, o => o
  | _ + 1, .fault f => .fault f
  | _ + 1, .refused r => .refused r

/-- Started from `s`, both outcomes are the same stop, or next states that agree but for the host's turns and the
scripts. -/
def SameResult (s : State) : Outcome State Fault Refusal → Outcome State Fault Refusal → Prop
  | .next u, .next t => UpToHost s { u with env := { s.env with fcPolls := t.env.fcPolls } } t
  | .fault f, .fault g => f = g
  | .refused r, .refused q => r = q
  | _, _ => False

/-- A step that does not stop with a model fault. -/
def StepSafe (s : State) : Prop := ∀ f, step s ≠ .fault f

/-- `t` is reached from `s` by steps that each answer a next state. -/
inductive Reaches : State → State → Prop where
  | refl (s : State) : Reaches s s
  | tail {s t u : State} : Reaches s t → step t = .next u → Reaches s u

/-- A run from `s` on which no step stops with a model fault (R317). -/
def SafeFrom (s : State) : Prop := ∀ t, Reaches s t → StepSafe t

end Sys2Proof.Machine
end

