-- ==== Sys2Proof/Certificates/Slice0/Obligations.lean ====
section
/-! DEFINITION. The statements for the provers. -/

open Sys2Proof Sys2Proof.Machine Host

/-! ### CRC engine (40_crc.md) -/

/-- R130. -/
def Obligations.CrcInitSetsAccumulator : Prop :=
  ∀ (s : State), Ready s →
    exec (.crcInit .decoder) s = .next { s with dec := { s.dec with crc := 0xFFFFFFFF } } ∧
    (∀ w, exec (.crcInit (.temp w)) s = .next { s with ret := .word 0xFFFFFFFF }) ∧
    crcFinalize 0xFFFFFFFF = 0

/-- R131: the bit loop, byte by byte. -/
def Obligations.CrcUpdateFoldsEachByte : Prop :=
  (∀ (s : State) (bs : List Byte), Ready s →
    exec (.crcUpdate .decoder bs) s = .next { s with dec := { s.dec with crc := crcUpdate s.dec.crc bs } } ∧
    ∀ w, exec (.crcUpdate (.temp w) bs) s = .next { s with ret := .word (crcUpdate w bs) }) ∧
  (∀ acc, crcUpdate acc [] = acc) ∧
  (∀ acc b bs, crcUpdate acc (b :: bs) =
    crcUpdate (Nat.iterate (fun a => if a.getLsbD 0 then (a >>> 1) ^^^ 0xEDB88320 else a >>> 1) 8
      (acc ^^^ b.setWidth 32)) bs) ∧
  crcUpdate 0xFFFFFFFF [0x31, 0x32, 0x33, 0x34, 0x35, 0x36, 0x37, 0x38, 0x39] = 0x340BC6D9

/-- R132. -/
def Obligations.CrcFinalizeReturnsComplement : Prop :=
  (∀ (s : State), Ready s →
    exec (.crcFinalize .decoder) s = .next { s with ret := .word (s.dec.crc ^^^ 0xFFFFFFFF) } ∧
    ∀ w, exec (.crcFinalize (.temp w)) s = .next { s with ret := .word (w ^^^ 0xFFFFFFFF) }) ∧
  crcFinalize 0x340BC6D9 = 0xCBF43926

/-- R133. -/
def Obligations.CrcCalcReturnsOneShotCrc : Prop :=
  (∀ (s : State) (bs : List Byte), Ready s →
    exec (.crcCalc bs) s = .next { s with ret := .word (crcFinalize (crcUpdate 0xFFFFFFFF bs)) }) ∧
  crcCalc [] = 0 ∧
  crcCalc [0x31, 0x32, 0x33, 0x34, 0x35, 0x36, 0x37, 0x38, 0x39] = 0xCBF43926

/-- 40_crc.md, table-driven equivalence: for every accumulator and every string. -/
def Obligations.CrcTableFormAgreesWithBitLoop : Prop :=
  ∀ (acc : Word) (s : List Byte), crcTableUpdate acc s = crcUpdate acc s

/-- 40_crc.md, streaming equivalence, as two operations after one another. -/
def Obligations.CrcUpdateStreamsAcrossSplits : Prop :=
  ∀ (s t : State) (a b : List Byte), Ready s → exec (.crcUpdate .decoder a) s = .next t →
    exec (.crcUpdate .decoder b) t = exec (.crcUpdate .decoder (a ++ b)) s

/-- 41_codec.md, error detection: one changed byte changes the CRC. -/
def Obligations.CrcDetectsAChangedByte : Prop :=
  ∀ (pre post : List Byte) (x y : Byte), x ≠ y → crcCalc (pre ++ x :: post) ≠ crcCalc (pre ++ y :: post)

/-- 40_crc.md, the residue after a string and its CRC. -/
def Obligations.CrcResidueIsConstant : Prop :=
  ∀ (s : List Byte), crcUpdate 0xFFFFFFFF (s ++ bytesLe32 (crcCalc s)) = 0xDEBB20E3

/-! ### Decoder (41_codec.md) -/

/-- After a run of five preambles each of the four header bytes restarts framing, in whatever state (41_codec.md,
PreambleCount and HeaderStep). That these bytes match, and that the run counter saturates, are the spec's choices D1
and D2. -/
def Obligations.HeaderByteRestartsFramingInEveryState : Prop :=
  ∀ (s : State), Ready s → 5 ≤ s.dec.preRun →
    let d (b : Byte) (type : PktType) (len : AddrLen) : Decoder :=
      { s.dec with
        preRun := 0, dstate := .address, idx := 0, crc := crcUpdate 0xFFFFFFFF [b],
        pkt := { s.dec.pkt with type := type, addressLength := len } }
    exec .hdrReq s = .next { s with dec := d 0x80 .request .one } ∧
    exec .hdrResp s = .next { s with dec := d 0x81 .response .one } ∧
    exec .hdrReql s = .next { s with dec := d 0x82 .request .eight } ∧
    exec .hdrRespl s = .next { s with dec := d 0x83 .response .eight } ∧
    exec (.decoderStep 0x80) s = .next { s with dec := d 0x80 .request .one, ret := .valid false } ∧
    exec (.decoderStep 0x81) s = .next { s with dec := d 0x81 .response .one, ret := .valid false } ∧
    exec (.decoderStep 0x82) s = .next { s with dec := d 0x82 .request .eight, ret := .valid false } ∧
    exec (.decoderStep 0x83) s = .next { s with dec := d 0x83 .response .eight, ret := .valid false }

/-- 41_codec.md corner cases, 30_encoding.md on bytes that start no frame: with fewer than five preambles before it a
header byte is handled by the current state, and Idle ignores it. -/
def Obligations.HeaderByteWithoutRunRestartsNothing : Prop :=
  ∀ (s : State) (i : Instr) (b : Byte), Ready s → s.dec.preRun < 5 → i.headerByte? = some b →
    exec i s = .next { s with dec := (handleByte b { s.dec with preRun := 0 }).2 } ∧
    (s.dec.dstate = .idle → exec i s = .next { s with dec := { s.dec with preRun := 0 } })

/-- Preamble counting in every state (41_codec.md, PreambleCount; D2, D3). -/
def Obligations.PreamblesAreCountedInEveryState : Prop :=
  ∀ (s : State) (b : Byte), Ready s →
    ∃ d v, exec (.decoderStep b) s = .next { s with dec := d, ret := .valid v } ∧
      (b = 0x7F → d.syncCount = s.dec.syncCount + 1 ∧ d.preRun = min (s.dec.preRun + 1) 5) ∧
      (b ≠ 0x7F → d.syncCount = s.dec.syncCount ∧ d.preRun = 0)

/-- R154, R155, R156, R157: a byte that does not restart framing, in each of the field states; Idle ignores it. The two
preamble counters are those of R151, whose widths are the spec's choices D2 and D3 (`counted`,
PreamblesAreCountedInEveryState); the folding is R158, Idle is R160. Which bytes restart framing is the spec's choice
D1. -/
def Obligations.FieldBytesFillThePacket : Prop :=
  ∀ (s : State) (b : Byte), Ready s → ¬ Restarts b s.dec →
    let c := counted b s.dec
    let go (d : Decoder) := exec (.decoderStep b) s = .next { s with dec := d, ret := .valid false }
    (s.dec.dstate = .idle → go c) ∧
    (s.dec.dstate = .address → ∀ h : s.dec.idx.toNat < 8,
      go { c with
        crc := crcUpdate c.crc [b]
        idx := c.idx + 1
        dstate := if (c.idx + 1).toNat = c.pkt.addressLength.size then .command else .address
        pkt := { c.pkt with address := c.pkt.address.set s.dec.idx.toNat b } }) ∧
    (s.dec.dstate = .command →
      go { c with crc := crcUpdate c.crc [b], dstate := .length, pkt := { c.pkt with command := b } }) ∧
    (s.dec.dstate = .length →
      go { c with
        crc := crcUpdate c.crc [b]
        idx := 0
        dstate := if b = 0 then .crc else .data
        pkt := { c.pkt with dataLength := b } }) ∧
    (s.dec.dstate = .data → ∀ h : s.dec.idx.toNat < 255,
      go { c with
        crc := crcUpdate c.crc [b]
        idx := if c.idx + 1 = c.pkt.dataLength then 0 else c.idx + 1
        dstate := if c.idx + 1 = c.pkt.dataLength then .crc else .data
        pkt := { c.pkt with data := c.pkt.data.set s.dec.idx.toNat b } })

/-- R159: the first three CRC bytes are captured, the fourth gives the verdict. The two preamble counters are those of
R151, whose widths are the spec's choices D2 and D3 (`counted`). Which bytes restart framing is the spec's choice D1. -/
def Obligations.CrcBytesGiveTheVerdict : Prop :=
  ∀ (s : State) (b : Byte), Ready s → ¬ Restarts b s.dec → s.dec.dstate = .crc →
    let c := counted b s.dec
    let rx := setByte s.dec.rxCrc s.dec.idx.toNat b
    (s.dec.idx.toNat < 3 →
      exec (.decoderStep b) s = .next { s with dec := { c with rxCrc := rx, idx := c.idx + 1 }, ret := .valid false }) ∧
    (s.dec.idx = 3 →
      exec (.decoderStep b) s = .next
        { s with
          dec := { c with rxCrc := rx, idx := 4, dstate := .idle }
          ret := .valid (decide (rx = s.dec.crc ^^^ 0xFFFFFFFF ∧ s.dec.pkt.type = .request)) })

/-- R158: exactly the bytes handled in Header, Address, Command, Length and Data are folded. Which bytes restart framing
is the spec's choice D1. -/
def Obligations.CrcCoversHeaderToLastDataByte : Prop :=
  ∀ (b : Byte) (d : Decoder), d.dstate ≠ .header →
    (Restarts b d → (decoderStep b d).2.crc = crcUpdate 0xFFFFFFFF [b]) ∧
    (¬ Restarts b d → d.dstate = .idle ∨ d.dstate = .crc → (decoderStep b d).2.crc = d.crc) ∧
    (¬ Restarts b d → d.dstate ≠ .idle → d.dstate ≠ .crc → (decoderStep b d).2.crc = crcUpdate d.crc [b])

/-- 10_state.md `frame_valid`, 41_codec.md echo rejection: the verdict is true only on the fourth CRC byte of a Request
whose CRC matched, and that byte changes no packet field. -/
def Obligations.OnlyCheckedRequestsAreValid : Prop :=
  ∀ (b : Byte) (d : Decoder), (decoderStep b d).1 = true →
    d.dstate = .crc ∧ d.idx = 3 ∧ d.pkt.type = .request ∧ setByte d.rxCrc 3 b = crcFinalize d.crc ∧
    (decoderStep b d).2.dstate = .idle ∧ (decoderStep b d).2.pkt = d.pkt

/-- Feeding the bytes of a decodable Request frame to a decoder in ANY state ends with `frame_valid`, in Idle, and the
packet is that instruction (41_codec.md, resync property and hand-off). Which bytes restart framing is the spec's choice
D1. -/
def Obligations.DecodedFrameIsValidFromEveryDecoderState : Prop :=
  ∀ (p : Params) (frame : List Byte) (i : Instr), decode p frame = .ok i → i.request?.isSome →
    ∀ (d : Decoder) (v : Bool), ∃ d', feed frame (v, d) = (true, d') ∧ d'.dstate = .idle ∧
      d'.pkt.type = .request ∧ packetInstr p d'.pkt = some i

/-- The round trip of 30_encoding.md for every instruction with a wire encoding and every operand it admits. A request
is clean when its frame has no preamble run followed by a header byte inside (R352: no decoder accepts the others). The
header bytes, and so which frames are clean, are the spec's choice D1 (log 2). -/
def Obligations.DecodeOfEncodeGivesInstructionBack : Prop :=
  ∀ (p : Params) (i : Instr) (bytes : List Byte), p.opcodesOk = true → i.wellFormed = true →
    encode p i = some bytes →
    (∀ c dst d, i.request? = some (c, dst, d) → requestClean (p.opcode c) dst d = true) →
    decode p bytes = .ok i

/-- The block's own response, fed back (41_codec.md, round-trip property): every field decodes, the CRC matches, and the
frame is not valid. The payload holds no preamble run before a header byte (R182). The header bytes are the spec's
choice D1 (log 2). -/
def Obligations.OwnResponseIsDecodedButNeverValid : Prop :=
  ∀ (node cmd : Byte) (data : List Byte) (d : Decoder) (v : Bool), data.length ≤ 255 →
    resyncs 0 ((responseFrame node cmd data).drop 6) = false →
    ∃ d', feed (responseFrame node cmd data) (v, d) = (false, d') ∧ d'.dstate = .idle ∧
      d'.pkt.type = .response ∧ d'.pkt.addressLength = .one ∧ d'.pkt.address[0] = node ∧ d'.pkt.command = cmd ∧
      d'.pkt.dataLength.toNat = data.length ∧ d'.pkt.payload = data ∧ d'.rxCrc = crcFinalize d'.crc

/-! ### Serialiser -/

/-- R180, with the frame's length 13 + L. -/
def Obligations.SerializeAppendsOneFrame : Prop :=
  ∀ (s : State) (node cmd : Byte) (data : List Byte) (len : Byte), Ready s → len.toNat ≤ data.length →
    let covered := [0x81, node, cmd, len] ++ data.take len.toNat
    exec (.serialize node cmd data len) s = .next
      { s with
        tx := s.tx ++ ([0x7F, 0x7F, 0x7F, 0x7F, 0x7F] ++ covered ++ bytesLe32 (crcCalc covered))
        ret := .count (13 + len.toNat) }

/-- The MODEL's choice (log 14): a length beyond the data, which 41_codec.md excludes, is refused by name. -/
def Obligations.SerializeRefusesShortData : Prop :=
  ∀ (s : State) (node cmd : Byte) (data : List Byte) (len : Byte), Ready s → data.length < len.toNat →
    exec (.serialize node cmd data len) s = .refused .illFormed

/-! ### Flash sequencer (42_flash.md) -/

/-- `erase_page` (42_flash.md §2): the sequence, the page erased and nothing else; the fault; the hang. The erase size
of 64 bytes is the spec's choice D16, the fault D17 and D28. The host's turns go on meanwhile (log 7). -/
def Obligations.ErasePageErasesOnePage : Prop :=
  ∀ (s : State) (a : Word), Ready s → s.fc.mode = ModeSet.empty →
    (pageOk s.par a = true → Clears 1 s →
      ∃ t, exec (.erasePage a) s = .next t ∧
        UpToHost s
          { s with
            flash := t.flash
            fc := { s.fc with locked := false, mode := ModeSet.empty, addr := a, busy := false, pending := none }
            trace := s.trace ++ [.flash .unlock, .flash (.setMode .pageErase), .flash (.writeAddr a), .flash .start,
              .waitNotBusy, .flash (.clearMode .pageErase)]
            env := (s.polled 1).env } t ∧
        ∀ x, t.flash.read x = if a.toNat ≤ x ∧ x < a.toNat + 64 then 0xFF else s.flash.read x) ∧
    (pageOk s.par a = false → exec (.erasePage a) s = .fault .unmodelledFlashAddress) ∧
    (pageOk s.par a = true → Stuck s →
      ∃ t, exec (.erasePage a) s = .next t ∧ t.work = [.wait, .port (.clearMode .pageErase)] ∧
        UpToHost s
          { s with
            fc := t.fc
            trace := s.trace ++ [.flash .unlock, .flash (.setMode .pageErase), .flash (.writeAddr a), .flash .start]
            work := t.work } t ∧
        t.fc = { s.fc with
          locked := false, mode := ModeSet.only .pageErase, addr := a, busy := true, pending := some (.pageErase a) })

/-- `write_page` (42_flash.md §2; little-endian words): the sequence, every erased byte of the page programmed, no byte
outside it changed; the fault. A byte of the page that was not erased takes a free value (D18, log 5). The host's turns
go on meanwhile (log 7). That BufferReset is one operation without a wait is the spec's choice D32; the fault is D17 and
D28. -/
def Obligations.WritePageProgramsErasedBytes : Prop :=
  ∀ (s : State) (a : Word) (d : Vector Byte 64), Ready s → s.fc.mode = ModeSet.empty →
    (pageOk s.par a = true → Clears 17 s →
      ∃ t, exec (.writePage a d) s = .next t ∧
        UpToHost s
          { s with
            flash := t.flash
            draws := t.draws
            fc := { s.fc with
              locked := false, mode := ModeSet.empty, addr := a, stage := pageWord d 15, stageIdx := 15
              pagebuf := Vector.ofFn fun i => some (pageWord d i)
              busy := false, pending := none }
            trace := s.trace ++ ([.flash .unlock, .flash .bufferReset]
              ++ ((List.finRange 16).flatMap fun i =>
                [.flash (.setMode .pageProgram), .flash (.stageWord i (pageWord d i)), .flash .bufferLoad, .waitNotBusy,
                 .flash (.clearMode .pageProgram)])
              ++ [.flash (.setMode .pageProgram), .flash (.writeAddr a), .flash .start, .waitNotBusy,
                  .flash (.clearMode .pageProgram)])
            env := (s.polled 17).env } t ∧
        (∀ (k : Nat) (h : k < 64), s.flash.read (a.toNat + k) = 0xFF → t.flash.read (a.toNat + k) = d[k]) ∧
        ∀ x, ¬(a.toNat ≤ x ∧ x < a.toNat + 64) → t.flash.read x = s.flash.read x) ∧
    (pageOk s.par a = false → Clears 16 s → exec (.writePage a d) s = .fault .unmodelledFlashAddress)

/-- `write_option_byte` (42_flash.md §2): one option byte changed, every other kept, whatever they were; the sequence;
flash locked again. The host's turns go on meanwhile (log 7). That OBUnlock opens the flash and the option bytes at once
is the spec's choice D33 (so a locked controller is no obstacle), that Lock closes both again is D27 (R201), and that no
complement byte is written is D19. -/
def Obligations.WriteOptionByteChangesOneByte : Prop :=
  ∀ (s : State) (k : Fin 24) (v : Byte), Ready s → s.fc.mode = ModeSet.empty → Clears 7 s →
    let staged := s.ob.set k.val v
    ∃ t, exec (.writeOptionByte k v) s = .next t ∧ UpToHost s
      { s with
        ob := staged
        draws := t.draws
        fc := { s.fc with
          locked := true, obUnlocked := false, mode := ModeSet.empty, busy := false, pending := none }
        trace := s.trace ++ ([.flash .obUnlock, .flash (.setMode .optErase), .flash .start, .waitNotBusy,
            .flash (.clearMode .optErase)]
          ++ ((List.finRange 6).flatMap fun i =>
            [.flash (.setMode .optProgram), .flash (.obWriteWord i (optionWord staged i)), .waitNotBusy,
             .flash (.clearMode .optProgram)])
          ++ [.flash .lock])
        env := (s.polled 7).env } t

/-- Erase then write of the same block reproduces exactly the supplied bytes, whatever the page held (95_test_vectors.md
S10; 20_memory.md, byte order of flash words), and no other byte changes. The erase size of 64 bytes, on which it rests
that every other byte is kept, is the spec's choice D16 (log 19); BufferReset as one operation is D32. -/
def Obligations.EraseThenWriteReadsBack : Prop :=
  ∀ (s : State) (a : Word) (d : Vector Byte 64), Ready s → s.fc.mode = ModeSet.empty → pageOk s.par a = true →
    Clears 18 s →
    ∃ t u, exec (.erasePage a) s = .next t ∧ exec (.writePage a d) t = .next u ∧
      (∀ (k : Nat) (h : k < 64), u.flash.read (a.toNat + k) = d[k]) ∧
      ∀ x, ¬(a.toNat ≤ x ∧ x < a.toNat + 64) → u.flash.read x = s.flash.read x

/-- A controller that never clears busy holds the core for ever: every step answers a next state in which only the host
has moved (42_flash.md, hang; 60_exceptions.md, hardware stall; logs 7 and 8). The FIFO is the spec's choice D29. -/
def Obligations.StuckControllerHoldsTheCore : Prop :=
  ∀ (n : Nat) (s : State) (ts : List Task), s.handedOff = false → s.work = .wait :: ts → s.fc.busy = true → Stuck s →
    ∃ t, Sys2Proof.core.run n s = .next t ∧ UpToHost s s t

/-- Neither the host's turns nor a controller that needs longer change what an operation leaves (10_state.md, the TX
port; 42_flash.md, completion and WaitNotBusy; logs 7 and 8): whatever the host takes, and however often each wait is
still busy, the operation, gone on with by as many steps as that takes, ends as it does at once, with nothing left to
do. The controller is fair: it clears in the end. The FIFO is the spec's choice D29, the controller's port D27 and D32.
-/
def Obligations.DelaysAndHostTurnsChangeNoResult : Prop :=
  ∀ (i : Instr) (s : State), i ≠ .loopIteration → (∀ q ∈ s.env.fcPolls, q ≠ Poll.never) →
    SameResult s (exec i s.unhindered) (finish (s.env.fcPolls.count .busy) (exec i s)) ∧
    ∀ u, exec i s.unhindered = .next u → u.work = []

/-- `MemRead` (20_memory.md §1; D25): flash as stored, option bytes as stored, the fault for a byte that is not READABLE
and for a span that wraps. -/
def Obligations.MemReadReadsFlashAndOptionBytes : Prop :=
  ∀ (s : State), s.par.wf = true →
    (∀ (a : Word) (n : Nat), inFlash s.par a.toNat n = true →
      memRead s a n = .ok ((List.range n).map fun k => s.flash.read (a.toNat + k))) ∧
    memRead s s.par.obBase 24 = .ok s.ob.toList ∧
    (∀ (a : Word) (n k : Nat), k < n →
      ¬(s.par.obBase.toNat ≤ a.toNat + k ∧ a.toNat + k < s.par.obBase.toNat + 24) →
      inFlash s.par (a.toNat + k) 1 = false → platformReadable s.par (a.toNat + k) = false →
      memRead s a n = .error .unmodelledRead) ∧
    (∀ (a : Word) (n : Nat), 2 ^ 32 < a.toNat + n → memRead s a n = .error .unmodelledRead)

/-! ### Commands (43_dispatcher.md) -/

/-- R231: who accepts, and that every command to another address changes nothing. The order of the unique id's bytes
and the node id read at its use are the spec's choices D4 and D20. -/
def Obligations.AddressMissIsDropped : Prop :=
  (∀ (s : State) (a : Byte), addrAccept s (.short a) = true ↔ a = s.ob[s.par.nodeIdPos] ∨ a = 0xFF) ∧
  (∀ (s : State) (u : Vector Byte 8), addrAccept s (.long u) = true ↔ u = s.par.uid) ∧
  ∀ (s : State) (i : Instr) (c : Cmd) (dst : Addr) (d : List Byte), Ready s → i.request? = some (c, dst, d) →
    addrAccept s dst = false → exec i s = .next s

/-- INFO and GET_NODE_ID (R240, R256), with the silence gate (R233). The echoed command byte, the ignored payload and
the identity read at its use are the spec's choices D6, D8 and D20. -/
def Obligations.InfoAndNodeIdAreAnswered : Prop :=
  ∀ (s : State) (dst : Addr) (d : List Byte), Ready s → addrAccept s dst = true →
    let node := s.ob[s.par.nodeIdPos]
    let fw := s.ob[s.par.fwIdPos]
    (s.silent = false →
      exec (.info dst d) s =
        .next { s with tx := s.tx ++ responseFrame node s.par.opInfo [s.par.blMajor, s.par.blMinor] } ∧
      exec (.getNodeId dst d) s = .next { s with tx := s.tx ++ responseFrame node s.par.opGetNodeId [node, fw] }) ∧
    (s.silent = true → exec (.info dst d) s = .next s ∧ exec (.getNodeId dst d) s = .next s)

/-- GET_CHIP (43_dispatcher.md §2; the spec's choices D6, D8, D13, D20). -/
def Obligations.ChipNameIsAnswered : Prop :=
  ∀ (s : State) (dst : Addr) (d : List Byte), Ready s → addrAccept s dst = true →
    (s.silent = false →
      exec (.getChip dst d) s =
        .next { s with tx := s.tx ++ responseFrame s.ob[s.par.nodeIdPos] s.par.opGetChip s.par.chipName }) ∧
    (s.silent = true → exec (.getChip dst d) s = .next s)

/-- GET_ID and its backoff (43_dispatcher.md §2; the spec's choices D4, D6, D8, D10, D11, D20): the delay is the low 16
bits of the hash modulo the window, and below the window; the seed's last three bytes are what the packet buffer holds.
-/
def Obligations.GetIdAnswersAfterBackoff : Prop :=
  ∀ (s : State) (dst : Addr), Ready s → addrAccept s dst = true →
    let answer := if s.silent then [] else responseFrame s.ob[s.par.nodeIdPos] s.par.opGetId s.par.uid.toList
    (∀ d : List Byte, d.length ≠ 1 → exec (.getId dst d) s = .next { s with tx := s.tx ++ answer }) ∧
    ∀ seed : Byte,
      let hash := crcCalc (s.par.uid.toList ++ [seed, s.dec.pkt.data[1], s.dec.pkt.data[2], s.dec.pkt.data[3]])
      let v := hash.toNat % 65536 % (seed.toNat + 32)
      v < seed.toNat + 32 ∧
      exec (.getId dst [seed]) s = .next { s with tx := s.tx ++ answer, trace := s.trace ++ [.delay v] }

/-- SILENT (R247, R233): its own acknowledgement is suppressed. That it acts with any payload is the spec's choice
D8. -/
def Obligations.SilentSuppressesItsOwnAnswer : Prop :=
  ∀ (s : State) (dst : Addr) (d : List Byte), Ready s → addrAccept s dst = true →
    exec (.silent dst d) s = .next { s with silent := true }

/-- UNSILENT (43_dispatcher.md §2): the spec's choice D7 is that its acknowledgement is sent. The command byte is
D6, the ignored payload D8, the node id read at its use D20. -/
def Obligations.UnsilentIsAnswered : Prop :=
  ∀ (s : State) (dst : Addr) (d : List Byte), Ready s → addrAccept s dst = true →
    exec (.unsilent dst d) s = .next
      { s with silent := false, tx := s.tx ++ responseFrame s.ob[s.par.nodeIdPos] s.par.opUnsilent [] }

/-- GO (43_dispatcher.md §2; the spec's choices D6, D7, D8, D20, D22). -/
def Obligations.GoArmsTheCountdown : Prop :=
  ∀ (s : State) (dst : Addr) (d : List Byte), Ready s → addrAccept s dst = true →
    exec (.go dst d) s = .next
      { s with
        bootMode := .go
        countdown := s.par.goTicks
        tx := s.tx ++ (if s.silent then [] else responseFrame s.ob[s.par.nodeIdPos] s.par.opGo []) }

/-- ERASE (43_dispatcher.md §2; the spec's choices D5, D6, D7, D15, D16, D20; the host's turns, log 7): block `lo + 256
hi` of the flash array. -/
def Obligations.EraseCommandErasesItsBlock : Prop :=
  ∀ (s : State) (dst : Addr) (lo hi : Byte), Ready s → addrAccept s dst = true → s.fc.mode = ModeSet.empty →
    Clears 1 s →
    let a : Word := s.par.flashBase + BitVec.ofNat 32 ((lo.toNat + 256 * hi.toNat) * 64)
    pageOk s.par a = true →
    ∃ t, exec (.erase dst [s.ob[s.par.fwIdPos], lo, hi]) s = .next t ∧
      UpToHost s
        { s with
          flash := t.flash
          fc := { s.fc with locked := false, mode := ModeSet.empty, addr := a, busy := false, pending := none }
          trace := s.trace ++ erasePageEvents a
          env := (s.polled 1).env
          tx := s.tx ++ (if s.silent then [] else responseFrame s.ob[s.par.nodeIdPos] s.par.opErase []) } t ∧
      ∀ x, t.flash.read x = if a.toNat ≤ x ∧ x < a.toNat + 64 then 0xFF else s.flash.read x

/-- WRITE (43_dispatcher.md §2; the spec's choices D5, D6, D7, D16, D20, D32; the host's turns, log 7): the host's
pre-offset block of 30_encoding.md is undone, the page erased and programmed; every other byte is kept. That every other
byte is kept rests on the erase size of 64 bytes, D16 (log 19). -/
def Obligations.WriteCommandProgramsItsPage : Prop :=
  ∀ (s : State) (dst : Addr) (corr : Byte) (a : Word) (page : Vector Byte 64), Ready s → addrAccept s dst = true →
    s.fc.mode = ModeSet.empty → Clears 18 s → pageOk s.par a = true →
    ∃ t, exec (.write dst (s.ob[s.par.fwIdPos] :: corr :: (bytesLe32 a ++ page.toList).map (· - corr))) s = .next t ∧
      UpToHost s
        { s with
          flash := t.flash
          draws := t.draws
          fc := { s.fc with
            locked := false, mode := ModeSet.empty, addr := a, stage := pageWord page 15, stageIdx := 15
            pagebuf := Vector.ofFn fun i => some (pageWord page i)
            busy := false, pending := none }
          trace := s.trace ++ (erasePageEvents a ++ writePageEvents a page)
          env := (s.polled 18).env
          tx := s.tx ++ (if s.silent then [] else responseFrame s.ob[s.par.nodeIdPos] s.par.opWrite []) } t ∧
      (∀ (k : Nat) (h : k < 64), t.flash.read (a.toNat + k) = page[k]) ∧
      ∀ x, ¬(a.toNat ≤ x ∧ x < a.toNat + 64) → t.flash.read x = s.flash.read x

/-- The length rule, the firmware-id gate and the subindex (43_dispatcher.md §1, §2; the spec's choices D8, D9, D20): a
request that fails one changes nothing, whoever it is addressed to. -/
def Obligations.InvalidPayloadIsDropped : Prop :=
  ∀ (s : State) (dst : Addr) (d : List Byte), Ready s →
    (d.length ≠ 3 ∨ d[0]? ≠ some s.ob[s.par.fwIdPos] → exec (.erase dst d) s = .next s) ∧
    (d.length ≠ 70 ∨ d[0]? ≠ some s.ob[s.par.fwIdPos] → exec (.write dst d) s = .next s) ∧
    (d.length ≠ 8 → exec (.getCrc32 dst d) s = .next s) ∧
    (d.length ≠ 2 ∨ (d[0]? ≠ some 0 ∧ d[0]? ≠ some 1) → exec (.setNodeId dst d) s = .next s)

/-- ERASE and WRITE at an address the controller's rules do not admit end in the spec's model fault (43_dispatcher.md
§2, 42_flash.md §1; D17, D28). The little-endian block index and address are D5, the address modulo 2^32 is D15, the
firmware id read at its use is D20: choices of the spec. -/
def Obligations.FlashCommandFaultsOnBadAddress : Prop :=
  ∀ (s : State) (dst : Addr), Ready s → addrAccept s dst = true → s.fc.mode = ModeSet.empty →
    (∀ lo hi : Byte,
      pageOk s.par (s.par.flashBase + BitVec.ofNat 32 ((lo.toNat + 256 * hi.toNat) * 64)) = false →
      exec (.erase dst [s.ob[s.par.fwIdPos], lo, hi]) s = .fault .unmodelledFlashAddress) ∧
    ∀ (corr : Byte) (a : Word) (page : Vector Byte 64), pageOk s.par a = false →
      exec (.write dst (s.ob[s.par.fwIdPos] :: corr :: (bytesLe32 a ++ page.toList).map (· - corr))) s =
        .fault .unmodelledFlashAddress

/-- GET_CRC32 (43_dispatcher.md §2; the spec's choices D5, D6, D20, D25): the CRC of the bytes MemRead gives, or its
fault. -/
def Obligations.GetCrc32AnswersWithSpanCrc : Prop :=
  ∀ (s : State) (dst : Addr) (a n : Word), Ready s → addrAccept s dst = true →
    (∀ bs, memRead s a n.toNat = .ok bs →
      ∃ k, exec (.getCrc32 dst (bytesLe32 a ++ bytesLe32 n)) s = .next
        { s with
          draws := k
          tx := s.tx ++ (if s.silent then []
            else responseFrame s.ob[s.par.nodeIdPos] s.par.opGetCrc32 (bytesLe32 (crcCalc bs))) }) ∧
    ∀ f, memRead s a n.toNat = .error f → exec (.getCrc32 dst (bytesLe32 a ++ bytesLe32 n)) s = .fault f

/-- SET_NODE_ID (43_dispatcher.md §2; the spec's choices D6, D7, D9, D19, D20; the host's turns, log 7): one option byte
changes, and the answer to a new node id comes from the new id. That Lock closes the option bytes again is D27 (R201),
that OBUnlock opens both locks is D33. -/
def Obligations.SetNodeIdRewritesOneOptionByte : Prop :=
  ∀ (s : State) (dst : Addr) (v : Byte), Ready s → addrAccept s dst = true → s.fc.mode = ModeSet.empty →
    Clears 7 s → s.par.nodeIdPos ≠ s.par.fwIdPos →
    (∃ t, exec (.setNodeId dst [0, v]) s = .next t ∧
      UpToHost s
        { s with
          ob := s.ob.set s.par.nodeIdPos.val v
          draws := t.draws
          trace := s.trace ++ optionEvents (s.ob.set s.par.nodeIdPos.val v)
          fc := { s.fc with
            locked := true, obUnlocked := false, mode := ModeSet.empty, busy := false, pending := none }
          env := (s.polled 7).env
          tx := s.tx ++ (if s.silent then [] else responseFrame v s.par.opSetNodeId []) } t) ∧
    ∃ t, exec (.setNodeId dst [1, v]) s = .next t ∧
      UpToHost s
        { s with
          ob := s.ob.set s.par.fwIdPos.val v
          draws := t.draws
          trace := s.trace ++ optionEvents (s.ob.set s.par.fwIdPos.val v)
          fc := { s.fc with
            locked := true, obUnlocked := false, mode := ModeSet.empty, busy := false, pending := none }
          env := (s.polled 7).env
          tx := s.tx ++ (if s.silent then [] else responseFrame s.ob[s.par.nodeIdPos] s.par.opSetNodeId []) } t

/-! ### Control loop and step (44_control_loop.md) -/

/-- A step runs the decoded request: when the byte that RX offers completes a valid frame, the step is the meaning of
the packet's instruction, with part (a) before it and part (c) after it. Where the host has its turns, and that the rest
of a held tick waits in `work`, is the model's choice (logs 7 and 8; 10_state.md leaves the host free). The parts of an
iteration are the spec's choice D22. -/
def Obligations.StepRunsTheDecodedRequest : Prop :=
  ∀ (s : State) (b : Byte) (rest : List (Option Byte)) (i : Instr), Ready s → s.env.rxIn = some b :: rest →
    (decoderStep b s.dec).1 = true → packetInstr s.par (decoderStep b s.dec).2.pkt = some i →
    step s = afterDispatch (exec i (receive b (beforeByte s)))

/-- The same from the bytes on the wire: the decoder, in whatever state before, has received all but the last byte of a
frame that decodes to a request, and RX offers that byte. Where the host has its turns, and that the rest of a held tick
waits in `work`, is the model's choice (logs 7 and 8). The parts of an iteration are the spec's choice D22, the header
bytes D1. -/
def Obligations.StepRunsTheFrameItCompletes : Prop :=
  ∀ (s : State) (d : Decoder) (frame : List Byte) (last : Byte) (rest : List (Option Byte)) (i : Instr), Ready s →
    decode s.par (frame ++ [last]) = .ok i → i.request?.isSome → s.dec = (feed frame (false, d)).2 →
    s.env.rxIn = some last :: rest →
    step s = afterDispatch (exec i (receive last (beforeByte s)))

/-- A step receives the offered byte: one that completes no valid frame, or a valid frame whose COMMAND is none of the
eleven opcodes (30_encoding.md §4, 43_dispatcher.md §1: dropped), changes the decoder and part (c) follows; a header
byte after its run is the header instruction. Where the host has its turns is the model's choice (log 7). The parts of
an iteration are the spec's choice D22, the header bytes and the run D1 and D2. -/
def Obligations.StepReceivesTheOfferedByte : Prop :=
  ∀ (s : State) (b : Byte) (rest : List (Option Byte)), Ready s → s.env.rxIn = some b :: rest →
    ((decoderStep b s.dec).1 = false ∨ packetInstr s.par (decoderStep b s.dec).2.pkt = none →
      step s = .next (countdownStep (hostTurn (receive b (beforeByte s))))) ∧
    ∀ i : Instr, i.headerByte? = some b → 5 ≤ s.dec.preRun → step s = afterDispatch (exec i (beforeByte s))

/-- LOOP_ITERATION where it dispatches nothing, or drops an unknown opcode (44_control_loop.md; the spec's choices D22,
D29): the activity poll, the byte if one is offered, the countdown, and the handoff at 0 if the host has emptied the
FIFO by then. Where the host has its turn is the model's choice (log 7). -/
def Obligations.LoopIterationWithoutDispatch : Prop :=
  ∀ (s : State), Ready s →
    let mode := if s.dec.syncCount ≠ s.lastSync ∧ s.bootMode = .bootWait then BootMode.stay else s.bootMode
    let left := if mode = .stay then s.countdown else s.countdown - 1
    let h := hostTurn s
    let expires := decide (mode ≠ .stay ∧ left = 0 ∧ h.tx = [])
    let done (d : Decoder) : State :=
      { h with
        dec := d
        lastSync := s.dec.syncCount
        bootMode := mode
        countdown := left
        handedOff := expires
        trace := h.trace ++ (if expires then [.handoff] else [])
        env := { h.env with rxIn := s.env.rxIn.tail } }
    ((s.env.rxIn = [] ∨ s.env.rxIn.head? = some none) → exec .loopIteration s = .next (done s.dec)) ∧
    ∀ b, s.env.rxIn.head? = some (some b) →
      (decoderStep b s.dec).1 = false ∨ packetInstr s.par (decoderStep b s.dec).2.pkt = none →
      exec .loopIteration s = .next (done (decoderStep b s.dec).2)

/-- Only GO leaves a mode again: no step goes back to BootWait, and none leaves Go (44_control_loop.md, activity poll;
the spec's choice D22: activity cancels the boot timeout once and never a GO). -/
def Obligations.BootModeNeverGoesBack : Prop :=
  ∀ (s t : State), step s = .next t →
    (s.bootMode = .go → t.bootMode = .go) ∧ (s.bootMode = .stay → t.bootMode ≠ .bootWait)

/-- With no byte offered and nothing to send, a waiting node hands off after as many steps as its countdown says, and
changes nothing else (95_test_vectors.md P5; the spec's choices D22, D29). The host's two turns a step are log 7's. -/
def Obligations.BootTimeoutHandsOff : Prop :=
  ∀ (n : Nat) (s : State), Ready s → s.bootMode = .bootWait → s.dec.syncCount = s.lastSync → s.tx = [] →
    s.env.rxIn = [] → s.countdown = n + 1 →
    (Sys2Proof.core.run (n + 1) s : Outcome State Fault Refusal) = .next
      { s with
        countdown := 0
        handedOff := true
        trace := s.trace ++ [.handoff]
        env := { s.env with txTake := s.env.txTake.drop (2 * (n + 1)) } }

/-- After GO, with the answer drained and no byte offered, the handoff comes after as many steps as the countdown says,
preamble activity or not (44_control_loop.md, countdown; the spec's choices D22, D29). The host's two turns a step are
log 7's. -/
def Obligations.GoHandsOffWhenDrained : Prop :=
  ∀ (n : Nat) (s : State), Ready s → s.bootMode = .go → s.tx = [] → s.env.rxIn = [] → s.countdown = n + 1 →
    (Sys2Proof.core.run (n + 1) s : Outcome State Fault Refusal) = .next
      { s with
        lastSync := s.dec.syncCount
        countdown := 0
        handedOff := true
        trace := s.trace ++ [.handoff]
        env := { s.env with txTake := s.env.txTake.drop (2 * (n + 1)) } }

/-- After `Handoff()` no step and no operation (44_control_loop.md, Handoff; log 10). -/
def Obligations.NothingRunsAfterHandoff : Prop :=
  ∀ (s : State), s.handedOff = true →
    step s = .refused .handedOff ∧ ∀ i, exec i s = .refused .handedOff

/-- No operation while another is mid-sequence: `exec` refuses, and a step goes on with the held tick (10_state.md,
single owner; logs 8 and 9). -/
def Obligations.NothingStartsMidSequence : Prop :=
  ∀ (s : State), s.handedOff = false → s.work ≠ [] →
    (∀ i, exec i s = .refused .midSequence) ∧ step s = run s.work (hostTurn s)

/-! ### Invariants and whole-machine rules -/

/-- The invariant holds at reset, and at every launch with a flash in canonical form. The reset values it rests on are
the spec's choices D22, D23 and D27. -/
def Obligations.ResetSatisfiesInvariant : Prop :=
  MachineInv State.reset ∧ ∀ p flash ob, flashOk p flash = true → MachineInv (State.launch p flash ob)

/-- Every step keeps the invariant: canonical flash inside the array, the decoder's index and run within their fields,
busy with its pending effect, and no control bit left armed when a sequence ends. Its clauses rest on the spec's choices
D2 (the run), D16, D17 and D28 (admitted pages), D22 and D29 (the handoff), and D27 (the controller). -/
def Obligations.StepKeepsInvariant : Prop :=
  ∀ (s t : State), MachineInv s → step s = .next t → MachineInv t

/-- Every instruction keeps the invariant. Its clauses rest on the spec's choices D2 (the run), D16, D17 and D28
(admitted pages), D22 and D29 (the handoff), and D27 (the controller). -/
def Obligations.ExecKeepsInvariant : Prop :=
  ∀ (i : Instr) (s t : State), MachineInv s → exec i s = .next t → MachineInv t

/-- The sequencer never issues a controller operation outside its requirement (60_exceptions.md, model faults): no step
and no instruction from a state of the invariant faults so. The requirements are the spec's choice D27. -/
def Obligations.ControllerIsNeverMisused : Prop :=
  ∀ (s : State), MachineInv s →
    step s ≠ .fault .unmodelledController ∧ ∀ i, exec i s ≠ .fault .unmodelledController

/-- A step writes no parameter (the unique id among them, 10_state.md), and only appends to the trace. -/
def Obligations.ParametersStayAndTraceGrows : Prop :=
  ∀ (s t : State), step s = .next t → t.par = s.par ∧ s.trace <+: t.trace

/-- The TX port (10_state.md §10; the spec's choice D29; the script and its turns are the model's, log 7). What the host
takes at its turn is the head of the FIFO, byte by byte into the trace, and a step starts with such a turn. No byte once
composed is lost or reordered: the bytes taken and the bytes waiting, together, only grow at the end. -/
def Obligations.ComposedBytesKeepTheirOrder : Prop :=
  (∀ (s t : State), step s = .next t → s.wire <+: t.wire) ∧
  (∀ (s : State) (n : Nat) (ns : List Nat), s.handedOff = false → s.env.txTake = n :: ns →
    let taken : State :=
      { s with
        tx := s.tx.drop n
        trace := s.trace ++ (s.tx.take n).map .tx
        env := { s.env with txTake := ns } }
    hostTurn s = taken ∧ step s = step { taken with env := { s.env with txTake := 0 :: ns } }) ∧
  ∀ (s : State), s.env.txTake = [] → hostTurn s = s

/-- `st.silent` is changed by SILENT and UNSILENT only (10_state.md; a loop iteration may dispatch them). -/
def Obligations.OnlySilenceCommandsChangeSilence : Prop :=
  ∀ (i : Instr) (s t : State), exec i s = .next t → t.silent ≠ s.silent →
    i = .loopIteration ∨ (∃ dst d, i = .silent dst d ∧ t.silent = true) ∨
      (∃ dst d, i = .unsilent dst d ∧ t.silent = false)

/-- The flash is changed by the page operations and the two commands that call them only, the option bytes by the option
rewrite and SET_NODE_ID only (10_state.md; a loop iteration may dispatch them). -/
def Obligations.OnlyFlashOperationsChangePersistentState : Prop :=
  ∀ (i : Instr) (s t : State), MachineInv s → exec i s = .next t → i ≠ .loopIteration →
    (t.flash ≠ s.flash →
      (∃ a, i = .erasePage a) ∨ (∃ a d, i = .writePage a d) ∨ (∃ dst d, i = .erase dst d) ∨ ∃ dst d, i = .write dst d) ∧
    (t.ob ≠ s.ob → (∃ k v, i = .writeOptionByte k v) ∨ ∃ dst d, i = .setNodeId dst d)

/-- What reset leaves where 10_state.md states a value, whatever the chip's parameters. -/
def Obligations.ResetLeavesTheStatedValues : Prop :=
  let s := State.reset
  s.dec.dstate = .idle ∧ s.dec.preRun = 0 ∧ s.dec.syncCount = 0 ∧ s.silent = false ∧ s.tx = [] ∧
  s.bootMode = .bootWait ∧ s.countdown = s.par.bootTicks ∧ s.lastSync = 0 ∧ s.trace = [] ∧
  s.fc.locked = true ∧ s.fc.obUnlocked = false ∧ s.fc.mode = ModeSet.empty ∧ s.fc.busy = false

/-- A later reset keeps flash, option bytes and unique id, and gives the volatile state its launch values (10_state.md,
70_reset_and_hazards.md); in the middle of a flash sequence it changes no byte but those the sequence can still change
(the spec's choice D36). Whatever the other agents do afterwards, a controller that hung before among them. The model's
choices: decoder and controller fields that the spec leaves at any value are as at the first reset (log 3), and which
bytes a sequence can still change (log 21). The values after a reset are the spec's choices D3, D21, D22, D23 and D27
(log 19). -/
def Obligations.RelaunchKeepsPersistentState : Prop :=
  ∀ (s : State) (env : Env),
    let t := s.relaunch env
    (t.par = s.par ∧ t.env = env ∧ t.dec = State.reset.dec ∧ t.fc = State.reset.fc ∧ t.silent = false ∧ t.tx = [] ∧
      t.trace = [] ∧ t.bootMode = .bootWait ∧ t.countdown = s.par.bootTicks ∧ t.lastSync = 0 ∧ t.work = [] ∧
      t.handedOff = false) ∧
    (s.work = [] → s.fc.pending = none → t.flash = s.flash ∧ t.ob = s.ob) ∧
    (∀ x, (∀ a ∈ s.openPages, ¬(a.toNat ≤ x ∧ x < a.toNat + 64)) → t.flash.read x = s.flash.read x) ∧
    (s.openOptions = false → t.ob = s.ob) ∧
    (MachineInv s → MachineInv t)

/-- A few words: the four header bytes, two Request frames written out (95_test_vectors.md V3.1 and the 8-byte form of
V3.2) under opcodes 1 and 3, and a Response frame, which is no instruction. That 0x84 is refused rests on the header
mask 0xFC, the spec's choice D1 (log 2). -/
def Obligations.WrittenFramesDecode : Prop :=
  (∀ p : Params, decode p [0x7F, 0x7F, 0x7F, 0x7F, 0x7F, 0x80] = .ok .hdrReq ∧
    decode p [0x7F, 0x7F, 0x7F, 0x7F, 0x7F, 0x81] = .ok .hdrResp ∧
    decode p [0x7F, 0x7F, 0x7F, 0x7F, 0x7F, 0x82] = .ok .hdrReql ∧
    decode p [0x7F, 0x7F, 0x7F, 0x7F, 0x7F, 0x83] = .ok .hdrRespl ∧
    decode p [0x7F, 0x7F, 0x7F, 0x7F, 0x80] = .error .noPreamble ∧
    decode p [0x7F, 0x7F, 0x7F, 0x7F, 0x7F, 0x84] = .error .badHeader ∧
    decode p [0x7F, 0x7F, 0x7F, 0x7F, 0x7F, 0x81, 0x12, 0x01, 0x02, 0x01, 0x02, 0x5A, 0x41, 0x23, 0x32] =
      .error .responseFrame) ∧
  (∀ p : Params, p.opInfo = 1 →
    decode p [0x7F, 0x7F, 0x7F, 0x7F, 0x7F, 0x80, 0x12, 0x01, 0x00, 0x78, 0x2F, 0xA4, 0xCA] =
      .ok (.info (.short 0x12) [])) ∧
  (∀ p : Params, p.cmdOf 3 = some .getId →
    decode p [0x7F, 0x7F, 0x7F, 0x7F, 0x7F, 0x82, 0x01, 0x23, 0x45, 0x67, 0x89, 0xAB, 0xCD, 0xEF, 0x03, 0x00, 0x1A,
        0x4F, 0x24, 0x0C] =
      .ok (.getId (.long #v[0x01, 0x23, 0x45, 0x67, 0x89, 0xAB, 0xCD, 0xEF]) []))
end

