-- ==== Sys2Proof/Laws/Crc.lean ====
section
/-! SUPPORT. The CRC functions: streaming, and the bit loop as a linear map (40_crc.md R131, R134). -/

namespace Sys2Proof.Machine

@[simp] theorem crcUpdate_nil (acc : Word) : crcUpdate acc [] = acc := rfl

@[simp] theorem crcUpdate_cons (acc : Word) (b : Byte) (s : List Byte) :
    crcUpdate acc (b :: s) = crcUpdate (crcByte acc b) s := rfl

theorem crcUpdate_append (acc : Word) (s t : List Byte) : crcUpdate acc (s ++ t) = crcUpdate (crcUpdate acc s) t := by
  simp [crcUpdate]

/-- Turns of the bit loop add up. -/
theorem crcBits_add (m n : Nat) : ∀ x : Word, crcBits (m + n) x = crcBits n (crcBits m x) := by
  induction m with
  | zero => intro x; simp [crcBits]
  | succ m ih => intro x; rw [Nat.add_right_comm]; exact ih _

theorem crcBit_xor (x y : Word) : crcBit (x ^^^ y) = crcBit x ^^^ crcBit y := by
  unfold crcBit
  simp only [BitVec.getLsbD_xor]
  cases x.getLsbD 0 <;> cases y.getLsbD 0 <;>
  · apply BitVec.eq_of_getLsbD_eq
    intro i hi
    simp
    try cases x.getLsbD (1 + i) <;> cases y.getLsbD (1 + i) <;> cases Config.crcPoly.getLsbD i <;> rfl

/-- The bit loop is linear. -/
theorem crcBits_xor (n : Nat) : ∀ x y : Word, crcBits n (x ^^^ y) = crcBits n x ^^^ crcBits n y := by
  induction n with
  | zero => intro x y; rfl
  | succ n ih => intro x y; simp only [crcBits, crcBit_xor, ih]

/-- Turns that see clear bits only shift. -/
theorem crcBits_shift (n : Nat) : ∀ x : Word, (∀ i < n, x.getLsbD i = false) → crcBits n x = x >>> n := by
  induction n with
  | zero => intro x _; simp [crcBits]
  | succ n ih =>
    intro x h
    rw [crcBits, crcBit, h 0 (by omega)]
    simp only [Bool.false_eq_true, if_false]
    rw [ih _ fun i hi => by rw [BitVec.getLsbD_ushiftRight]; exact h _ (by omega), Nat.add_comm,
      BitVec.shiftRight_add]

end Sys2Proof.Machine
end

