-- ==== Sys2Proof/Laws/State.lean ====
section
/-! SUPPORT. One lemma per field per named update of the state, each true by unfolding the update. -/

namespace Sys2Proof.Machine

section log
variable (s : State) (e : Event)

@[simp] theorem State.log_dec : (s.log e).dec = s.dec := rfl
@[simp] theorem State.log_silent : (s.log e).silent = s.silent := rfl
@[simp] theorem State.log_ob : (s.log e).ob = s.ob := rfl
@[simp] theorem State.log_tx : (s.log e).tx = s.tx := rfl
@[simp] theorem State.log_flash : (s.log e).flash = s.flash := rfl
@[simp] theorem State.log_fc : (s.log e).fc = s.fc := rfl
@[simp] theorem State.log_bootMode : (s.log e).bootMode = s.bootMode := rfl
@[simp] theorem State.log_countdown : (s.log e).countdown = s.countdown := rfl
@[simp] theorem State.log_lastSync : (s.log e).lastSync = s.lastSync := rfl
@[simp] theorem State.log_trace : (s.log e).trace = s.trace ++ [e] := rfl
@[simp] theorem State.log_handedOff : (s.log e).handedOff = s.handedOff := rfl
@[simp] theorem State.log_work : (s.log e).work = s.work := rfl
@[simp] theorem State.log_ret : (s.log e).ret = s.ret := rfl
@[simp] theorem State.log_par : (s.log e).par = s.par := rfl
@[simp] theorem State.log_env : (s.log e).env = s.env := rfl
@[simp] theorem State.log_draws : (s.log e).draws = s.draws := rfl

end log

section emit
variable (s : State) (bs : List Byte)

@[simp] theorem State.emit_dec : (s.emit bs).dec = s.dec := rfl
@[simp] theorem State.emit_silent : (s.emit bs).silent = s.silent := rfl
@[simp] theorem State.emit_ob : (s.emit bs).ob = s.ob := rfl
@[simp] theorem State.emit_tx : (s.emit bs).tx = s.tx ++ bs := rfl
@[simp] theorem State.emit_flash : (s.emit bs).flash = s.flash := rfl
@[simp] theorem State.emit_fc : (s.emit bs).fc = s.fc := rfl
@[simp] theorem State.emit_bootMode : (s.emit bs).bootMode = s.bootMode := rfl
@[simp] theorem State.emit_countdown : (s.emit bs).countdown = s.countdown := rfl
@[simp] theorem State.emit_lastSync : (s.emit bs).lastSync = s.lastSync := rfl
@[simp] theorem State.emit_trace : (s.emit bs).trace = s.trace := rfl
@[simp] theorem State.emit_handedOff : (s.emit bs).handedOff = s.handedOff := rfl
@[simp] theorem State.emit_work : (s.emit bs).work = s.work := rfl
@[simp] theorem State.emit_ret : (s.emit bs).ret = s.ret := rfl
@[simp] theorem State.emit_par : (s.emit bs).par = s.par := rfl
@[simp] theorem State.emit_env : (s.emit bs).env = s.env := rfl
@[simp] theorem State.emit_draws : (s.emit bs).draws = s.draws := rfl

end emit

section delay
variable (n : Nat) (s : State)

@[simp] theorem delay_dec : (delay n s).dec = s.dec := rfl
@[simp] theorem delay_silent : (delay n s).silent = s.silent := rfl
@[simp] theorem delay_ob : (delay n s).ob = s.ob := rfl
@[simp] theorem delay_tx : (delay n s).tx = s.tx := rfl
@[simp] theorem delay_flash : (delay n s).flash = s.flash := rfl
@[simp] theorem delay_fc : (delay n s).fc = s.fc := rfl
@[simp] theorem delay_bootMode : (delay n s).bootMode = s.bootMode := rfl
@[simp] theorem delay_countdown : (delay n s).countdown = s.countdown := rfl
@[simp] theorem delay_lastSync : (delay n s).lastSync = s.lastSync := rfl
@[simp] theorem delay_trace : (delay n s).trace = s.trace ++ [.delay n] := rfl
@[simp] theorem delay_handedOff : (delay n s).handedOff = s.handedOff := rfl
@[simp] theorem delay_work : (delay n s).work = s.work := rfl
@[simp] theorem delay_ret : (delay n s).ret = s.ret := rfl
@[simp] theorem delay_par : (delay n s).par = s.par := rfl
@[simp] theorem delay_env : (delay n s).env = s.env := rfl
@[simp] theorem delay_draws : (delay n s).draws = s.draws := rfl

end delay

section receive
variable (b : Byte) (s : State)

@[simp] theorem receive_dec : (receive b s).dec = (decoderStep b s.dec).2 := rfl
@[simp] theorem receive_silent : (receive b s).silent = s.silent := rfl
@[simp] theorem receive_ob : (receive b s).ob = s.ob := rfl
@[simp] theorem receive_tx : (receive b s).tx = s.tx := rfl
@[simp] theorem receive_flash : (receive b s).flash = s.flash := rfl
@[simp] theorem receive_fc : (receive b s).fc = s.fc := rfl
@[simp] theorem receive_bootMode : (receive b s).bootMode = s.bootMode := rfl
@[simp] theorem receive_countdown : (receive b s).countdown = s.countdown := rfl
@[simp] theorem receive_lastSync : (receive b s).lastSync = s.lastSync := rfl
@[simp] theorem receive_trace : (receive b s).trace = s.trace := rfl
@[simp] theorem receive_handedOff : (receive b s).handedOff = s.handedOff := rfl
@[simp] theorem receive_work : (receive b s).work = s.work := rfl
@[simp] theorem receive_ret : (receive b s).ret = s.ret := rfl
@[simp] theorem receive_par : (receive b s).par = s.par := rfl
@[simp] theorem receive_env : (receive b s).env = s.env := rfl
@[simp] theorem receive_draws : (receive b s).draws = s.draws := rfl

end receive

section polled
variable (s : State) (n : Nat)

@[simp] theorem State.polled_dec : (s.polled n).dec = s.dec := rfl
@[simp] theorem State.polled_silent : (s.polled n).silent = s.silent := rfl
@[simp] theorem State.polled_ob : (s.polled n).ob = s.ob := rfl
@[simp] theorem State.polled_tx : (s.polled n).tx = s.tx := rfl
@[simp] theorem State.polled_flash : (s.polled n).flash = s.flash := rfl
@[simp] theorem State.polled_fc : (s.polled n).fc = s.fc := rfl
@[simp] theorem State.polled_bootMode : (s.polled n).bootMode = s.bootMode := rfl
@[simp] theorem State.polled_countdown : (s.polled n).countdown = s.countdown := rfl
@[simp] theorem State.polled_lastSync : (s.polled n).lastSync = s.lastSync := rfl
@[simp] theorem State.polled_trace : (s.polled n).trace = s.trace := rfl
@[simp] theorem State.polled_handedOff : (s.polled n).handedOff = s.handedOff := rfl
@[simp] theorem State.polled_work : (s.polled n).work = s.work := rfl
@[simp] theorem State.polled_ret : (s.polled n).ret = s.ret := rfl
@[simp] theorem State.polled_par : (s.polled n).par = s.par := rfl
@[simp] theorem State.polled_env : (s.polled n).env = { s.env with fcPolls := s.env.fcPolls.drop n } := rfl
@[simp] theorem State.polled_draws : (s.polled n).draws = s.draws := rfl

end polled

section ported
variable (s : State) (fc : Controller) (es : List Event)

@[simp] theorem State.ported_dec : (s.ported fc es).dec = s.dec := rfl
@[simp] theorem State.ported_silent : (s.ported fc es).silent = s.silent := rfl
@[simp] theorem State.ported_ob : (s.ported fc es).ob = s.ob := rfl
@[simp] theorem State.ported_tx : (s.ported fc es).tx = s.tx := rfl
@[simp] theorem State.ported_flash : (s.ported fc es).flash = s.flash := rfl
@[simp] theorem State.ported_fc : (s.ported fc es).fc = fc := rfl
@[simp] theorem State.ported_bootMode : (s.ported fc es).bootMode = s.bootMode := rfl
@[simp] theorem State.ported_countdown : (s.ported fc es).countdown = s.countdown := rfl
@[simp] theorem State.ported_lastSync : (s.ported fc es).lastSync = s.lastSync := rfl
@[simp] theorem State.ported_trace : (s.ported fc es).trace = s.trace ++ es := rfl
@[simp] theorem State.ported_handedOff : (s.ported fc es).handedOff = s.handedOff := rfl
@[simp] theorem State.ported_work : (s.ported fc es).work = s.work := rfl
@[simp] theorem State.ported_ret : (s.ported fc es).ret = s.ret := rfl
@[simp] theorem State.ported_par : (s.ported fc es).par = s.par := rfl
@[simp] theorem State.ported_env : (s.ported fc es).env = s.env := rfl
@[simp] theorem State.ported_draws : (s.ported fc es).draws = s.draws := rfl

end ported

/-- Two changes of the controller in a row. -/
@[simp] theorem State.ported_ported (s : State) (fc fc' : Controller) (es es' : List Event) :
    (s.ported fc es).ported fc' es' = s.ported fc' (es ++ es') := by
  simp [State.ported]

/-! The identity views read the option bytes and the parameters only. -/

@[simp] theorem State.log_nodeId (s : State) (e : Event) : (s.log e).nodeId = s.nodeId := rfl
@[simp] theorem State.log_fwId (s : State) (e : Event) : (s.log e).fwId = s.fwId := rfl
@[simp] theorem State.emit_nodeId (s : State) (bs : List Byte) : (s.emit bs).nodeId = s.nodeId := rfl
@[simp] theorem State.emit_fwId (s : State) (bs : List Byte) : (s.emit bs).fwId = s.fwId := rfl
@[simp] theorem receive_nodeId (b : Byte) (s : State) : (receive b s).nodeId = s.nodeId := rfl
@[simp] theorem receive_fwId (b : Byte) (s : State) : (receive b s).fwId = s.fwId := rfl

end Sys2Proof.Machine
end

