-- ==== Sys2Proof/Laws/Codec.lean ====
section
/-! SUPPORT. What the decoder's byte step can do, said once, and feeding it strings (41_codec.md R150 to R159). -/

namespace Sys2Proof.Machine

theorem headerMatch_preamble : headerMatch Config.preamble = false := rfl

/-- The four header bytes of R93. -/
theorem headerMatch_cases {b : Byte} (h : headerMatch b = true) : b = 0x80 ∨ b = 0x81 ∨ b = 0x82 ∨ b = 0x83 := by
  revert h
  revert b
  decide +kernel

/-- A byte that does not restart framing is counted, then handled by the current state (R150, R151). -/
theorem decoderStep_plain {b : Byte} {d : Decoder} (h : ¬ Restarts b d) : decoderStep b d = handleByte b (counted b d) := by
  unfold decoderStep preambleCount counted
  by_cases hb : b = Config.preamble
  · simp [hb]
  · simp only [if_neg hb]
    rw [if_neg]
    simpa [Restarts] using h

/-- A byte that restarts framing is a header, whatever state came before (R152, R153). -/
theorem decoderStep_restart {b : Byte} {d : Decoder} (h : Restarts b d) :
    decoderStep b d = (false, foldCrc b (headerStep b { d with preRun := 0, dstate := .header })) := by
  have hb : b ≠ Config.preamble := by
    rintro rfl; exact absurd h.2 (by decide)
  unfold decoderStep preambleCount
  simp only [if_neg hb]
  rw [if_pos (by simpa [Restarts] using h)]
  rfl

theorem not_restarts_preamble (d : Decoder) : ¬ Restarts Config.preamble d := by
  rintro ⟨-, h⟩; exact absurd h (by decide)

@[simp] theorem counted_dstate (b : Byte) (d : Decoder) : (counted b d).dstate = d.dstate := by
  unfold counted; split <;> rfl
@[simp] theorem counted_idx (b : Byte) (d : Decoder) : (counted b d).idx = d.idx := by
  unfold counted; split <;> rfl
@[simp] theorem counted_crc (b : Byte) (d : Decoder) : (counted b d).crc = d.crc := by
  unfold counted; split <;> rfl
@[simp] theorem counted_rxCrc (b : Byte) (d : Decoder) : (counted b d).rxCrc = d.rxCrc := by
  unfold counted; split <;> rfl
@[simp] theorem counted_pkt (b : Byte) (d : Decoder) : (counted b d).pkt = d.pkt := by
  unfold counted; split <;> rfl

/-- The run and the count after a byte (R27, R28). -/
theorem counted_run (b : Byte) (d : Decoder) :
    (counted b d).preRun = if b = Config.preamble then min (d.preRun + 1) Config.preambleLen else 0 := by
  unfold counted; split <;> rfl
theorem counted_syncCount (b : Byte) (d : Decoder) :
    (counted b d).syncCount = if b = Config.preamble then d.syncCount + 1 else d.syncCount := by
  unfold counted; split <;> rfl

/-- Handling a byte leaves the run and the count alone. -/
theorem handleByte_run (b : Byte) (d : Decoder) :
    (handleByte b d).2.preRun = d.preRun ∧ (handleByte b d).2.syncCount = d.syncCount := by
  cases h : d.dstate <;> simp only [handleByte, h, foldCrc, headerStep, addressStep, commandStep, lengthStep, dataStep]
  · simp
  · simp
  · simp
  · simp
  · simp
  · simp
  · unfold crcStep; simp only; split <;> simp

/-- The run and the count after a byte step, in every state (R151). -/
theorem decoderStep_run (b : Byte) (d : Decoder) :
    (decoderStep b d).2.preRun = (if b = Config.preamble then min (d.preRun + 1) Config.preambleLen else 0) ∧
    (decoderStep b d).2.syncCount = if b = Config.preamble then d.syncCount + 1 else d.syncCount := by
  by_cases h : Restarts b d
  · have hb : b ≠ Config.preamble := by rintro rfl; exact not_restarts_preamble d h
    rw [decoderStep_restart h]
    simp [foldCrc, headerStep, hb]
  · rw [decoderStep_plain h, (handleByte_run _ _).1, (handleByte_run _ _).2, counted_run, counted_syncCount]
    exact ⟨rfl, rfl⟩

@[simp] theorem feed_nil (r : Bool × Decoder) : feed [] r = r := rfl
@[simp] theorem feed_cons (b : Byte) (bs : List Byte) (r : Bool × Decoder) :
    feed (b :: bs) r = feed bs (decoderStep b r.2) := rfl

theorem feed_append (as bs : List Byte) : ∀ r : Bool × Decoder, feed (as ++ bs) r = feed bs (feed as r) := by
  induction as with
  | nil => intro r; rfl
  | cons a as ih => intro r; exact ih _

/-- The verdict before the first byte is not looked at. -/
theorem feed_verdict (b : Byte) (bs : List Byte) (v w : Bool) (d : Decoder) :
    feed (b :: bs) (v, d) = feed (b :: bs) (w, d) := rfl

end Sys2Proof.Machine
end

