-- ==== Sys2Proof/Laws/Memory.lean ====
section
/-! SUPPORT. The flash array: read after write, and that every memory operation keeps the canonical form. -/

namespace Sys2Proof.Machine

@[simp] theorem Memory.read_nil (a : Nat) : Memory.read [] a = Config.erased := rfl

@[simp] theorem Memory.read_cons (k : Nat) (v : Byte) (m : Memory) (a : Nat) :
    Memory.read ((k, v) :: m) a = if k = a then v else Memory.read m a := rfl

theorem Memory.read_remove (m : Memory) (a x : Nat) :
    (m.remove a).read x = if x = a then Config.erased else m.read x := by
  induction m with
  | nil => simp [Memory.remove]
  | cons c m ih =>
    obtain ⟨k, v⟩ := c
    by_cases hk : k = a
    · subst hk
      have : Memory.remove ((k, v) :: m) k = Memory.remove m k := by simp [Memory.remove]
      rw [this, ih]
      by_cases hx : x = k <;> simp [hx, eq_comm]
    · have : Memory.remove ((k, v) :: m) a = (k, v) :: Memory.remove m a := by simp [Memory.remove, hk]
      rw [this, Memory.read_cons, ih, Memory.read_cons]
      by_cases hx : x = a
      · subst hx; simp [hk]
      · simp [hx]

theorem Memory.read_insert (m : Memory) (a x : Nat) (v : Byte) (h : ∀ c ∈ m, c.1 ≠ a) :
    (Memory.insert m a v).read x = if x = a then v else m.read x := by
  induction m with
  | nil => simp [Memory.insert, eq_comm]
  | cons c m ih =>
    obtain ⟨k, w⟩ := c
    have hk : k ≠ a := h (k, w) (by simp)
    have ih := ih fun c hc => h c (by simp [hc])
    by_cases hlt : a < k
    · simp only [Memory.insert, hlt, if_true, Memory.read_cons]
      by_cases hx : x = a
      · simp [hx]
      · simp [hx, Ne.symm hx]
    · simp only [Memory.insert, hlt, if_false, Memory.read_cons, ih]
      by_cases hx : x = a
      · subst hx; simp [hk]
      · simp [hx]

theorem Memory.remove_ne (m : Memory) (a : Nat) : ∀ c ∈ m.remove a, c.1 ≠ a := by
  intro c hc; simpa [Memory.remove] using (List.mem_filter.mp hc).2

/-- A write changes the byte at its address, and no other. -/
theorem Memory.read_write (m : Memory) (a x : Nat) (v : Byte) :
    (m.write a v).read x = if x = a then v else m.read x := by
  by_cases hv : v = Config.erased
  · simp only [Memory.write, hv, if_true, Memory.read_remove]
  · simp only [Memory.write, hv, if_false]
    rw [Memory.read_insert _ _ _ _ (Memory.remove_ne m a), Memory.read_remove]
    by_cases hx : x = a <;> simp [hx]

/-- Writing a string changes the bytes it covers, and no other. -/
theorem Memory.read_writeBytes (bs : List Byte) : ∀ (m : Memory) (a x : Nat),
    (m.writeBytes a bs).read x = if a ≤ x ∧ x < a + bs.length then bs.getD (x - a) 0 else m.read x := by
  induction bs with
  | nil => intro m a x; rw [Memory.writeBytes, if_neg (by simp)]
  | cons b bs ih =>
    intro m a x
    rw [Memory.writeBytes, ih, Memory.read_write]
    by_cases h1 : a + 1 ≤ x ∧ x < a + 1 + bs.length
    · have : x - a = (x - (a + 1)) + 1 := by omega
      rw [if_pos h1, if_pos (by simp; omega), this]; rfl
    · rw [if_neg h1]
      by_cases hx : x = a
      · subst hx; simp
      · rw [if_neg hx, if_neg (by simp; omega)]

/-- Programming a string (R211): an erased byte takes its value, any other the free value; no other byte changes. -/
theorem Memory.read_program (n : Nat) (bs : List Byte) : ∀ (m : Memory) (a x : Nat),
    (Memory.program n m a bs).read x =
      if a ≤ x ∧ x < a + bs.length then
        (if m.read x = Config.erased then bs.getD (x - a) 0 else Config.freeByte n x)
      else m.read x := by
  induction bs with
  | nil => intro m a x; rw [Memory.program, if_neg (by simp)]
  | cons b bs ih =>
    intro m a x
    rw [Memory.program, ih]
    by_cases h1 : a + 1 ≤ x ∧ x < a + 1 + bs.length
    · have hx : x ≠ a := by omega
      have : x - a = (x - (a + 1)) + 1 := by omega
      have h2 : a ≤ x ∧ x < a + (b :: bs).length := by simp; omega
      rw [if_pos h1, if_pos h2, Memory.read_write, if_neg hx, this]; rfl
    · rw [if_neg h1, Memory.read_write]
      by_cases hx : x = a
      · subst hx; simp
      · rw [if_neg hx, if_neg (by simp; omega)]

/-! ### The canonical form -/

theorem Memory.wf_iff (m : Memory) :
    m.wf = true ↔ m.Pairwise (fun c d => c.1 < d.1) ∧ ∀ c ∈ m, c.2 ≠ Config.erased := by
  simp [Memory.wf]

theorem Memory.mem_insert (m : Memory) (a : Nat) (v : Byte) (c : Host.Cell) :
    c ∈ Memory.insert m a v ↔ c = (a, v) ∨ c ∈ m := by
  induction m with
  | nil => simp [Memory.insert]
  | cons d m ih =>
    unfold Memory.insert
    split
    · simp
    · simp only [List.mem_cons, ih]; tauto

theorem Memory.pairwise_insert (m : Memory) (a : Nat) (v : Byte) (h : m.Pairwise fun c d => c.1 < d.1)
    (hne : ∀ c ∈ m, c.1 ≠ a) : (Memory.insert m a v).Pairwise fun c d => c.1 < d.1 := by
  induction m with
  | nil => simp [Memory.insert]
  | cons c m ih =>
    have hc := List.pairwise_cons.mp h
    unfold Memory.insert
    split
    · rename_i hlt
      refine List.pairwise_cons.mpr ⟨?_, h⟩
      intro d hd
      rcases List.mem_cons.mp hd with rfl | hd
      · exact hlt
      · exact Nat.lt_trans hlt (hc.1 d hd)
    · rename_i hge
      refine List.pairwise_cons.mpr ⟨?_, ih hc.2 fun d hd => hne d (by simp [hd])⟩
      intro d hd
      rcases (Memory.mem_insert m a v d).mp hd with rfl | hd
      · have := hne c (by simp); simp only; omega
      · exact hc.1 d hd

theorem Memory.wf_write (m : Memory) (a : Nat) (v : Byte) (h : m.wf = true) : (m.write a v).wf = true := by
  rw [Memory.wf_iff] at h ⊢
  have hr : (m.remove a).Pairwise (fun c d => c.1 < d.1) ∧ ∀ c ∈ m.remove a, c.2 ≠ Config.erased :=
    ⟨h.1.filter _, fun c hc => h.2 c (List.mem_filter.mp hc).1⟩
  unfold Memory.write
  split
  · exact hr
  · rename_i hv
    refine ⟨Memory.pairwise_insert _ _ _ hr.1 (Memory.remove_ne m a), ?_⟩
    intro c hc
    rcases (Memory.mem_insert _ _ _ c).mp hc with rfl | hc
    · exact hv
    · exact hr.2 c hc

theorem Memory.wf_writeBytes (bs : List Byte) :
    ∀ (m : Memory) (a : Nat), m.wf = true → (m.writeBytes a bs).wf = true := by
  induction bs with
  | nil => intro m a h; exact h
  | cons b bs ih => intro m a h; exact ih _ _ (Memory.wf_write m a b h)

theorem Memory.wf_program (n : Nat) (bs : List Byte) :
    ∀ (m : Memory) (a : Nat), m.wf = true → (Memory.program n m a bs).wf = true := by
  induction bs with
  | nil => intro m a h; exact h
  | cons b bs ih => intro m a h; exact ih _ _ (Memory.wf_write m a _ h)

/-- The memory of the reset state is in canonical form. -/
theorem Memory.wf_reset : State.reset.flash.wf = true := rfl

/-! ### The addresses listed -/

theorem Memory.mem_write (m : Memory) (a : Nat) (v : Byte) (c : Host.Cell) (h : c ∈ m.write a v) :
    c.1 = a ∨ c ∈ m := by
  unfold Memory.write at h
  split at h
  · exact .inr (List.mem_filter.mp h).1
  · rcases (Memory.mem_insert _ _ _ c).mp h with rfl | h
    · exact .inl rfl
    · exact .inr (List.mem_filter.mp h).1

theorem Memory.mem_writeBytes (bs : List Byte) : ∀ (m : Memory) (a : Nat) (c : Host.Cell),
    c ∈ m.writeBytes a bs → (a ≤ c.1 ∧ c.1 < a + bs.length) ∨ c ∈ m := by
  induction bs with
  | nil => intro m a c h; exact .inr h
  | cons b bs ih =>
    intro m a c h
    rcases ih _ _ c h with h | h
    · exact .inl (by simp; omega)
    · rcases Memory.mem_write m a b c h with h | h
      · exact .inl (by simp; omega)
      · exact .inr h

theorem Memory.mem_program (n : Nat) (bs : List Byte) : ∀ (m : Memory) (a : Nat) (c : Host.Cell),
    c ∈ Memory.program n m a bs → (a ≤ c.1 ∧ c.1 < a + bs.length) ∨ c ∈ m := by
  induction bs with
  | nil => intro m a c h; exact .inr h
  | cons b bs ih =>
    intro m a c h
    rcases ih _ _ c h with h | h
    · exact .inl (by simp; omega)
    · rcases Memory.mem_write m a _ c h with h | h
      · exact .inl (by simp; omega)
      · exact .inr h

end Sys2Proof.Machine
end

