-- ==== Sys2Proof/Laws/Ops.lean ====
section
/-! SUPPORT. What the shared operations of Machine/Ops.lean can do, said once each. -/

namespace Sys2Proof.Machine

open Host (Outcome)

/-! ### The guard -/

theorem atRest_ready {s : State} {k : Outcome State Fault Refusal} (h : Ready s) : atRest s k = k := by
  simp [atRest, h.1, h.2]

theorem atRest_next {s t : State} {k : Outcome State Fault Refusal} (h : atRest s k = .next t) :
    Ready s ∧ k = .next t := by
  unfold atRest at h
  split at h
  · cases h
  · rename_i h1
    split at h
    · cases h
    · rename_i h2
      exact ⟨⟨by simpa using h1, by simpa using h2⟩, h⟩

theorem atRest_fault {s : State} {f : Fault} {k : Outcome State Fault Refusal} (h : atRest s k = .fault f) :
    Ready s ∧ k = .fault f := by
  unfold atRest at h
  split at h
  · cases h
  · rename_i h1
    split at h
    · cases h
    · rename_i h2
      exact ⟨⟨by simpa using h1, by simpa using h2⟩, h⟩

/-! ### The controller's port -/

/-- A port operation changes the controller and the trace, and nothing else. -/
theorem portOp_ok {op : FlashOp} {s t : State} (h : portOp op s = .ok t) :
    ∃ fc, s.fc.port s.par op = .ok fc ∧ t = s.ported fc [.flash op] := by
  unfold portOp at h
  split at h
  · cases h
  · rename_i fc hfc
    exact ⟨fc, hfc, by cases h; rfl⟩

theorem portOp_error {op : FlashOp} {s : State} {f : Fault} (h : portOp op s = .error f) :
    s.fc.port s.par op = .error f := by
  unfold portOp at h
  split at h
  · rename_i hfc; cases h; exact hfc
  · cases h

/-- Start records a pending effect and sets busy, or faults; the address of a recorded page effect is admitted. -/
theorem start_ok {p : Params} {fc fc' : Controller} (h : fc.start p = .ok fc') :
    ∃ e, fc' = fc.await e ∧ pendingOk p (some e) = true := by
  unfold Controller.start at h
  repeat' split at h
  all_goals first
    | (cases h; exact ⟨_, rfl, by simp_all [pendingOk]⟩)
    | cases h

/-! ### Waiting -/

theorem State.polled_zero (s : State) : s.polled 0 = s := rfl

theorem State.polled_polled (s : State) (m n : Nat) : (s.polled m).polled n = s.polled (m + n) := by
  simp [State.polled, List.drop_drop]

theorem Clears.of_env {n : Nat} {s t : State} (h : Clears n s) (he : t.env = s.env) : Clears n t := by
  simpa [Clears, he] using h

theorem Clears.mono {m n : Nat} {s : State} (h : Clears n s) (hmn : m ≤ n) : Clears m s :=
  fun q hq => h q (List.take_subset_take_left _ hmn hq)

theorem Clears.after {m n : Nat} {s : State} (h : Clears (m + n) s) : Clears n (s.polled m) := by
  intro q hq
  refine h q ?_
  have hq : q ∈ (s.env.fcPolls.drop m).take n := hq
  rw [List.take_drop] at hq
  rw [Nat.add_comm]
  exact List.mem_of_mem_drop (by rwa [Nat.add_comm n m])

/-- With busy set and the controller clearing it, the wait returns with the pending effect applied. -/
theorem pollBusy_clears {s : State} (hb : s.fc.busy = true) (hc : Clears 1 s) :
    pollBusy s = (true, ((s.polled 1).complete).log .waitNotBusy) := by
  unfold pollBusy
  rw [if_pos hb]
  cases hp : s.env.fcPolls with
  | nil =>
    have : s.polled 1 = s := by
      obtain ⟨⟩ := s; rename_i env _; obtain ⟨⟩ := env; simp_all [State.polled]
    simp [this]
  | cons q ps =>
    have : q = .clears := hc q (by simp [hp])
    subst this
    simp [State.polled, hp]

/-- With busy clear the wait returns at once. -/
theorem pollBusy_idle {s : State} (hb : s.fc.busy = false) : pollBusy s = (true, s.log .waitNotBusy) := by
  simp [pollBusy, hb]

/-- A controller that never clears holds the core. -/
theorem pollBusy_stuck {s : State} (hb : s.fc.busy = true) (hs : Stuck s) : pollBusy s = (false, s) := by
  obtain ⟨ps, hp⟩ := hs
  simp [pollBusy, hb, hp]

/-- A pending effect does not look at the controller or the trace, and leaves them alone. -/
theorem pendingEffect_ported (s : State) (fc : Controller) (es : List Event) (e : Pending) :
    pendingEffect (s.ported fc es) e = (pendingEffect s e).ported fc es := by
  cases e <;> simp only [pendingEffect, State.ported]

/-- A pending effect changes flash, option bytes and the draw counter only. -/
theorem pendingEffect_frame (s : State) (e : Pending) :
    ∃ fl ob k, pendingEffect s e = { s with flash := fl, ob := ob, draws := k } := by
  refine ⟨(pendingEffect s e).flash, (pendingEffect s e).ob, (pendingEffect s e).draws, ?_⟩
  cases e <;> simp only [pendingEffect]

@[simp] theorem pendingEffect_env (s : State) (e : Pending) : (pendingEffect s e).env = s.env := by
  obtain ⟨_, _, _, h⟩ := pendingEffect_frame s e; rw [h]
@[simp] theorem pendingEffect_par (s : State) (e : Pending) : (pendingEffect s e).par = s.par := by
  obtain ⟨_, _, _, h⟩ := pendingEffect_frame s e; rw [h]

theorem pendingEffect_polled (s : State) (n : Nat) (e : Pending) :
    (pendingEffect s e).polled n = pendingEffect (s.polled n) e := by
  cases e <;> simp only [pendingEffect, State.polled]

theorem polled_ported (s : State) (fc : Controller) (es : List Event) (n : Nat) :
    (s.ported fc es).polled n = (s.polled n).ported fc es := rfl

/-- Everything a visit of WaitNotBusy can do. -/
theorem pollBusy_cases (s : State) :
    (s.fc.busy = false ∧ pollBusy s = (true, s.log .waitNotBusy)) ∨
    (s.fc.busy = true ∧ ∃ ps, pollBusy s =
      (true, ({ s with env := { s.env with fcPolls := ps } }.complete).log .waitNotBusy)) ∨
    (s.fc.busy = true ∧ ∃ ps, pollBusy s = (false, { s with env := { s.env with fcPolls := ps } })) := by
  unfold pollBusy
  cases hb : s.fc.busy
  · simp
  · cases hp : s.env.fcPolls with
    | nil => exact .inr (.inl ⟨rfl, [], by simp [← hp]⟩)
    | cons q ps =>
      cases q with
      | clears => exact .inr (.inl ⟨rfl, ps, rfl⟩)
      | busy => exact .inr (.inr ⟨rfl, ps, rfl⟩)
      | never => exact .inr (.inr ⟨rfl, .never :: ps, by simp [← hp]⟩)

/-- Completion changes flash, option bytes, the draw counter and the controller only (R206). -/
theorem complete_frame (s : State) :
    ∃ fl ob k, s.complete = { s with flash := fl, ob := ob, draws := k, fc := s.fc.complete } := by
  unfold State.complete
  cases s.fc.pending with
  | none => exact ⟨s.flash, s.ob, s.draws, rfl⟩
  | some e =>
    obtain ⟨fl, ob, k, h⟩ := pendingEffect_frame s e
    exact ⟨fl, ob, k, by simp only [h]⟩

/-- What a visit of WaitNotBusy changes; it logs no byte (R206). -/
theorem pollBusy_frame (s : State) :
    ∃ fl ob k fc es ps, (pollBusy s).2 =
        { s with
          flash := fl, ob := ob, draws := k, fc := fc, trace := s.trace ++ es, env := { s.env with fcPolls := ps } } ∧
      (es = [] ∨ es = [.waitNotBusy]) := by
  rcases pollBusy_cases s with ⟨-, h⟩ | ⟨-, ps, h⟩ | ⟨-, ps, h⟩ <;> rw [h]
  · exact ⟨s.flash, s.ob, s.draws, s.fc, [.waitNotBusy], s.env.fcPolls, rfl, .inr rfl⟩
  · obtain ⟨fl, ob, k, e⟩ := complete_frame { s with env := { s.env with fcPolls := ps } }
    exact ⟨fl, ob, k, _, [.waitNotBusy], ps, by rw [e]; rfl, .inr rfl⟩
  · exact ⟨s.flash, s.ob, s.draws, s.fc, [], ps, by simp, .inl rfl⟩

/-! ### Running tasks while the host takes nothing -/

/-- The tasks in order, without the host's turns: `run` of a host that takes nothing (`run_still`), and what `run` is
up to the host's turns (`run_upToHost`, Laws/Host.lean). -/
def runStill : List Task → State → Outcome State Fault Refusal
  | [], s => .next { s with work := [] }
  | .port op :: ts, s =>
    match portOp op s with
    | .error f => .fault f
    | .ok s' => runStill ts s'
  | .wait :: ts, s =>
    match pollBusy s with
    | (true, s') => runStill ts s'
    | (false, s') => .next { s' with work := .wait :: ts }
  | .respond cmd payload :: ts, s => runStill ts (respond cmd payload s)
  | .countdown :: ts, s => runStill ts (countdownStep s)

@[simp] theorem runStill_nil (s : State) : runStill [] s = .next { s with work := [] } := rfl

@[simp] theorem runStill_respond (c : Byte) (p : List Byte) (ts : List Task) (s : State) :
    runStill (.respond c p :: ts) s = runStill ts (respond c p s) := rfl

@[simp] theorem runStill_countdown (ts : List Task) (s : State) :
    runStill (.countdown :: ts) s = runStill ts (countdownStep s) := rfl

theorem runStill_port {op : FlashOp} {ts : List Task} {s : State} {fc : Controller} (h : s.fc.port s.par op = .ok fc) :
    runStill (.port op :: ts) s = runStill ts (s.ported fc [.flash op]) := by
  simp [runStill, portOp, h]

/-- `runStill_port` after earlier port operations. -/
theorem runStill_port_next {op : FlashOp} {ts : List Task} {s : State} {fc fc' : Controller} {es : List Event}
    (h : fc.port s.par op = .ok fc') :
    runStill (.port op :: ts) (s.ported fc es) = runStill ts (s.ported fc' (es ++ [.flash op])) := by
  rw [runStill_port (s := s.ported fc es) h, State.ported_ported]

theorem runStill_port_fault {op : FlashOp} {ts : List Task} {s : State} {f : Fault} (h : s.fc.port s.par op = .error f) :
    runStill (.port op :: ts) s = .fault f := by
  simp [runStill, portOp, h]

theorem runStill_wait {ts : List Task} {s t : State} (h : pollBusy s = (true, t)) :
    runStill (.wait :: ts) s = runStill ts t := by
  simp [runStill, h]

/-- A wait on a pending effect that the controller completes. -/
theorem runStill_wait_clears {ts : List Task} {s : State} {fc : Controller} {es : List Event} {e : Pending}
    (hb : fc.busy = true) (he : fc.pending = some e) (hc : Clears 1 s) :
    runStill (.wait :: ts) (s.ported fc es) =
      runStill ts ((pendingEffect (s.polled 1) e).ported fc.complete (es ++ [.waitNotBusy])) := by
  rw [runStill_wait (pollBusy_clears (s := s.ported fc es) hb (hc.of_env rfl)), polled_ported]
  congr 1
  simp only [State.complete, State.ported_fc, he, pendingEffect_ported]
  simp [State.log, State.ported]

theorem runStill_wait_held {ts : List Task} {s t : State} (h : pollBusy s = (false, t)) :
    runStill (.wait :: ts) s = .next { t with work := .wait :: ts } := by
  simp [runStill, h]

/-- A wait on a controller that never clears busy: the core is held there (R219). -/
theorem runStill_wait_stuck {ts : List Task} {s : State} {fc : Controller} {es : List Event} (hb : fc.busy = true)
    (hs : Stuck s) : runStill (.wait :: ts) (s.ported fc es) = .next { s.ported fc es with work := .wait :: ts } :=
  runStill_wait_held (pollBusy_stuck hb hs)

/-! ### Running tasks -/

/-- A turn of the host changes the FIFO, the trace and its own script only; the bytes it takes are those of its events. -/
theorem hostTurn_frame (s : State) :
    ∃ tx es ns, hostTurn s = { s with tx := tx, trace := s.trace ++ es, env := { s.env with txTake := ns } } ∧
      es.filterMap Event.txByte ++ tx = s.tx := by
  unfold hostTurn
  split
  · refine ⟨s.tx, [], s.env.txTake, ?_, by simp⟩
    simp
  · rename_i n ns h
    refine ⟨_, _, _, rfl, ?_⟩
    have : Event.txByte ∘ Event.tx = some := rfl
    rw [List.filterMap_map, this, List.filterMap_some, List.take_append_drop]

/-- A host whose script is used up takes nothing. -/
theorem hostTurn_still {s : State} (h : s.env.txTake = []) : hostTurn s = s := by
  unfold hostTurn; rw [h]

@[simp] theorem run_nil (s : State) : run [] s = .next { s with work := [] } := rfl

@[simp] theorem run_respond (c : Byte) (p : List Byte) (ts : List Task) (s : State) :
    run (.respond c p :: ts) s = run ts (respond c p s) := rfl

@[simp] theorem run_countdown (ts : List Task) (s : State) :
    run (.countdown :: ts) s = run ts (countdownStep (hostTurn s)) := rfl

theorem run_port {op : FlashOp} {ts : List Task} {s t : State} (h : portOp op (hostTurn s) = .ok t) :
    run (.port op :: ts) s = run ts t := by
  simp [run, h]

theorem run_port_fault {op : FlashOp} {ts : List Task} {s : State} {f : Fault}
    (h : portOp op (hostTurn s) = .error f) : run (.port op :: ts) s = .fault f := by
  simp [run, h]

theorem run_wait {ts : List Task} {s t : State} (h : pollBusy (hostTurn s) = (true, t)) :
    run (.wait :: ts) s = run ts t := by
  simp [run, h]

theorem run_wait_held {ts : List Task} {s t : State} (h : pollBusy (hostTurn s) = (false, t)) :
    run (.wait :: ts) s = .next { t with work := .wait :: ts } := by
  simp [run, h]

/-- What running tasks can do with one property of the state: if every task, every visit of a wait and every turn of the
host keeps `P`, and `P` does not look at `work`, a run that answers a next state keeps it. -/
theorem run_keeps {P : State → Prop} (hhost : ∀ s, P s → P (hostTurn s))
    (hport : ∀ op s t, portOp op s = .ok t → P s → P t)
    (hpoll : ∀ s, P s → P (pollBusy s).2) (hrespond : ∀ c p s, P s → P (respond c p s))
    (hcount : ∀ s, P s → P (countdownStep s)) (hwork : ∀ s w, P s → P { s with work := w }) :
    ∀ (ts : List Task) (s t : State), run ts s = .next t → P s → P t := by
  intro ts
  induction ts with
  | nil => intro s t h hp; cases h; exact hwork _ _ hp
  | cons k ts ih =>
    intro s t h hp
    cases k with
    | port op =>
      cases hop : portOp op (hostTurn s) with
      | error f => rw [run_port_fault hop] at h; cases h
      | ok u => exact ih u t (by rwa [run_port hop] at h) (hport op _ u hop (hhost s hp))
    | wait =>
      rcases hpb : pollBusy (hostTurn s) with ⟨b, u⟩
      have hu : P u := by have := hpoll _ (hhost s hp); rwa [hpb] at this
      cases b
      · rw [run_wait_held hpb] at h; cases h; exact hwork _ _ hu
      · rw [run_wait hpb] at h; exact ih u t h hu
    | respond c p => exact ih _ t h (hrespond c p s hp)
    | countdown => exact ih _ t h (hcount _ (hhost s hp))

/-- Everything part (c) of an iteration can do (R293). -/
theorem countdownStep_cases (s : State) :
    (s.bootMode = .stay ∧ countdownStep s = s) ∨
    (s.bootMode ≠ .stay ∧ (s.countdown - 1 = 0 ∧ s.tx = []) ∧
      countdownStep s = { { s with countdown := s.countdown - 1 }.log .handoff with handedOff := true }) ∨
    (s.bootMode ≠ .stay ∧ ¬(s.countdown - 1 = 0 ∧ s.tx = []) ∧
      countdownStep s = { s with countdown := s.countdown - 1 }) := by
  unfold countdownStep
  cases hm : s.bootMode with
  | stay => simp
  | bootWait => by_cases h : s.countdown - 1 = 0 ∧ s.tx = [] <;> simp [h]
  | go => by_cases h : s.countdown - 1 = 0 ∧ s.tx = [] <;> simp [h]

/-- Everything a response can do (R233). -/
theorem respond_cases (c : Byte) (p : List Byte) (s : State) :
    (s.silent = true ∧ respond c p s = s) ∨
    (s.silent = false ∧ respond c p s = s.emit (responseFrame s.nodeId c p)) := by
  unfold respond; cases s.silent <;> simp

/-- A response only appends to the TX FIFO: its frame, or nothing while silent (R233). -/
theorem respond_eq (c : Byte) (p : List Byte) (s : State) :
    respond c p s = { s with tx := s.tx ++ (if s.silent then [] else responseFrame s.nodeId c p) } := by
  unfold respond State.emit
  split <;> simp

end Sys2Proof.Machine
end

