-- ==== Sys2Proof/Laws/Flash.lean ====
section
/-! SUPPORT. What the sequences of Machine/Flash.lean do when the controller clears busy at every poll and the host
takes nothing: one lemma per sequence, for any tasks that follow it. Laws/Host.lean has what the host's turns add. -/

namespace Sys2Proof.Machine

theorem ModeSet.put_on_empty (m : Mode) : ModeSet.empty.put m true = ModeSet.only m := rfl

theorem ModeSet.put_off_only (m : Mode) : (ModeSet.only m).put m false = ModeSet.empty := by cases m <;> rfl

theorem ModeSet.has_only (m : Mode) : (ModeSet.only m).has m = true := by cases m <;> rfl

theorem ModeSet.only_inj (m n : Mode) : ModeSet.only m = ModeSet.only n ↔ m = n := by
  cases m <;> cases n <;> decide

/-! ### The three effects of Start (R205) -/

theorem start_pageErase {p : Params} {fc : Controller} (hl : fc.locked = false) (hm : fc.mode = ModeSet.only .pageErase) :
    fc.start p = if pageOk p fc.addr then .ok (fc.await (.pageErase fc.addr)) else .error .unmodelledFlashAddress := by
  simp [Controller.start, hl, hm]

theorem start_pageProgram {p : Params} {fc : Controller} {ws : Vector Word 16} (hl : fc.locked = false)
    (hm : fc.mode = ModeSet.only .pageProgram) (hw : bufferWords fc.pagebuf = some ws) :
    fc.start p =
      if pageOk p fc.addr then .ok (fc.await (.pageProgram fc.addr ws)) else .error .unmodelledFlashAddress := by
  simp [Controller.start, hl, hm, hw, ModeSet.only_inj]

theorem start_optErase {p : Params} {fc : Controller} (hl : fc.locked = false) (ho : fc.obUnlocked = true)
    (hm : fc.mode = ModeSet.only .optErase) : fc.start p = .ok (fc.await .optErase) := by
  simp [Controller.start, hl, hm, ho, ModeSet.only_inj]

/-! ### The guarded operations (R208, R209) -/

theorem port_stageWord {p : Params} {fc : Controller} (i : Fin 16) (w : Word) (h : fc.mode.has .pageProgram = true) :
    fc.port p (.stageWord i w) = .ok { fc with stage := w, stageIdx := i } := by
  simp [Controller.port, h]

theorem port_bufferLoad {p : Params} {fc : Controller} (h : fc.mode.has .pageProgram = true) :
    fc.port p .bufferLoad = .ok (fc.await (.bufferLoad fc.stageIdx fc.stage)) := by
  simp [Controller.port, h]

theorem port_obWriteWord {p : Params} {fc : Controller} (i : Fin 6) (w : Word)
    (h : fc.mode.has .optProgram = true) (ho : fc.obUnlocked = true) (hl : fc.locked = false) :
    fc.port p (.obWriteWord i w) = .ok (fc.await (.obWord i w)) := by
  simp [Controller.port, h, ho, hl]

/-! ### erase_page -/

/-- The controller after `erase_page(a)` (R215, R218). -/
def Controller.afterErase (fc : Controller) (a : Word) : Controller :=
  { fc with locked := false, mode := ModeSet.empty, addr := a, busy := false, pending := none }

theorem runStill_erasePage (a : Word) (ts : List Task) (s : State) (fc : Controller) (es : List Event)
    (hm : fc.mode = ModeSet.empty) (hp : pageOk s.par a = true) (hc : Clears 1 s) :
    runStill (erasePageTasks a ++ ts) (s.ported fc es) =
      runStill ts ((pendingEffect (s.polled 1) (.pageErase a)).ported (fc.afterErase a) (es ++ erasePageEvents a)) := by
  obtain ⟨lk, ou, md, ad, sg, si, pb, bz, pd⟩ := fc
  simp only at hm
  subst hm
  unfold erasePageTasks
  simp only [List.cons_append, List.nil_append]
  rw [runStill_port_next rfl, runStill_port_next (fc' := ⟨false, ou, .only .pageErase, ad, sg, si, pb, bz, pd⟩) rfl,
    runStill_port_next rfl,
    runStill_port_next (op := .start) ((start_pageErase rfl rfl).trans (if_pos hp)),
    runStill_wait_clears rfl rfl hc, runStill_port_next rfl]
  simp [erasePageEvents, Controller.afterErase, Controller.complete, Controller.await, ModeSet.put_off_only]

/-- An address that R210 refuses ends `erase_page` with the fault. -/
theorem runStill_erasePage_fault (a : Word) (ts : List Task) (s : State) (fc : Controller) (es : List Event)
    (hm : fc.mode = ModeSet.empty) (hp : pageOk s.par a = false) :
    runStill (erasePageTasks a ++ ts) (s.ported fc es) = .fault .unmodelledFlashAddress := by
  obtain ⟨lk, ou, md, ad, sg, si, pb, bz, pd⟩ := fc
  simp only at hm
  subst hm
  unfold erasePageTasks
  simp only [List.cons_append, List.nil_append]
  rw [runStill_port_next rfl, runStill_port_next (fc' := ⟨false, ou, .only .pageErase, ad, sg, si, pb, bz, pd⟩) rfl,
    runStill_port_next rfl,
    runStill_port_fault (op := .start) ((start_pageErase rfl rfl).trans (if_neg (by simp [hp])))]

/-! ### write_page -/

/-- The controller after one turn of the loop of R216. -/
def Controller.loadWord (d : Vector Byte 64) (fc : Controller) (i : Fin 16) : Controller :=
  { fc with
    mode := ModeSet.empty
    stage := pageWord d i
    stageIdx := i
    pagebuf := fc.pagebuf.set i.val (some (pageWord d i))
    busy := false
    pending := none }

theorem runStill_loadWord (d : Vector Byte 64) (i : Fin 16) (ts : List Task) (s : State) (fc : Controller)
    (es : List Event) (hm : fc.mode = ModeSet.empty) (hc : Clears 1 s) :
    runStill (loadWordTasks d i ++ ts) (s.ported fc es) =
      runStill ts ((s.polled 1).ported (fc.loadWord d i) (es ++ loadWordEvents d i)) := by
  obtain ⟨lk, ou, md, ad, sg, si, pb, bz, pd⟩ := fc
  simp only at hm
  subst hm
  unfold loadWordTasks
  simp only [List.cons_append, List.nil_append]
  rw [runStill_port_next (fc' := ⟨lk, ou, .only .pageProgram, ad, sg, si, pb, bz, pd⟩) rfl,
    runStill_port_next (port_stageWord _ _ rfl), runStill_port_next (port_bufferLoad rfl),
    runStill_wait_clears rfl rfl hc, runStill_port_next rfl]
  simp [loadWordEvents, Controller.loadWord, Controller.complete, Controller.await, ModeSet.put_off_only,
    pendingEffect]

theorem runStill_loadWords (d : Vector Byte 64) (is : List (Fin 16)) :
    ∀ (ts : List Task) (s : State) (fc : Controller) (es : List Event), fc.mode = ModeSet.empty →
      Clears is.length s →
      runStill (is.flatMap (loadWordTasks d) ++ ts) (s.ported fc es) =
        runStill ts ((s.polled is.length).ported (is.foldl (Controller.loadWord d) fc)
          (es ++ is.flatMap (loadWordEvents d))) := by
  induction is with
  | nil => intro ts s fc es _ _; simp [State.polled_zero]
  | cons i is ih =>
    intro ts s fc es hm hc
    have hc' : Clears (1 + is.length) s := by simpa [Nat.add_comm] using hc
    rw [List.flatMap_cons, List.append_assoc, runStill_loadWord d i _ s fc es hm (hc'.mono (by omega)),
      ih ts _ _ _ rfl hc'.after, State.polled_polled, List.foldl_cons, List.flatMap_cons, List.append_assoc,
      List.length_cons, Nat.add_comm 1]

/-- The page buffer after the sixteen turns: every word of the page. -/
def pageWords (d : Vector Byte 64) : Vector Word 16 := Vector.ofFn (pageWord d)

/-- The words of a page, written out little-endian, are its bytes (R65). -/
theorem pageWords_bytes (d : Vector Byte 64) : (pageWords d).toList.flatMap bytesLe32 = d.toList := by
  obtain ⟨⟨l⟩, hl⟩ := d
  have hn : l.length = 64 := hl
  apply List.ext_getElem
  · simp [List.length_flatMap, hn]
  · intro i h1 h2
    have hx : (pageWords ⟨⟨l⟩, hl⟩).toList = List.ofFn (pageWord ⟨⟨l⟩, hl⟩) := by simp [pageWords, Vector.toList_ofFn]
    simp only [hx]
    have h64 : i < 64 := by simpa [hn] using h2
    simp only [List.ofFn_succ, List.ofFn_zero, List.flatMap_cons, List.flatMap_nil, pageWord, bytesLe32_le32]
    interval_cases i <;> rfl

theorem loadWords_frame (d : Vector Byte 64) (is : List (Fin 16)) (fc : Controller) (hm : fc.mode = ModeSet.empty) :
    (is.foldl (Controller.loadWord d) fc).mode = ModeSet.empty ∧
    (is.foldl (Controller.loadWord d) fc).locked = fc.locked ∧
    (is.foldl (Controller.loadWord d) fc).obUnlocked = fc.obUnlocked ∧
    (is.foldl (Controller.loadWord d) fc).addr = fc.addr := by
  induction is generalizing fc with
  | nil => simp [hm]
  | cons i is ih => simpa [Controller.loadWord] using ih (fc.loadWord d i) rfl

theorem loadWords_pagebuf (d : Vector Byte 64) (is : List (Fin 16)) (fc : Controller) (j : Fin 16) :
    (is.foldl (Controller.loadWord d) fc).pagebuf[j] =
      if j ∈ is then some (pageWord d j) else fc.pagebuf[j] := by
  induction is generalizing fc with
  | nil => simp
  | cons i is ih =>
    rw [List.foldl_cons, ih]
    by_cases hj : j ∈ is
    · simp [hj]
    · by_cases hi : j = i
      · subst hi; simp [Controller.loadWord]
      · have : i.val ≠ j.val := fun h => hi (Fin.ext h.symm)
        simp [hj, hi, Controller.loadWord, this]

/-- The controller before the page program of R216. -/
def Controller.loaded (fc : Controller) (d : Vector Byte 64) : Controller :=
  (List.finRange 16).foldl (Controller.loadWord d)
    { fc with locked := false, pagebuf := Vector.replicate 16 none }

theorem loaded_pagebuf (fc : Controller) (d : Vector Byte 64) :
    (fc.loaded d).pagebuf = (pageWords d).map some := by
  apply Vector.ext
  intro j hj
  have h := loadWords_pagebuf d (List.finRange 16) { fc with locked := false, pagebuf := Vector.replicate 16 none }
    ⟨j, hj⟩
  simp only [List.mem_finRange, if_true] at h
  simpa [Controller.loaded, pageWords] using h

theorem bufferWords_map_some (ws : Vector Word 16) : bufferWords (ws.map some) = some ws := by
  unfold bufferWords
  rw [if_pos (by simp)]
  simp

/-- The controller after `write_page(a, d)` (R216, R218). -/
def Controller.afterProgram (fc : Controller) (a : Word) (d : Vector Byte 64) : Controller :=
  { fc with
    locked := false
    mode := ModeSet.empty
    addr := a
    stage := pageWord d 15
    stageIdx := 15
    pagebuf := (pageWords d).map some
    busy := false
    pending := none }

theorem loaded_eq (fc : Controller) (d : Vector Byte 64) :
    fc.loaded d =
      { fc with
        locked := false, mode := ModeSet.empty, stage := pageWord d 15, stageIdx := 15,
        pagebuf := (pageWords d).map some, busy := false, pending := none } := by
  have hp := loaded_pagebuf fc d
  have hf : (List.finRange 16) = (List.finRange 16).dropLast ++ [15] := by decide
  unfold Controller.loaded at hp ⊢
  rw [hf, List.foldl_append, List.foldl_cons, List.foldl_nil] at hp ⊢
  generalize hg : ((List.finRange 16).dropLast.foldl (Controller.loadWord d)
    { fc with locked := false, pagebuf := Vector.replicate 16 none }) = g at hp ⊢
  have hl : g.locked = false ∧ g.obUnlocked = fc.obUnlocked ∧ g.addr = fc.addr := by
    rw [← hg]
    clear hp hf hg
    generalize (List.finRange 16).dropLast = is
    suffices ∀ f : Controller, (is.foldl (Controller.loadWord d) f).locked = f.locked ∧
        (is.foldl (Controller.loadWord d) f).obUnlocked = f.obUnlocked ∧
        (is.foldl (Controller.loadWord d) f).addr = f.addr from this _
    induction is with
    | nil => intro f; simp
    | cons i is ih => intro f; simpa [Controller.loadWord] using ih (f.loadWord d i)
  simp only [Controller.loadWord] at hp ⊢
  rw [hp, hl.1, hl.2.1, hl.2.2]

theorem runStill_writePage (a : Word) (d : Vector Byte 64) (ts : List Task) (s : State) (fc : Controller)
    (es : List Event) (hm : fc.mode = ModeSet.empty) (hp : pageOk s.par a = true) (hc : Clears 17 s) :
    runStill (writePageTasks a d ++ ts) (s.ported fc es) =
      runStill ts ((pendingEffect (s.polled 17) (.pageProgram a (pageWords d))).ported (fc.afterProgram a d)
        (es ++ writePageEvents a d)) := by
  have hc' : Clears (16 + 1) s := hc
  obtain ⟨lk, ou, md, ad, sg, si, pb, bz, pd⟩ := fc
  simp only at hm
  subst hm
  unfold writePageTasks
  simp only [List.cons_append, List.nil_append, List.append_assoc]
  rw [runStill_port_next rfl, runStill_port_next rfl, runStill_loadWords d _ _ s _ _ rfl (hc.mono (by simp)),
    show (List.finRange 16).foldl (Controller.loadWord d) _ =
      Controller.loaded ⟨lk, ou, .empty, ad, sg, si, pb, bz, pd⟩ d from rfl, loaded_eq]
  simp only [List.length_finRange]
  rw [runStill_port_next (op := .setMode .pageProgram) rfl, runStill_port_next rfl,
    runStill_port_next (op := .start) ((start_pageProgram rfl rfl (bufferWords_map_some _)).trans (if_pos hp)),
    runStill_wait_clears rfl rfl hc'.after, runStill_port_next rfl]
  simp [writePageEvents, Controller.afterProgram, Controller.complete, Controller.await, State.polled_polled,
    ModeSet.put_on_empty, ModeSet.put_off_only]

/-- An address that R211 refuses ends `write_page` with the fault. -/
theorem runStill_writePage_fault (a : Word) (d : Vector Byte 64) (ts : List Task) (s : State) (fc : Controller)
    (es : List Event) (hm : fc.mode = ModeSet.empty) (hp : pageOk s.par a = false) (hc : Clears 16 s) :
    runStill (writePageTasks a d ++ ts) (s.ported fc es) = .fault .unmodelledFlashAddress := by
  obtain ⟨lk, ou, md, ad, sg, si, pb, bz, pd⟩ := fc
  simp only at hm
  subst hm
  unfold writePageTasks
  simp only [List.cons_append, List.nil_append, List.append_assoc]
  rw [runStill_port_next rfl, runStill_port_next rfl, runStill_loadWords d _ _ s _ _ rfl (hc.mono (by simp)),
    show (List.finRange 16).foldl (Controller.loadWord d) _ =
      Controller.loaded ⟨lk, ou, .empty, ad, sg, si, pb, bz, pd⟩ d from rfl, loaded_eq]
  simp only [List.length_finRange]
  rw [runStill_port_next (op := .setMode .pageProgram) rfl, runStill_port_next rfl,
    runStill_port_fault (op := .start)
      ((start_pageProgram rfl rfl (bufferWords_map_some _)).trans (if_neg (by simp [hp])))]

/-! ### write_option_byte -/

/-- The controller after one turn of the loop of R217. -/
def Controller.idle (fc : Controller) : Controller :=
  { fc with mode := ModeSet.empty, busy := false, pending := none }

theorem runStill_optionWord (st : Vector Byte 24) (i : Fin 6) (ts : List Task) (s : State) (fc : Controller)
    (es : List Event) (hm : fc.mode = ModeSet.empty) (hl : fc.locked = false) (ho : fc.obUnlocked = true)
    (hc : Clears 1 s) :
    runStill (optionWordTasks st i ++ ts) (s.ported fc es) =
      runStill ts ((pendingEffect (s.polled 1) (.obWord i (optionWord st i))).ported fc.idle
        (es ++ optionWordEvents st i)) := by
  obtain ⟨lk, ou, md, ad, sg, si, pb, bz, pd⟩ := fc
  simp only at hm hl ho
  subst hm hl ho
  unfold optionWordTasks
  simp only [List.cons_append, List.nil_append]
  rw [runStill_port_next (fc' := ⟨false, true, .only .optProgram, ad, sg, si, pb, bz, pd⟩) rfl,
    runStill_port_next (port_obWriteWord _ _ rfl rfl rfl), runStill_wait_clears rfl rfl hc, runStill_port_next rfl]
  simp [optionWordEvents, Controller.idle, Controller.complete, Controller.await, ModeSet.put_off_only]

/-- The option words programmed one after another. -/
def programOptions (st : Vector Byte 24) (s : State) (is : List (Fin 6)) : State :=
  is.foldl (fun t i => pendingEffect t (.obWord i (optionWord st i))) s

theorem runStill_optionWords (st : Vector Byte 24) (is : List (Fin 6)) :
    ∀ (ts : List Task) (s : State) (fc : Controller) (es : List Event), fc.mode = ModeSet.empty →
      fc.locked = false → fc.obUnlocked = true → fc.busy = false → fc.pending = none → Clears is.length s →
      runStill (is.flatMap (optionWordTasks st) ++ ts) (s.ported fc es) =
        runStill ts ((programOptions st (s.polled is.length) is).ported fc (es ++ is.flatMap (optionWordEvents st))) := by
  induction is with
  | nil => intro ts s fc es _ _ _ _ _ _; simp [State.polled_zero, programOptions]
  | cons i is ih =>
    intro ts s fc es hm hl ho hb hp hc
    have hc' : Clears (1 + is.length) s := by simpa [Nat.add_comm] using hc
    have hidle : fc.idle = fc := by
      obtain ⟨lk, ou, md, ad, sg, si, pb, bz, pd⟩ := fc; simp_all [Controller.idle]
    rw [List.flatMap_cons, List.append_assoc, runStill_optionWord st i _ s fc es hm hl ho (hc'.mono (by omega)), hidle,
      ih ts (pendingEffect (s.polled 1) (.obWord i (optionWord st i))) fc _ hm hl ho hb hp (hc'.after.of_env rfl),
      List.flatMap_cons, List.append_assoc, pendingEffect_polled, State.polled_polled, List.length_cons,
      Nat.add_comm 1]
    simp only [programOptions, List.foldl_cons]

/-- The controller after `write_option_byte` (R217, R218). -/
def Controller.afterOption (fc : Controller) : Controller :=
  { fc with locked := true, obUnlocked := false, mode := ModeSet.empty, busy := false, pending := none }

/-- Programming option word `i` of an erased region, byte by byte (R209). -/
theorem programOption_get (n : Nat) (ob st : Vector Byte 24) (i : Fin 6) (j : Nat) (hj : j < 24) :
    (programOption n ob i (optionWord st i))[j] =
      if j / 4 = i.val ∧ ob[j] = Config.erased then st[j]
      else if j / 4 = i.val then Config.freeByte n j else ob[j] := by
  obtain ⟨h0, h1, h2, h3⟩ := byteOf_le32 st[4 * i.val] st[4 * i.val + 1] st[4 * i.val + 2] st[4 * i.val + 3]
  simp only [programOption, Vector.getElem_ofFn, optionWord, Fin.getElem_fin]
  by_cases hi : j / 4 = i.val
  · by_cases he : ob[j] = Config.erased
    · have hk : j % 4 = 0 ∨ j % 4 = 1 ∨ j % 4 = 2 ∨ j % 4 = 3 := by omega
      rw [if_pos hi, if_pos he, if_pos ⟨hi, he⟩]
      rcases hk with hk | hk | hk | hk <;> rw [hk] <;> simp only [h0, h1, h2, h3] <;> congr 1 <;> omega
    · simp [hi, he]
  · simp [hi]

/-- The words of `is` programmed into a region where they are erased: those words are the staged ones, the others as
they were. -/
theorem programOptions_eq (st : Vector Byte 24) (is : List (Fin 6)) (hn : is.Nodup) :
    ∀ s : State, (∀ (j : Nat) (hj : j < 24), (∃ i ∈ is, j / 4 = i.val) → s.ob[j] = Config.erased) →
      ∃ ob, programOptions st s is = { s with ob := ob, draws := s.draws + is.length } ∧
        ∀ (j : Nat) (hj : j < 24), ob[j] = if ∃ i ∈ is, j / 4 = i.val then st[j] else s.ob[j] := by
  induction is with
  | nil => intro s _; exact ⟨s.ob, by simp [programOptions], by simp⟩
  | cons i is ih =>
    intro s he
    obtain ⟨hi, hn⟩ := List.nodup_cons.mp hn
    obtain ⟨ob, h1, h2⟩ := ih hn (pendingEffect s (.obWord i (optionWord st i))) (by
      rintro j hj ⟨k, hk, hjk⟩
      have hne : j / 4 ≠ i.val := fun h => hi (by rwa [show i = k from Fin.ext (h ▸ hjk)])
      simp only [pendingEffect, programOption_get, hne, false_and, if_false]
      exact he j hj ⟨k, by simp [hk], hjk⟩)
    refine ⟨ob, ?_, ?_⟩
    · rw [programOptions, List.foldl_cons]
      rw [programOptions] at h1
      rw [h1, pendingEffect, List.length_cons, Nat.add_right_comm, Nat.add_assoc]
    · intro j hj
      rw [h2 j hj]
      by_cases hk : ∃ k ∈ is, j / 4 = k.val
      · obtain ⟨k, hk, hjk⟩ := hk
        rw [if_pos ⟨k, hk, hjk⟩, if_pos ⟨k, by simp [hk], hjk⟩]
      · rw [if_neg hk]
        simp only [pendingEffect, programOption_get]
        by_cases hji : j / 4 = i.val
        · rw [if_pos ⟨hji, he j hj ⟨i, by simp, hji⟩⟩, if_pos ⟨i, by simp, hji⟩]
        · rw [if_neg (by simp [hji]), if_neg hji, if_neg]
          rintro ⟨k, hk', hjk⟩
          rcases List.mem_cons.mp hk' with rfl | hk'
          · exact hji hjk
          · exact hk ⟨k, hk', hjk⟩

theorem runStill_option (st : Vector Byte 24) (ts : List Task) (s : State) (fc : Controller) (es : List Event)
    (hm : fc.mode = ModeSet.empty) (hc : Clears 7 s) :
    runStill (optionTasks st ++ ts) (s.ported fc es) =
      runStill ts (({ s.polled 7 with ob := st, draws := s.draws + 6 }).ported fc.afterOption (es ++ optionEvents st)) := by
  have hc' : Clears (1 + 6) s := hc
  obtain ⟨lk, ou, md, ad, sg, si, pb, bz, pd⟩ := fc
  simp only at hm
  subst hm
  unfold optionTasks
  simp only [List.cons_append, List.nil_append, List.append_assoc]
  rw [runStill_port_next rfl, runStill_port_next (fc' := ⟨false, true, .only .optErase, ad, sg, si, pb, bz, pd⟩) rfl,
    runStill_port_next (op := .start) (start_optErase rfl rfl rfl), runStill_wait_clears rfl rfl (hc.mono (by omega)),
    runStill_port_next (fc' := ⟨false, true, .empty, ad, sg, si, pb, false, none⟩) rfl,
    runStill_optionWords st (List.finRange 6) _ (pendingEffect (s.polled 1) .optErase) _ _ rfl rfl rfl rfl rfl
      (hc'.after.of_env rfl), runStill_port_next rfl]
  obtain ⟨ob, h1, h2⟩ := programOptions_eq st (List.finRange 6) (List.nodup_finRange 6)
    ((pendingEffect (s.polled 1) .optErase).polled 6) (by
      intro j hj _
      simp [pendingEffect])
  have hob : ob = st := by
    apply Vector.ext
    intro j hj
    rw [h2 j hj, if_pos ⟨⟨j / 4, by omega⟩, by simp, rfl⟩]
  subst hob
  simp only [List.length_finRange] at h1 ⊢
  rw [h1]
  simp [optionEvents, Controller.afterOption, pendingEffect, State.polled]

end Sys2Proof.Machine
end

