-- ==== Sys2Proof/Laws/Host.lean ====
section
/-! SUPPORT. What the host's turns do to a run of tasks: nothing but take bytes (10_state.md R45, 44_control_loop.md
R297). -/

namespace Sys2Proof.Machine

open Host (Outcome)

/-- A host whose script is used up takes nothing in a whole run. -/
theorem run_still (ts : List Task) : ∀ s : State, s.env.txTake = [] → run ts s = runStill ts s := by
  induction ts with
  | nil => intro s _; rfl
  | cons k ts ih =>
    intro s h
    cases k with
    | port op =>
      simp only [run, runStill, hostTurn_still h]
      cases hp : portOp op s with
      | error f => rfl
      | ok t =>
        obtain ⟨fc, -, rfl⟩ := portOp_ok hp
        exact ih _ h
    | wait =>
      simp only [run, runStill, hostTurn_still h]
      obtain ⟨fl, ob, k, fc, es, ps, hf, -⟩ := pollBusy_frame s
      rcases hp : pollBusy s with ⟨b, t⟩
      rw [hp] at hf
      cases b
      · rfl
      · exact ih t (by rw [show t = _ from hf]; exact h)
    | respond c p => exact ih _ (by rw [respond_eq]; exact h)
    | countdown =>
      simp only [run, runStill, hostTurn_still h]
      refine ih _ ?_
      rcases countdownStep_cases s with ⟨-, hc⟩ | ⟨-, -, hc⟩ | ⟨-, -, hc⟩ <;> rw [hc] <;> exact h

theorem coreEvents_append (es fs : List Event) : coreEvents (es ++ fs) = coreEvents es ++ coreEvents fs :=
  List.filter_append ..

theorem coreEvents_tx (bs : List Byte) : coreEvents (bs.map .tx) = [] := by
  simp [coreEvents, Event.txByte]

theorem txBytes_tx (bs : List Byte) : (bs.map Event.tx).filterMap Event.txByte = bs := by
  have : Event.txByte ∘ Event.tx = some := rfl
  rw [List.filterMap_map, this, List.filterMap_some]

theorem UpToHost.refl (s : State) : UpToHost s s s :=
  ⟨[], 0, by simp, Nat.zero_le _, by simp [coreEvents], rfl, List.suffix_rfl⟩

/-- A turn of the host. -/
theorem UpToHost.hostTurn {b u t : State} (h : UpToHost b u t) : UpToHost b u (hostTurn t) := by
  obtain ⟨es, k, ht, hk, h1, h2, h3⟩ := h
  unfold Machine.hostTurn
  split
  · exact ⟨es, k, ht, hk, h1, h2, h3⟩
  · rename_i n ns hn
    have htx : t.tx = u.tx.drop k := by rw [ht]
    have htr : t.trace = b.trace ++ es := by rw [ht]
    refine ⟨es ++ (t.tx.take n).map .tx, min (k + n) u.tx.length, ?_, Nat.min_le_right _ _, ?_, ?_, ?_⟩
    · have hd : t.tx.drop n = u.tx.drop (min (k + n) u.tx.length) := by
        rw [htx, List.drop_drop]
        by_cases hl : k + n ≤ u.tx.length
        · rw [Nat.min_eq_left hl]
        · rw [Nat.min_eq_right (by omega), List.drop_length, List.drop_eq_nil_of_le (by omega)]
      rw [hd, htr, List.append_assoc]
      rw [ht]
    · rw [h1, coreEvents_append, coreEvents_tx, List.append_nil]
    · rw [List.filterMap_append, txBytes_tx, h2, htx, ← List.take_add]
      by_cases hl : k + n ≤ u.tx.length
      · rw [Nat.min_eq_left hl]
      · rw [Nat.min_eq_right (by omega), List.take_length, List.take_of_length_le (by omega)]
    · rw [hn] at h3
      exact (List.suffix_cons n ns).trans h3

/-- An action of the core that does not look at what the host can touch, logs core events only, and appends to the FIFO
(bytes `r`, events `cs`). -/
theorem UpToHost.act {b u t u' t' : State} {cs : List Event} {r : List Byte} (h : UpToHost b u t)
    (hu : u'.tx = u.tx ++ r ∧ u'.trace = u.trace ++ cs ∧ u'.env.txTake = u.env.txTake)
    (ht : t' = { u' with tx := t.tx ++ r, trace := t.trace ++ cs, env := { u'.env with txTake := t.env.txTake } })
    (hc : coreEvents cs = cs) : UpToHost b u' t' := by
  obtain ⟨es, k, he, hk, h1, h2, h3⟩ := h
  have htx : t.tx = u.tx.drop k := by rw [he]
  have htr : t.trace = b.trace ++ es := by rw [he]
  have hb : cs.filterMap Event.txByte = [] := by
    rw [List.filterMap_eq_nil_iff]
    intro e he
    rw [← hc] at he
    simpa [coreEvents] using (List.mem_filter.mp he).2
  refine ⟨es ++ cs, k, ?_, ?_, ?_, ?_, ?_⟩
  · rw [ht, htx, htr, hu.1, List.drop_append_of_le_length hk, List.append_assoc]
  · rw [hu.1, List.length_append]; omega
  · rw [hu.2.1, h1, coreEvents_append, hc, List.append_assoc]
  · rw [List.filterMap_append, hb, List.append_nil, h2, hu.1, List.take_append_of_le_length hk]
  · rw [ht, hu.2.2]; exact h3

/-- `u` with the FIFO, the trace and the host's script replaced: all that the host's turns can touch. -/
def State.retaken (u : State) (tx : List Byte) (tr : List Event) (ns : List Nat) : State :=
  { u with tx := tx, trace := tr, env := { u.env with txTake := ns } }

theorem complete_retaken (u : State) (tx : List Byte) (tr : List Event) (ns : List Nat) :
    (u.retaken tx tr ns).complete = u.complete.retaken tx tr ns := by
  unfold State.complete State.retaken
  cases u.fc.pending with
  | none => rfl
  | some e => cases e <;> simp only [pendingEffect]

/-- A visit of WaitNotBusy does not look at what the host can touch, and logs at most its own event. -/
theorem pollBusy_retaken (u : State) :
    ∃ cs, coreEvents cs = cs ∧ (pollBusy u).2.tx = u.tx ∧ (pollBusy u).2.trace = u.trace ++ cs ∧
      (pollBusy u).2.env.txTake = u.env.txTake ∧
      ∀ tx tr ns, pollBusy (u.retaken tx tr ns) = ((pollBusy u).1, (pollBusy u).2.retaken tx (tr ++ cs) ns) := by
  have hf (v : State) : v.complete.tx = v.tx ∧ v.complete.trace = v.trace ∧ v.complete.env = v.env := by
    obtain ⟨fl, ob, k, h⟩ := complete_frame v
    rw [h]; exact ⟨rfl, rfl, rfl⟩
  unfold pollBusy
  cases hb : u.fc.busy with
  | false => exact ⟨[.waitNotBusy], rfl, rfl, rfl, rfl, fun tx tr ns => by simp [State.retaken, State.log, hb]⟩
  | true =>
    cases hp : u.env.fcPolls with
    | nil =>
      obtain ⟨h1, h2, h3⟩ := hf u
      refine ⟨[.waitNotBusy], rfl, ?_⟩
      simp only [if_true, State.log_tx, State.log_trace, State.log_env, h1, h2, h3, true_and]
      intro tx tr ns
      rw [if_pos (show (u.retaken tx tr ns).fc.busy = true from hb),
        show (u.retaken tx tr ns).env.fcPolls = [] from hp]
      simp only [complete_retaken]
      rfl
    | cons q ps =>
      cases q with
      | clears =>
        obtain ⟨h1, h2, h3⟩ := hf { u with env := { u.env with fcPolls := ps } }
        refine ⟨[.waitNotBusy], rfl, ?_⟩
        simp only [if_true, State.log_tx, State.log_trace, State.log_env, h1, h2, h3, true_and]
        intro tx tr ns
        rw [if_pos (show (u.retaken tx tr ns).fc.busy = true from hb),
          show (u.retaken tx tr ns).env.fcPolls = .clears :: ps from hp]
        have := complete_retaken { u with env := { u.env with fcPolls := ps } } tx tr ns
        unfold State.retaken at this ⊢
        simp only at this ⊢
        rw [this]
        rfl
      | busy =>
        refine ⟨[], rfl, rfl, by simp, rfl, fun tx tr ns => ?_⟩
        rw [if_pos (show (u.retaken tx tr ns).fc.busy = true from hb),
          show (u.retaken tx tr ns).env.fcPolls = .busy :: ps from hp, List.append_nil]
        rfl
      | never =>
        refine ⟨[], rfl, rfl, by simp, rfl, fun tx tr ns => ?_⟩
        rw [if_pos (show (u.retaken tx tr ns).fc.busy = true from hb),
          show (u.retaken tx tr ns).env.fcPolls = .never :: ps from hp, List.append_nil]
        rfl

theorem UpToHost.eq_retaken {b u t : State} (h : UpToHost b u t) : t = u.retaken t.tx t.trace t.env.txTake := by
  obtain ⟨es, k, ht, -⟩ := h
  unfold State.retaken
  rw [show t.tx = u.tx.drop k by rw [ht], show t.trace = b.trace ++ es by rw [ht]]
  exact ht

section fields
variable {b u t : State} (h : UpToHost b u t)
include h

theorem UpToHost.dec_eq : t.dec = u.dec := by rw [h.eq_retaken]; rfl
theorem UpToHost.silent_eq : t.silent = u.silent := by rw [h.eq_retaken]; rfl
theorem UpToHost.ob_eq : t.ob = u.ob := by rw [h.eq_retaken]; rfl
theorem UpToHost.flash_eq : t.flash = u.flash := by rw [h.eq_retaken]; rfl
theorem UpToHost.fc_eq : t.fc = u.fc := by rw [h.eq_retaken]; rfl
theorem UpToHost.bootMode_eq : t.bootMode = u.bootMode := by rw [h.eq_retaken]; rfl
theorem UpToHost.countdown_eq : t.countdown = u.countdown := by rw [h.eq_retaken]; rfl
theorem UpToHost.lastSync_eq : t.lastSync = u.lastSync := by rw [h.eq_retaken]; rfl
theorem UpToHost.handedOff_eq : t.handedOff = u.handedOff := by rw [h.eq_retaken]; rfl
theorem UpToHost.work_eq : t.work = u.work := by rw [h.eq_retaken]; rfl
theorem UpToHost.ret_eq : t.ret = u.ret := by rw [h.eq_retaken]; rfl
theorem UpToHost.par_eq : t.par = u.par := by rw [h.eq_retaken]; rfl
theorem UpToHost.draws_eq : t.draws = u.draws := by rw [h.eq_retaken]; rfl
theorem UpToHost.rxIn_eq : t.env.rxIn = u.env.rxIn := by rw [h.eq_retaken]; rfl
theorem UpToHost.fcPolls_eq : t.env.fcPolls = u.env.fcPolls := by rw [h.eq_retaken]; rfl

end fields

/-- A visit of WaitNotBusy after the same history of the core. -/
theorem UpToHost.pollBusy {b u t : State} (h : UpToHost b u t) :
    (Machine.pollBusy t).1 = (Machine.pollBusy u).1 ∧ UpToHost b (Machine.pollBusy u).2 (Machine.pollBusy t).2 := by
  obtain ⟨cs, h0, h1, h2, h3, h4⟩ := pollBusy_retaken u
  have ht : Machine.pollBusy t = _ := (congrArg Machine.pollBusy h.eq_retaken).trans (h4 _ _ _)
  rw [ht]
  exact ⟨rfl, h.act (r := []) ⟨by rw [h1, List.append_nil], h2, h3⟩ (by rw [List.append_nil]; rfl) h0⟩

theorem UpToHost.portOp {b u t : State} {op : FlashOp} {fc : Controller} (h : UpToHost b u t)
    (hp : u.fc.port u.par op = .ok fc) :
    Machine.portOp op t = .ok (t.ported fc [.flash op]) ∧
      UpToHost b (u.ported fc [.flash op]) (t.ported fc [.flash op]) := by
  have ht := h.eq_retaken
  have hpt : t.fc.port t.par op = .ok fc := by rw [ht]; exact hp
  refine ⟨by simp only [Machine.portOp, hpt], h.act (r := []) (cs := [.flash op]) ⟨?_, rfl, rfl⟩ ?_ rfl⟩
  · rw [List.append_nil]; rfl
  · conv_lhs => rw [ht]
    rw [List.append_nil]; rfl

theorem UpToHost.respond {b u t : State} (h : UpToHost b u t) (c : Byte) (p : List Byte) :
    UpToHost b (Machine.respond c p u) (Machine.respond c p t) := by
  have ht := h.eq_retaken
  rw [respond_eq c p u, respond_eq c p t]
  refine h.act (cs := []) ⟨rfl, by rw [List.append_nil], rfl⟩ ?_ rfl
  rw [List.append_nil]
  conv_lhs => rw [ht]
  rfl

theorem UpToHost.work {b u t : State} (h : UpToHost b u t) (w : List Task) :
    UpToHost b { u with work := w } { t with work := w } := by
  have ht := h.eq_retaken
  refine h.act (r := []) (cs := []) ⟨by simp, by simp, rfl⟩ ?_ rfl
  rw [List.append_nil, List.append_nil]
  conv_lhs => rw [ht]
  rfl

/-- A run of an operation's tasks is the run without the host's turns, up to what the host takes meanwhile. Part (c) of
an iteration is no such task: it looks at the FIFO. -/
theorem run_upToHost (ts : List Task) (hc : Task.countdown ∉ ts) : ∀ b u t : State, UpToHost b u t →
    match runStill ts u with
    | .next u' => ∃ t', run ts t = .next t' ∧ UpToHost b u' t'
    | .fault f => run ts t = .fault f
    | .refused r => run ts t = .refused r := by
  induction ts with
  | nil => intro b u t h; exact ⟨_, rfl, h.work []⟩
  | cons k ts ih =>
    intro b u t h
    have hc' : Task.countdown ∉ ts := fun hm => hc (List.mem_cons_of_mem _ hm)
    cases k with
    | port op =>
      cases hp : u.fc.port u.par op with
      | error f =>
        have hpt : (hostTurn t).fc.port (hostTurn t).par op = .error f := by rw [h.hostTurn.eq_retaken]; exact hp
        simp only [runStill, run, Machine.portOp, hp, hpt]
      | ok fc =>
        obtain ⟨h1, h2⟩ := h.hostTurn.portOp hp
        rw [runStill_port hp, run_port h1]
        exact ih hc' b _ _ h2
    | wait =>
      obtain ⟨h1, h2⟩ := h.hostTurn.pollBusy
      rcases hu : Machine.pollBusy u with ⟨c, u'⟩
      rcases ht : Machine.pollBusy (hostTurn t) with ⟨d, t'⟩
      rw [hu, ht] at h1 h2
      subst h1
      cases d
      · rw [runStill_wait_held hu, run_wait_held ht]
        exact ⟨_, rfl, h2.work _⟩
      · rw [runStill_wait hu, run_wait ht]
        exact ih hc' b _ _ h2
    | respond c p => exact ih hc' b _ _ (h.respond c p)
    | countdown => exact absurd (List.mem_cons_self ..) hc

theorem run_of_still {ts : List Task} {s u : State} (hc : Task.countdown ∉ ts) (h : runStill ts s = .next u) :
    ∃ t, run ts s = .next t ∧ UpToHost s u t := by
  have := run_upToHost ts hc s s s (.refl s)
  rwa [h] at this

theorem run_of_still_fault {ts : List Task} {s : State} {f : Fault} (hc : Task.countdown ∉ ts)
    (h : runStill ts s = .fault f) : run ts s = .fault f := by
  have := run_upToHost ts hc s s s (.refl s)
  rwa [h] at this

end Sys2Proof.Machine
end

