-- ==== Sys2Proof/Laws/Loop.lean ====
section
/-! SUPPORT. Commands as plans, and the cases of a step (43_dispatcher.md R230, 44_control_loop.md R290). -/

namespace Sys2Proof.Machine

open Host (Outcome)

/-- The meaning of a wire command is its plan, carried out. -/
theorem exec_request {i : Instr} (h : i.request?.isSome) (s : State) : exec i s = atRest s (runPlan (requestPlan i s)) := by
  cases i <;> first
    | rfl
    | simp [Instr.request?] at h

/-- A dropped request leaves the whole state as it is (R237). -/
theorem runPlan_dropped {s : State} (h : Ready s) : runPlan (dropped s) = .next s := by
  have : { s with work := [] } = s := by rw [← h.2]
  simp only [dropped, runPlan, run_nil, this]

/-- Only wire commands come out of a packet. -/
theorem requestInstr_isSome {p : Params} {cmd : Byte} {dst : Addr} {d : List Byte} {i : Instr}
    (h : requestInstr p cmd dst d = some i) : i.request?.isSome := by
  unfold requestInstr at h
  cases hc : p.cmdOf cmd with
  | none => simp [hc] at h
  | some c =>
    simp only [hc, Option.map_some, Option.some.injEq] at h
    subst h
    cases c <;> rfl

/-- The four fields part (a) of an iteration reads or writes are the only ones it changes. -/
theorem activityPoll_frame (s : State) :
    ∃ l m, activityPoll s = { s with lastSync := l, bootMode := m } := by
  unfold activityPoll
  split
  · exact ⟨_, _, rfl⟩
  · exact ⟨s.lastSync, s.bootMode, rfl⟩

/-- A step that answers a next state, in a run of the machine. -/
theorem core_run_succ {n : Nat} {s t : State} (h : step s = .next t) :
    Sys2Proof.core.run (n + 1) s = Sys2Proof.core.run n t := by
  have h' : Sys2Proof.core.step s = .next t := h
  simp only [Host.Core.run, h']

/-- A step of a core at rest is a loop iteration after the host's turn. -/
theorem step_ready {s : State} (h : Ready s) : step s = runPlan (iteration (hostTurn s)) := by
  obtain ⟨tx, es, ns, e, -⟩ := hostTurn_frame s
  have h1 : (hostTurn s).work = [] := by rw [e]; exact h.2
  have h2 : (hostTurn s).handedOff = false := by rw [e]; exact h.1
  unfold step stepWith
  simp only [h.1, h1, if_true]
  rw [if_neg (by simp)]
  exact atRest_ready ⟨h2, h1⟩

/-! `work` is not looked at while tasks run. -/

theorem complete_work (s : State) (w : List Task) : { s with work := w }.complete = { s.complete with work := w } := by
  unfold State.complete
  cases h : s.fc.pending with
  | none => simp only
  | some e => cases e <;> simp only [pendingEffect]

theorem pollBusy_work (s : State) (w : List Task) :
    pollBusy { s with work := w } = ((pollBusy s).1, { (pollBusy s).2 with work := w }) := by
  unfold pollBusy
  dsimp only
  cases hb : s.fc.busy with
  | false => simp only [Bool.false_eq_true, if_false, State.log]
  | true =>
    simp only [if_true]
    cases hp : s.env.fcPolls with
    | nil => simp only [complete_work, State.log]
    | cons q qs =>
      cases q with
      | clears =>
        have := complete_work { s with env := { s.env with fcPolls := qs } } w
        simp only at this
        simp only [this, State.log]
      | busy => rfl
      | never => rfl

theorem respond_work (c : Byte) (p : List Byte) (s : State) (w : List Task) :
    respond c p { s with work := w } = { respond c p s with work := w } := by
  unfold respond; simp only; split <;> rfl

theorem countdownStep_work (s : State) (w : List Task) :
    countdownStep { s with work := w } = { countdownStep s with work := w } := by
  unfold countdownStep
  cases h : s.bootMode <;> simp only [h]
  · split <;> rfl
  · split <;> rfl

theorem hostTurn_work (s : State) (w : List Task) :
    hostTurn { s with work := w } = { hostTurn s with work := w } := by
  unfold hostTurn
  cases s.env.txTake <;> simp only

theorem portOp_work (op : FlashOp) (s : State) (w : List Task) :
    portOp op { s with work := w } = (portOp op s).map fun t => { t with work := w } := by
  unfold portOp
  cases s.fc.port s.par op <;> simp only <;> rfl

theorem run_work (w : List Task) (ts : List Task) : ∀ s : State, run ts { s with work := w } = run ts s := by
  induction ts with
  | nil => intro s; rfl
  | cons k ts ih =>
    intro s
    cases k with
    | port op =>
      simp only [run, hostTurn_work, portOp_work]
      cases portOp op (hostTurn s) with
      | error f => rfl
      | ok t => exact ih t
    | wait =>
      simp only [run, hostTurn_work, pollBusy_work]
      rcases pollBusy (hostTurn s) with ⟨b, t⟩
      cases b
      · rfl
      · exact ih t
    | respond c p => simp only [run, respond_work, ih]
    | countdown => simp only [run, hostTurn_work, countdownStep_work, ih]

/-- Tasks after others are run when the others have all been done. -/
theorem run_append (as bs : List Task) : ∀ s : State,
    run (as ++ bs) s =
      match run as s with
      | .next t => if t.work = [] then run bs t else .next { t with work := t.work ++ bs }
      | .fault f => .fault f
      | .refused r => .refused r := by
  induction as with
  | nil => intro s; simp [run_work]
  | cons k as ih =>
    intro s
    cases k with
    | port op =>
      simp only [List.cons_append, run]
      cases portOp op (hostTurn s) with
      | error f => rfl
      | ok t => exact ih t
    | wait =>
      simp only [List.cons_append, run]
      rcases pollBusy (hostTurn s) with ⟨b, t⟩
      cases b
      · simp
      · exact ih t
    | respond c p => exact ih _
    | countdown => exact ih _

end Sys2Proof.Machine
end

