-- ==== Sys2Proof/Laws/PerInstr.lean ====
section
/-! SUPPORT. The length of every instruction's encoding, per instruction (30_encoding.md R90, R99). -/

namespace Sys2Proof.Laws.EncodedLength

open Sys2Proof.Machine

/-- A wire command is a frame of 12 bytes, its ADDRESS (one byte or eight) and its DATA, and its LENGTH field counts
the DATA exactly (R97); a header byte stands after five preambles; a port operation has no encoding. -/
def Statement (i : Instr) : Prop :=
  i.wellFormed = true → ∀ (p : Params),
    (∀ c dst d, i.request? = some (c, dst, d) →
      ∃ bytes, encode p i = some bytes ∧ bytes.length = 12 + dst.bytes.length + d.length ∧
        bytes.getD (7 + dst.bytes.length) 0 = BitVec.ofNat 8 d.length ∧ (BitVec.ofNat 8 d.length).toNat = d.length) ∧
    (∀ h, i.headerByte? = some h → encode p i = some (preambles ++ [h])) ∧
    (i.request? = none → i.headerByte? = none → encode p i = none)

theorem frame (cmd : Byte) (dst : Addr) (d : List Byte) (hd : d.length ≤ 255) :
    (requestFrame cmd dst d).length = 12 + dst.bytes.length + d.length ∧
    (requestFrame cmd dst d).getD (7 + dst.bytes.length) 0 = BitVec.ofNat 8 d.length ∧
    (BitVec.ofNat 8 d.length).toNat = d.length := by
  have e : requestFrame cmd dst d = (preambles ++ dst.requestHeader :: (dst.bytes ++ [cmd])) ++
      BitVec.ofNat 8 d.length :: (d ++ bytesLe32 (crcCalc (frameBody dst.requestHeader dst.bytes cmd d))) := by
    simp [requestFrame, frameOf, frameBody]
  generalize crcCalc (frameBody dst.requestHeader dst.bytes cmd d) = w at e
  have hp : (preambles ++ dst.requestHeader :: (dst.bytes ++ [cmd])).length = 7 + dst.bytes.length := by
    simp [preambles, Config.preambleLen]; omega
  refine ⟨?_, ?_, ?_⟩
  · rw [e, List.length_append, hp]; simp; omega
  · rw [e, List.getD_eq_getElem?_getD, List.getElem?_append_right (by omega), hp, Nat.sub_self]; rfl
  · rw [BitVec.toNat_ofNat, Nat.mod_eq_of_lt (by omega)]

/-- The statement for a wire command. -/
theorem command {i : Instr} {c : Cmd} {dst : Addr} {d : List Byte} (hr : i.request? = some (c, dst, d))
    (hh : i.headerByte? = none) (hw : i.wellFormed = payloadOk d) : Statement i := by
  intro h p
  rw [hw] at h
  have hd : d.length ≤ 255 := by simpa [payloadOk] using h
  refine ⟨?_, by simp [hh], by simp [hr]⟩
  intro c' dst' d' hr'
  rw [hr] at hr'
  cases hr'
  exact ⟨_, by simp only [encode, hr], frame (p.opcode c) dst d hd⟩

/-- The statement for a header row. -/
theorem header {i : Instr} {h : Byte} (hr : i.request? = none) (hh : i.headerByte? = some h) : Statement i := by
  intro _ p
  refine ⟨by simp [hr], ?_, by simp [hh]⟩
  intro h' hh'
  rw [hh] at hh'
  cases hh'
  simp only [encode, hr, hh]

/-- The statement for a port operation. -/
theorem port {i : Instr} (hr : i.request? = none) (hh : i.headerByte? = none) : Statement i := by
  intro _ p
  exact ⟨by simp [hr], by simp [hh], fun _ _ => by simp only [encode, hr, hh]⟩

theorem info (dst : Addr) (d : List Byte) : Statement (.info dst d) := command rfl rfl rfl
theorem getChip (dst : Addr) (d : List Byte) : Statement (.getChip dst d) := command rfl rfl rfl
theorem getId (dst : Addr) (d : List Byte) : Statement (.getId dst d) := command rfl rfl rfl
theorem silent (dst : Addr) (d : List Byte) : Statement (.silent dst d) := command rfl rfl rfl
theorem unsilent (dst : Addr) (d : List Byte) : Statement (.unsilent dst d) := command rfl rfl rfl
theorem go (dst : Addr) (d : List Byte) : Statement (.go dst d) := command rfl rfl rfl
theorem erase (dst : Addr) (d : List Byte) : Statement (.erase dst d) := command rfl rfl rfl
theorem write (dst : Addr) (d : List Byte) : Statement (.write dst d) := command rfl rfl rfl
theorem getCrc32 (dst : Addr) (d : List Byte) : Statement (.getCrc32 dst d) := command rfl rfl rfl
theorem getNodeId (dst : Addr) (d : List Byte) : Statement (.getNodeId dst d) := command rfl rfl rfl
theorem setNodeId (dst : Addr) (d : List Byte) : Statement (.setNodeId dst d) := command rfl rfl rfl
theorem hdrReq : Statement .hdrReq := header rfl rfl
theorem hdrResp : Statement .hdrResp := header rfl rfl
theorem hdrReql : Statement .hdrReql := header rfl rfl
theorem hdrRespl : Statement .hdrRespl := header rfl rfl
theorem crcInit (acc : Acc) : Statement (.crcInit acc) := port rfl rfl
theorem crcUpdate (acc : Acc) (bytes : List Byte) : Statement (.crcUpdate acc bytes) := port rfl rfl
theorem crcFinalize (acc : Acc) : Statement (.crcFinalize acc) := port rfl rfl
theorem crcCalc (bytes : List Byte) : Statement (.crcCalc bytes) := port rfl rfl
theorem decoderStep (b : Byte) : Statement (.decoderStep b) := port rfl rfl
theorem serialize (node cmd : Byte) (data : List Byte) (len : Byte) : Statement (.serialize node cmd data len) := port rfl rfl
theorem erasePage (a : Word) : Statement (.erasePage a) := port rfl rfl
theorem writePage (a : Word) (d : Vector Byte 64) : Statement (.writePage a d) := port rfl rfl
theorem writeOptionByte (k : Fin 24) (v : Byte) : Statement (.writeOptionByte k v) := port rfl rfl
theorem loopIteration : Statement .loopIteration := port rfl rfl

end Sys2Proof.Laws.EncodedLength
end

