-- ==== Sys2Proof/Laws/Safety.lean ====
section
/-! SUPPORT. The pieces of the invariant of Safety.lean, operation by operation: the controller's discipline along the
sequences, the flash array's form, the decoder's fields. -/

namespace Sys2Proof.Machine

/-! ### The controller -/

/-- A port operation keeps busy and the pending effect, or sets both with an admitted effect. -/
theorem port_ok {p : Params} {fc fc' : Controller} {op : FlashOp} (h : fc.port p op = .ok fc') :
    (fc'.busy = fc.busy ∧ fc'.pending = fc.pending) ∨
    ∃ e, fc'.busy = true ∧ fc'.pending = some e ∧ pendingOk p (some e) = true := by
  cases op <;> simp only [Controller.port] at h
  case start =>
    obtain ⟨e, rfl, he⟩ := start_ok h
    exact .inr ⟨e, rfl, rfl, he⟩
  case stageWord =>
    split at h <;> cases h
    exact .inl ⟨rfl, rfl⟩
  case bufferLoad =>
    split at h <;> cases h
    exact .inr ⟨_, rfl, rfl, rfl⟩
  case obWriteWord =>
    split at h <;> cases h
    exact .inr ⟨_, rfl, rfl, rfl⟩
  all_goals cases h; exact .inl ⟨rfl, rfl⟩

theorem controllerOk_port {p : Params} {fc fc' : Controller} {op : FlashOp} {ts : List Task}
    (h : fc.port p op = .ok fc') : controllerOk p fc (.port op :: ts) = controllerOk p fc' ts := by
  simp only [controllerOk, h]

theorem controllerOk_wait {p : Params} {fc : Controller} {ts : List Task} :
    controllerOk p fc (.wait :: ts) = controllerOk p (if fc.busy then fc.complete else fc) ts := rfl

theorem controllerOk_wait_busy {p : Params} {fc : Controller} {e : Pending} {ts : List Task} :
    controllerOk p (fc.await e) (.wait :: ts) = controllerOk p (fc.await e).complete ts := rfl

theorem controllerOk_erasePage (p : Params) (a : Word) (ts : List Task) (fc : Controller) (hm : fc.mode = ModeSet.empty) :
    controllerOk p fc (erasePageTasks a ++ ts) = (!pageOk p a || controllerOk p (fc.afterErase a) ts) := by
  obtain ⟨lk, ou, md, ad, sg, si, pb, bz, pd⟩ := fc
  simp only at hm
  subst hm
  unfold erasePageTasks
  simp only [List.cons_append, List.nil_append]
  rw [controllerOk_port rfl, controllerOk_port (fc' := ⟨false, ou, .only .pageErase, ad, sg, si, pb, bz, pd⟩) rfl,
    controllerOk_port (fc' := ⟨false, ou, .only .pageErase, a, sg, si, pb, bz, pd⟩) rfl]
  have hs := start_pageErase (p := p) (fc := ⟨false, ou, .only .pageErase, a, sg, si, pb, bz, pd⟩) rfl rfl
  cases hp : pageOk p a with
  | false =>
    rw [if_neg (by simp [hp])] at hs
    simp [controllerOk, Controller.port, hs]
  | true =>
    rw [if_pos hp] at hs
    rw [controllerOk_port (op := .start) hs, controllerOk_wait_busy,
      controllerOk_port (fc' := ⟨false, ou, .empty, a, sg, si, pb, false, none⟩) rfl]
    rfl

theorem controllerOk_loadWords (p : Params) (d : Vector Byte 64) (is : List (Fin 16)) :
    ∀ (ts : List Task) (fc : Controller), fc.mode = ModeSet.empty →
      controllerOk p fc (is.flatMap (loadWordTasks d) ++ ts) = controllerOk p (is.foldl (Controller.loadWord d) fc) ts := by
  induction is with
  | nil => intro ts fc _; rfl
  | cons i is ih =>
    intro ts fc hm
    rw [List.flatMap_cons, List.append_assoc, List.foldl_cons, ← ih ts (fc.loadWord d i) rfl]
    obtain ⟨lk, ou, md, ad, sg, si, pb, bz, pd⟩ := fc
    simp only at hm
    subst hm
    unfold loadWordTasks
    simp only [List.cons_append, List.nil_append]
    rw [controllerOk_port (fc' := ⟨lk, ou, .only .pageProgram, ad, sg, si, pb, bz, pd⟩) rfl,
      controllerOk_port (port_stageWord _ _ rfl), controllerOk_port (port_bufferLoad rfl), controllerOk_wait_busy,
      controllerOk_port rfl]
    rfl

theorem controllerOk_writePage (p : Params) (a : Word) (d : Vector Byte 64) (ts : List Task) (fc : Controller)
    (hm : fc.mode = ModeSet.empty) :
    controllerOk p fc (writePageTasks a d ++ ts) = (!pageOk p a || controllerOk p (fc.afterProgram a d) ts) := by
  obtain ⟨lk, ou, md, ad, sg, si, pb, bz, pd⟩ := fc
  simp only at hm
  subst hm
  unfold writePageTasks
  simp only [List.cons_append, List.nil_append, List.append_assoc]
  rw [controllerOk_port rfl, controllerOk_port rfl, controllerOk_loadWords p d _ _ _ rfl,
    show (List.finRange 16).foldl (Controller.loadWord d) _ =
      Controller.loaded ⟨lk, ou, .empty, ad, sg, si, pb, bz, pd⟩ d from rfl, loaded_eq]
  rw [controllerOk_port (op := .setMode .pageProgram)
      (fc' := ⟨false, ou, .only .pageProgram, ad, pageWord d 15, 15, (pageWords d).map some, false, none⟩) rfl,
    controllerOk_port (op := .writeAddr a)
      (fc' := ⟨false, ou, .only .pageProgram, a, pageWord d 15, 15, (pageWords d).map some, false, none⟩) rfl]
  have hs := start_pageProgram (p := p)
    (fc := ⟨false, ou, .only .pageProgram, a, pageWord d 15, 15, (pageWords d).map some, false, none⟩) rfl rfl
    (bufferWords_map_some _)
  cases hp : pageOk p a with
  | false =>
    rw [if_neg (by simp [hp])] at hs
    have hs' : Controller.port p ⟨false, ou, .only .pageProgram, a, pageWord d 15, 15, (pageWords d).map some, false, none⟩
      .start = .error .unmodelledFlashAddress := hs
    simp only [controllerOk, hs']
    rfl
  | true =>
    rw [if_pos hp] at hs
    rw [controllerOk_port (op := .start) hs, controllerOk_wait_busy, controllerOk_port rfl]
    rfl

theorem controllerOk_optionWords (p : Params) (st : Vector Byte 24) (is : List (Fin 6)) :
    ∀ (ts : List Task) (fc : Controller), fc.mode = ModeSet.empty → fc.locked = false → fc.obUnlocked = true →
      fc.busy = false → fc.pending = none →
      controllerOk p fc (is.flatMap (optionWordTasks st) ++ ts) = controllerOk p fc ts := by
  induction is with
  | nil => intro ts fc _ _ _ _ _; rfl
  | cons i is ih =>
    intro ts fc hm hl ho hb hp
    rw [List.flatMap_cons, List.append_assoc, ← ih ts fc hm hl ho hb hp]
    obtain ⟨lk, ou, md, ad, sg, si, pb, bz, pd⟩ := fc
    simp only at hm hl ho hb hp
    subst hm hl ho hb hp
    unfold optionWordTasks
    simp only [List.cons_append, List.nil_append]
    rw [controllerOk_port (fc' := ⟨false, true, .only .optProgram, ad, sg, si, pb, false, none⟩) rfl,
      controllerOk_port (port_obWriteWord _ _ rfl rfl rfl), controllerOk_wait_busy, controllerOk_port rfl]
    rfl

theorem controllerOk_option (p : Params) (st : Vector Byte 24) (ts : List Task) (fc : Controller)
    (hm : fc.mode = ModeSet.empty) :
    controllerOk p fc (optionTasks st ++ ts) = controllerOk p fc.afterOption ts := by
  obtain ⟨lk, ou, md, ad, sg, si, pb, bz, pd⟩ := fc
  simp only at hm
  subst hm
  unfold optionTasks
  simp only [List.cons_append, List.nil_append, List.append_assoc]
  rw [controllerOk_port rfl,
    controllerOk_port (fc' := ⟨false, true, .only .optErase, ad, sg, si, pb, bz, pd⟩) rfl,
    controllerOk_port (op := .start) (start_optErase rfl rfl rfl), controllerOk_wait_busy,
    controllerOk_port (fc' := ⟨false, true, .empty, ad, sg, si, pb, false, none⟩) rfl,
    controllerOk_optionWords p st _ _ _ rfl rfl rfl rfl rfl, controllerOk_port rfl]
  rfl

/-! ### The flash array -/

theorem inFlash_page {p : Params} {a : Word} (h : pageOk p a = true) {x : Nat} (h1 : a.toNat ≤ x)
    (h2 : x < a.toNat + 64) : inFlash p x 1 = true := by
  have h3 : inFlash p a.toNat 64 = true := by
    unfold pageOk at h
    rw [Bool.and_eq_true, Bool.and_eq_true] at h
    exact h.1.2
  simp only [inFlash, decide_eq_true_eq] at h3 ⊢
  omega

/-- An admitted effect keeps the flash array's form and its bounds. -/
theorem flashOk_effect {s : State} {e : Pending} (hf : flashOk s.par s.flash = true)
    (he : pendingOk s.par (some e) = true) : flashOk s.par (pendingEffect s e).flash = true := by
  simp only [flashOk, Bool.and_eq_true, List.all_eq_true] at hf ⊢
  cases e with
  | pageErase a =>
    simp only [pendingEffect]
    refine ⟨Memory.wf_writeBytes _ _ _ hf.1, fun c hc => ?_⟩
    rcases Memory.mem_writeBytes _ _ _ c hc with h | h
    · exact inFlash_page he h.1 (by simpa [Config.pageSize] using h.2)
    · exact hf.2 c h
  | pageProgram a ws =>
    simp only [pendingEffect]
    refine ⟨Memory.wf_program _ _ _ _ hf.1, fun c hc => ?_⟩
    rcases Memory.mem_program _ _ _ _ c hc with h | h
    · have hl : (ws.toList.flatMap bytesLe32).length = 64 := by simp [List.length_flatMap]
      rw [hl] at h
      exact inFlash_page he h.1 h.2
    · exact hf.2 c h
  | optErase => simp only [pendingEffect]; exact hf
  | bufferLoad i w => simp only [pendingEffect]; exact hf
  | obWord i w => simp only [pendingEffect]; exact hf

/-! ### The decoder -/

/-- Every byte keeps the decoder's fields in the ranges of R25, R26 and R27. -/
theorem decoderOk_step (b : Byte) (d : Decoder) (h : decoderOk d = true) : decoderOk (decoderStep b d).2 = true := by
  have hrun := (decoderStep_run b d).1
  have hpre : (decoderStep b d).2.preRun ≤ Config.preambleLen := by rw [hrun]; split <;> simp [Config.preambleLen]
  by_cases hr : Restarts b d
  · rw [decoderStep_restart hr] at hpre ⊢
    simp only [decoderOk, Bool.and_eq_true, decide_eq_true_eq] at *
    refine ⟨hpre, ?_⟩
    simp only [foldCrc, headerStep, addrLenOf]
    split <;> decide
  · rw [decoderStep_plain hr] at hpre ⊢
    simp only [decoderOk, Bool.and_eq_true, decide_eq_true_eq] at h ⊢
    refine ⟨hpre, ?_⟩
    obtain ⟨-, h⟩ := h
    have add_one : ∀ (x y : Byte), x.toNat < y.toNat → x + 1 ≠ y → (x + 1).toNat < y.toNat := by
      intro x y hlt hne
      have hy := y.isLt
      have e : (x + 1).toNat = x.toNat + 1 := by rw [BitVec.toNat_add]; simp; omega
      have : (x + 1).toNat ≠ y.toNat := fun hh => hne (BitVec.eq_of_toNat_eq hh)
      omega
    cases hd : d.dstate <;> simp only [hd] at h <;> simp only [handleByte, counted_dstate, hd, foldCrc]
    · cases h
    · simp only [addressStep, counted_idx, counted_pkt]
      have e : (d.idx + 1).toNat = d.idx.toNat + 1 := by
        rw [BitVec.toNat_add]
        simp at h
        cases hl : d.pkt.addressLength <;> simp [hl, AddrLen.size] at h ⊢ <;> omega
      by_cases hfull : (d.idx + 1).toNat = d.pkt.addressLength.size
      · simp only [if_pos hfull]
      · simp only [if_neg hfull, decide_eq_true_eq] at h ⊢
        omega
    · simp only [commandStep]
    · simp only [lengthStep]
      by_cases hb : b = 0
      · simp [hb]
      · have : 0 < b.toNat := by
          rcases Nat.eq_zero_or_pos b.toNat with h0 | h0
          · exact absurd (BitVec.eq_of_toNat_eq h0) hb
          · exact h0
        rw [if_neg hb]
        simpa using this
    · simp only [dataStep, counted_idx, counted_pkt]
      by_cases hfull : d.idx + 1 = d.pkt.dataLength
      · simp only [hfull, decide_true, if_true]; decide
      · simp only [hfull, decide_false, Bool.false_eq_true, if_false, decide_eq_true_eq] at h ⊢
        exact add_one _ _ h hfull
    · simp only [crcStep, counted_idx, counted_rxCrc]
      by_cases hfull : d.idx + 1 = 4
      · simp only [if_pos hfull]
      · simp only [if_neg hfull, counted_dstate, hd, decide_eq_true_eq] at h ⊢
        exact add_one d.idx 4 h hfull

end Sys2Proof.Machine
end

