-- ==== Sys2Proof/Tests/Slice0.lean ====
section
/-! SUPPORT. The model's own tests, with the test instantiation of 95_test_vectors.md §0, and one witness for the
hypotheses of each statement. Expected values are transcribed from 95_test_vectors.md; each theorem names its vector. -/

namespace Sys2Proof.Tests

set_option Elab.async false

open Sys2Proof.Machine Host

/-! ### The test instantiation -/

/-- 95_test_vectors.md §0. -/
def tp : Params where
  opInfo := 0x01
  opGetChip := 0x02
  opGetId := 0x03
  opSilent := 0x04
  opUnsilent := 0x05
  opGo := 0x06
  opErase := 0x07
  opWrite := 0x08
  opGetCrc32 := 0x09
  opGetNodeId := 0x0A
  opSetNodeId := 0x0B
  blMajor := 1
  blMinor := 2
  chipName := [0x43, 0x48, 0x33, 0x32, 0x56, 0x30, 0x30, 0x33]
  uid := #v[0x01, 0x23, 0x45, 0x67, 0x89, 0xAB, 0xCD, 0xEF]
  nodeIdPos := 0
  fwIdPos := 2
  obBase := 0x1FFFF800
  flashBase := 0x08000000
  flashSize := 0x4000
  unwritable := []
  readable := []
  bootTicks := 100
  goTicks := 3
  backoffUnit := 1

def tob : Vector Byte 24 :=
  #v[0x12, 0xED, 0x34, 0xCB, 0xFF, 0xFF, 0xFF, 0xFF, 0xFF, 0xFF, 0xFF, 0xFF, 0xFF, 0xFF, 0xFF, 0xFF, 0xFF, 0xFF, 0xFF,
    0xFF, 0xFF, 0xFF, 0xFF, 0xFF]

/-- The test chip after reset. -/
def s0 : State := State.launch tp [] tob

/-- Five preambles, the start of every frame of 95_test_vectors.md. -/
def pre : List Byte := [0x7F, 0x7F, 0x7F, 0x7F, 0x7F]

def me : Addr := .short 0x12
def all : Addr := .short 0xFF
def myUid : Addr := .long #v[0x01, 0x23, 0x45, 0x67, 0x89, 0xAB, 0xCD, 0xEF]

/-- The page of program P2. -/
def page : Vector Byte 64 := Vector.ofFn fun i => BitVec.ofNat 8 (0x60 + i.val)

/-- The payload of program P2's WRITE, written out. -/
def writePayload : List Byte :=
  [0x34, 0x30, 0x10, 0xD1, 0xD0, 0xD8,
   0x30, 0x31, 0x32, 0x33, 0x34, 0x35, 0x36, 0x37, 0x38, 0x39, 0x3A, 0x3B, 0x3C, 0x3D, 0x3E, 0x3F,
   0x40, 0x41, 0x42, 0x43, 0x44, 0x45, 0x46, 0x47, 0x48, 0x49, 0x4A, 0x4B, 0x4C, 0x4D, 0x4E, 0x4F,
   0x50, 0x51, 0x52, 0x53, 0x54, 0x55, 0x56, 0x57, 0x58, 0x59, 0x5A, 0x5B, 0x5C, 0x5D, 0x5E, 0x5F,
   0x60, 0x61, 0x62, 0x63, 0x64, 0x65, 0x66, 0x67, 0x68, 0x69, 0x6A, 0x6B, 0x6C, 0x6D, 0x6E, 0x6F]

/-- One field of the next state, if there is one. -/
def look {α : Type} (f : State → α) : Outcome State Fault Refusal → Option α
  | .next t => some (f t)
  | .fault _ => none
  | .refused _ => none

def faultOf : Outcome State Fault Refusal → Option Fault
  | .next _ => none
  | .fault f => some f
  | .refused _ => none

def refusalOf : Outcome State Fault Refusal → Option Refusal
  | .next _ => none
  | .fault _ => none
  | .refused r => some r

def errorOf : Except DecodeError Instr → Option DecodeError
  | .ok _ => none
  | .error e => some e

theorem next_of_look {o : Outcome State Fault Refusal} (h : (look (fun _ => ()) o).isSome = true) : ∃ t, o = .next t := by
  cases o with
  | next t => exact ⟨t, rfl⟩
  | fault f => cases h
  | refused r => cases h

/-! ### WellFormed -/

def long256 : List Byte := List.replicate 256 0

theorem test_wf_info : (Instr.info me long256).wellFormed = false := by decide +kernel
theorem test_wf_getChip : (Instr.getChip me long256).wellFormed = false := by decide +kernel
theorem test_wf_getId : (Instr.getId me long256).wellFormed = false := by decide +kernel
theorem test_wf_silent : (Instr.silent me long256).wellFormed = false := by decide +kernel
theorem test_wf_unsilent : (Instr.unsilent me long256).wellFormed = false := by decide +kernel
theorem test_wf_go : (Instr.go me long256).wellFormed = false := by decide +kernel
theorem test_wf_erase : (Instr.erase me long256).wellFormed = false := by decide +kernel
theorem test_wf_write : (Instr.write me long256).wellFormed = false := by decide +kernel
theorem test_wf_getCrc32 : (Instr.getCrc32 me long256).wellFormed = false := by decide +kernel
theorem test_wf_getNodeId : (Instr.getNodeId me long256).wellFormed = false := by decide +kernel
theorem test_wf_setNodeId : (Instr.setNodeId me long256).wellFormed = false := by decide +kernel
theorem test_wf_serialize : (Instr.serialize 0 0 [1, 2] 3).wellFormed = false := by decide
theorem test_wf_longest : (Instr.write me (List.replicate 255 0)).wellFormed = true := by decide +kernel
theorem test_wf_params : tp.wf = true := by decide +kernel

/-! ### Decoding of words written out in the spec -/

theorem test_decode_hdrReq : (decode tp (pre ++ [0x80])).toOption = some .hdrReq := by decide +kernel
theorem test_decode_hdrResp : (decode tp (pre ++ [0x81])).toOption = some .hdrResp := by decide +kernel
theorem test_decode_hdrReql : (decode tp (pre ++ [0x82])).toOption = some .hdrReql := by decide +kernel
theorem test_decode_hdrRespl : (decode tp (pre ++ [0x83])).toOption = some .hdrRespl := by decide +kernel

/-- V6.1. -/
theorem test_decode_info : (decode tp (pre ++ [0x80, 0x12, 0x01, 0x00, 0x78, 0x2F, 0xA4, 0xCA])).toOption =
    some (.info me []) := by decide +kernel
/-- V6.3. -/
theorem test_decode_getChip : (decode tp (pre ++ [0x80, 0x12, 0x02, 0x00, 0xBB, 0x7C, 0x89, 0xE1])).toOption =
    some (.getChip me []) := by decide +kernel
/-- V3.2. -/
theorem test_decode_getId :
    (decode tp (pre ++ [0x82, 0x01, 0x23, 0x45, 0x67, 0x89, 0xAB, 0xCD, 0xEF, 0x03, 0x00, 0x1A, 0x4F, 0x24, 0x0C])).toOption =
      some (.getId myUid []) := by decide +kernel
/-- V6.6. -/
theorem test_decode_silent : (decode tp (pre ++ [0x80, 0x12, 0x04, 0x00, 0x3D, 0xDB, 0xD3, 0xB7])).toOption =
    some (.silent me []) := by decide +kernel
/-- V6.7. -/
theorem test_decode_unsilent : (decode tp (pre ++ [0x80, 0xFF, 0x05, 0x00, 0x8F, 0xA9, 0xF2, 0x0F])).toOption =
    some (.unsilent all []) := by decide +kernel
/-- V6.8. -/
theorem test_decode_go : (decode tp (pre ++ [0x80, 0x12, 0x06, 0x00, 0xBF, 0xB9, 0xE5, 0x85])).toOption =
    some (.go me []) := by decide +kernel
/-- V6.9. -/
theorem test_decode_erase :
    (decode tp (pre ++ [0x80, 0x12, 0x07, 0x03, 0x34, 0x05, 0x00, 0xEB, 0x5C, 0xE4, 0xA5])).toOption =
      some (.erase me [0x34, 0x05, 0x00]) := by decide +kernel
set_option maxRecDepth 4000 in
/-- Program P2, step 2. -/
theorem test_decode_write :
    (decode tp (pre ++ [0x80, 0x12, 0x08, 0x46] ++ writePayload ++ [0x50, 0x3F, 0x67, 0x7D])).toOption =
      some (.write me writePayload) := by decide +kernel
/-- V6.11. -/
theorem test_decode_getCrc32 :
    (decode tp (pre ++ [0x80, 0x12, 0x09, 0x08, 0x00, 0x00, 0x00, 0x08, 0x09, 0x00, 0x00, 0x00, 0x1C, 0x59, 0x3D, 0xE7])).toOption =
      some (.getCrc32 me [0x00, 0x00, 0x00, 0x08, 0x09, 0x00, 0x00, 0x00]) := by decide +kernel
/-- V6.14. -/
theorem test_decode_getNodeId : (decode tp (pre ++ [0x80, 0x12, 0x0A, 0x00, 0xB3, 0xF6, 0x50, 0x29])).toOption =
    some (.getNodeId me []) := by decide +kernel
/-- V6.15. -/
theorem test_decode_setNodeId :
    (decode tp (pre ++ [0x80, 0x12, 0x0B, 0x02, 0x00, 0x20, 0x3E, 0x02, 0xB9, 0x5A])).toOption =
      some (.setNodeId me [0x00, 0x20]) := by decide +kernel

set_option maxRecDepth 4000 in
/-- P2's WRITE, encoded: all but the payload is in 95_test_vectors.md §9. -/
theorem test_encode_write : encode tp (.write me writePayload) =
    some (pre ++ [0x80, 0x12, 0x08, 0x46] ++ writePayload ++ [0x50, 0x3F, 0x67, 0x7D]) := by decide +kernel

/-! Bytes that are no instruction, by name. -/

/-- V3.4. -/
theorem test_reject_preambles : errorOf (decode tp [0x7F, 0x7F, 0x7F, 0x7F, 0x80, 0x12, 0x01, 0x00, 0x78, 0x2F, 0xA4, 0xCA]) =
    some .noPreamble := by decide +kernel
/-- V3.7. -/
theorem test_reject_header : errorOf (decode tp (pre ++ [0x84])) = some .badHeader := by decide +kernel
/-- V3.3. -/
theorem test_reject_response :
    errorOf (decode tp (pre ++ [0x81, 0x12, 0x01, 0x02, 0x01, 0x02, 0x5A, 0x41, 0x23, 0x32])) = some .responseFrame := by
  decide +kernel
/-- V6.1 without its last byte, and with one more. -/
theorem test_reject_truncated : errorOf (decode tp (pre ++ [0x80, 0x12, 0x01, 0x00, 0x78, 0x2F, 0xA4])) = some .truncated := by
  decide +kernel
theorem test_reject_trailing : errorOf (decode tp (pre ++ [0x80, 0x12, 0x01, 0x00, 0x78, 0x2F, 0xA4, 0xCA, 0x00])) =
    some .trailing := by decide +kernel
/-- V3.8. -/
theorem test_reject_resync : errorOf (decode tp (pre ++ [0x80, 0x12, 0x09, 0x08, 0x7F, 0x7F, 0x7F, 0x7F, 0x7F, 0x80, 0x00,
    0x00, 0xE9, 0x1D, 0x8A, 0x96])) = some .resynchronised := by decide +kernel
/-- V3.10. -/
theorem test_reject_crc : errorOf (decode tp (pre ++ [0x80, 0x12, 0x01, 0x00, 0x78, 0x2F, 0xA4, 0xCB])) = some .badCrc := by
  decide +kernel
/-- V6.22. -/
theorem test_reject_opcode : errorOf (decode tp (pre ++ [0x80, 0x12, 0x55, 0x00, 0x28, 0xB7, 0x73, 0x14])) =
    some .unknownOpcode := by decide +kernel

/-! The table's words (log 12). The opcodes of the reset chip are open, so only the header rows have known words. -/

theorem test_word_hdrReq : decodeTableWord 8 0x80 = some .hdrReq := rfl
theorem test_word_hdrResp : decodeTableWord 8 0x81 = some .hdrResp := rfl
theorem test_word_hdrReql : decodeTableWord 8 0x82 = some .hdrReql := rfl
theorem test_word_hdrRespl : decodeTableWord 8 0x83 = some .hdrRespl := rfl
/-- A command byte, with the opcodes of the test chip. -/
theorem test_word_command : (decode tp (commandFrame 0x06)).toOption = some (.go all []) := by decide +kernel
theorem test_word_runs : look (fun t => t.dec.dstate) (step (State.reset.withFetchWord 8 0x82)) = some .address := by
  decide +kernel
/-- The table byte of a command, placed: the next step runs it (V6.2). -/
theorem test_word_command_runs : look State.tx (step (s0.withFetchWord 8 0x01)) =
    some (pre ++ [0x81, 0x12, 0x01, 0x02, 0x01, 0x02, 0x5A, 0x41, 0x23, 0x32]) := by decide +kernel

/-! ### One step of each instruction -/

/-- V6.1 and V6.28. -/
theorem test_info : look State.tx (exec (.info me []) s0) =
    some (pre ++ [0x81, 0x12, 0x01, 0x02, 0x01, 0x02, 0x5A, 0x41, 0x23, 0x32]) := by decide +kernel
theorem test_info_silent : look State.tx (exec (.info all []) { s0 with silent := true }) = some [] := by decide +kernel
/-- V6.3. -/
theorem test_getChip : look State.tx (exec (.getChip me []) s0) =
    some (pre ++ [0x81, 0x12, 0x02, 0x08, 0x43, 0x48, 0x33, 0x32, 0x56, 0x30, 0x30, 0x33, 0x31, 0x68, 0x62, 0xEA]) := by
  decide +kernel
/-- V6.5. -/
theorem test_getId : look (fun t => (t.tx, t.trace)) (exec (.getId all [0x05, 0x06]) s0) =
    some (pre ++ [0x81, 0x12, 0x03, 0x08, 0x01, 0x23, 0x45, 0x67, 0x89, 0xAB, 0xCD, 0xEF, 0x36, 0x8F, 0x27, 0x6B], []) := by
  decide +kernel

/-- The packet buffer of program P3 before its third step. -/
def sStale : State :=
  { s0 with dec := { s0.dec with pkt := { s0.dec.pkt with
      data := (((s0.dec.pkt.data.set 0 0x00).set 1 0x34).set 2 0xC3).set 3 0x3C } } }

/-- Program P3, step 3. -/
theorem test_getId_backoff : look State.trace (exec (.getId all [0x00]) sStale) = some [.delay 24] := by decide +kernel
/-- V6.6. -/
theorem test_silent : look (fun t => (t.tx, t.silent)) (exec (.silent me []) s0) = some ([], true) := by decide +kernel
/-- V6.7 and V6.20. -/
theorem test_unsilent : look (fun t => (t.tx, t.silent)) (exec (.unsilent all []) { s0 with silent := true }) =
    some (pre ++ [0x81, 0x12, 0x05, 0x00, 0x19, 0x8D, 0x74, 0x16], false) := by decide +kernel
theorem test_unsilent_other : look (fun t => (t.tx, t.silent)) (exec (.unsilent (.short 0x13) []) { s0 with silent := true }) =
    some ([], true) := by decide +kernel
/-- V6.8. -/
theorem test_go : look (fun t => (t.tx, t.bootMode, t.countdown)) (exec (.go me []) s0) =
    some (pre ++ [0x81, 0x12, 0x06, 0x00, 0xDA, 0xDE, 0x59, 0x3D], .go, 3) := by decide +kernel
/-- V6.9 and V5.1. -/
theorem test_erase : look (fun t => (t.tx, t.trace)) (exec (.erase me [0x34, 0x05, 0x00]) s0) =
    some (pre ++ [0x81, 0x12, 0x07, 0x00, 0x9B, 0xEF, 0x42, 0x24],
      [.flash .unlock, .flash (.setMode .pageErase), .flash (.writeAddr 0x08000140), .flash .start, .waitNotBusy,
       .flash (.clearMode .pageErase)]) := by decide +kernel
/-- V6.30. -/
theorem test_erase_fault : faultOf (exec (.erase me [0x34, 0x00, 0x01]) s0) = some .unmodelledFlashAddress := by
  decide +kernel
/-- V6.10: the answer, the operations, and two bytes of the page of program P2. -/
theorem test_write : look (fun t => (t.tx, t.trace.length, t.flash.read 0x08000140, t.flash.read 0x0800017F))
    (exec (.write me writePayload) s0) =
      some (pre ++ [0x81, 0x12, 0x08, 0x00, 0x54, 0xF3, 0xDA, 0xA3], 93, 0x60, 0x9F) := by decide +kernel
/-- V6.31. -/
theorem test_write_fault :
    faultOf (exec (.write me ([0x34, 0x00, 0x41, 0x01, 0x00, 0x08] ++ List.replicate 64 0)) s0) =
      some .unmodelledFlashAddress := by decide +kernel

/-- Flash holding "123456789" at its base (V6.11). -/
def sDigits : State :=
  { s0 with flash := Memory.writeBytes [] 0x08000000 [0x31, 0x32, 0x33, 0x34, 0x35, 0x36, 0x37, 0x38, 0x39] }

/-- V6.11. -/
theorem test_getCrc32 : look State.tx (exec (.getCrc32 me [0x00, 0x00, 0x00, 0x08, 0x09, 0x00, 0x00, 0x00]) sDigits) =
    some (pre ++ [0x81, 0x12, 0x09, 0x04, 0x26, 0x39, 0xF4, 0xCB, 0xBE, 0x31, 0xF8, 0x0A]) := by decide +kernel
/-- V6.32. -/
theorem test_getCrc32_fault :
    faultOf (exec (.getCrc32 me [0x00, 0x00, 0x00, 0x20, 0x04, 0x00, 0x00, 0x00]) s0) = some .unmodelledRead := by
  decide +kernel
/-- V6.14 and V6.27. -/
theorem test_getNodeId : look State.tx (exec (.getNodeId me []) s0) =
    some (pre ++ [0x81, 0x12, 0x0A, 0x02, 0x12, 0x34, 0x50, 0x12, 0x77, 0x4B]) := by decide +kernel
theorem test_getNodeId_blank :
    look State.tx (exec (.getNodeId (.short 0x13) []) { s0 with ob := Vector.replicate 24 0xFF }) = some [] := by
  decide +kernel
/-- V6.15 and V6.16. -/
theorem test_setNodeId : look (fun t => (t.tx, t.ob, t.fc.locked)) (exec (.setNodeId me [0x00, 0x20]) s0) =
    some (pre ++ [0x81, 0x20, 0x0B, 0x00, 0x69, 0x91, 0x18, 0xAF], tob.set 0 0x20, true) := by decide +kernel
theorem test_setNodeId_firmware : look (fun t => (t.tx, t.ob)) (exec (.setNodeId me [0x01, 0x56]) s0) =
    some (pre ++ [0x81, 0x12, 0x0B, 0x00, 0x97, 0xA0, 0xF7, 0x88], tob.set 2 0x56) := by decide +kernel

/-- The decoder after five preambles (V3.1). -/
def sRun : State := { s0 with dec := (feed pre (false, s0.dec)).2 }

/-- V3.1, byte 6. -/
theorem test_hdrReq : look (fun t => (t.dec.dstate, t.dec.preRun, t.dec.crc, t.dec.syncCount)) (exec .hdrReq sRun) =
    some (.address, 0, 0xC0459352, 5) := by decide +kernel
/-- V3.3 and V3.2, byte 6, and 95_test_vectors.md §4, last line. -/
theorem test_hdrResp : look (fun t => (t.dec.dstate, t.dec.pkt.type, t.dec.pkt.addressLength)) (exec .hdrResp sRun) =
    some (.address, .response, .one) := by decide +kernel
theorem test_hdrReql : look (fun t => (t.dec.crc, t.dec.pkt.type, t.dec.pkt.addressLength)) (exec .hdrReql sRun) =
    some (0x2E4BF27E, .request, .eight) := by decide +kernel
theorem test_hdrRespl : look (fun t => (t.dec.dstate, t.dec.pkt.type, t.dec.pkt.addressLength)) (exec .hdrRespl sRun) =
    some (.address, .response, .eight) := by decide +kernel
/-- V3.4: without the run the byte is ignored in Idle. -/
theorem test_hdrReq_idle : look (fun t => t.dec.dstate) (exec .hdrReq s0) = some .idle := by decide +kernel

/-- 95_test_vectors.md §2. -/
theorem test_crcInit : look (fun t => t.dec.crc) (exec (.crcInit .decoder) s0) = some 0xFFFFFFFF := by decide +kernel
theorem test_crcUpdate :
    look State.ret (exec (.crcUpdate (.temp 0xFFFFFFFF) [0x80, 0x12, 0x01, 0x00]) s0) = some (.word 0x355BD087) := by
  decide +kernel
theorem test_crcFinalize : look State.ret (exec (.crcFinalize (.temp 0x340BC6D9)) s0) = some (.word 0xCBF43926) := by
  decide +kernel
theorem test_crcCalc : look State.ret (exec (.crcCalc [0x00, 0x01, 0x02]) s0) = some (.word 0x0854897F) := by
  decide +kernel
theorem test_crcTable : (crcTable 0x01, crcTable 0x55, crcTable 0xFF) = (0x77073096, 0x1B01A57B, 0x2D02EF8D) := by
  decide +kernel

/-- V3.1 before its last byte, and that byte. -/
def sLast : State := { s0 with dec := (feed (pre ++ [0x80, 0x12, 0x01, 0x00, 0x78, 0x2F, 0xA4]) (false, s0.dec)).2 }
theorem test_decoderStep : look (fun t => (t.ret, t.dec.dstate, t.dec.idx, t.dec.rxCrc)) (exec (.decoderStep 0xCA) sLast) =
    some (.valid true, .idle, 4, 0xCAA42F78) := by decide +kernel
/-- V3.10. -/
theorem test_decoderStep_badCrc : look (fun t => (t.ret, t.dec.dstate)) (exec (.decoderStep 0xCB) sLast) =
    some (.valid false, .idle) := by decide +kernel
/-- V3.6: the resynchronised frame is valid on its last byte. -/
theorem test_resync : (feed (pre ++ [0x80, 0x12, 0x09, 0x08, 0x00, 0x00, 0x00] ++ pre ++
    [0x80, 0x12, 0x0A, 0x00, 0xB3, 0xF6, 0x50, 0x29]) (false, s0.dec)).1 = true := by decide +kernel
/-- S5. -/
theorem test_serialize : look (fun t => (t.tx, t.ret)) (exec (.serialize 0x12 0xAA [0xDE, 0xAD, 0xBE, 0xEF] 4) s0) =
    some (pre ++ [0x81, 0x12, 0xAA, 0x04, 0xDE, 0xAD, 0xBE, 0xEF, 0xC4, 0x3F, 0x2D, 0x1A], .count 17) := by decide +kernel
/-- V5.1 and V5.5. -/
theorem test_erasePage : look (fun t => (t.flash.read 0x08000140, t.flash.read 0x08000000, t.fc.locked))
    (exec (.erasePage 0x08000140) { sDigits with flash := sDigits.flash.write 0x08000140 0x00 }) =
      some (0xFF, 0x31, false) := by decide +kernel
theorem test_erasePage_fault : (faultOf (exec (.erasePage 0x08004000) s0), faultOf (exec (.erasePage 0x08000141) s0)) =
    (some .unmodelledFlashAddress, some .unmodelledFlashAddress) := by decide +kernel
/-- V5.2. -/
theorem test_writePage : look (fun t => (t.trace.length, t.flash.read 0x0800015F, t.fc.stage, t.fc.mode))
    (exec (.writePage 0x08000140 page) s0) = some (87, 0x7F, 0x9F9E9D9C, ModeSet.empty) := by decide +kernel
/-- V5.3. -/
theorem test_writeOptionByte : look (fun t => (t.ob, t.trace.length, t.fc.locked, t.fc.obUnlocked))
    (exec (.writeOptionByte 0 0x20) s0) = some (tob.set 0 0x20, 30, true, false) := by decide +kernel
/-- V8.1, the first and the last tick. -/
theorem test_loopIteration : look (fun t => (t.countdown, t.handedOff)) (exec .loopIteration s0) = some (99, false) := by
  decide +kernel
theorem test_loopIteration_handoff : look (fun t => (t.countdown, t.trace)) (exec .loopIteration { s0 with countdown := 1 }) =
    some (0, [.handoff]) := by decide +kernel
/-- Program P1, tick 13. -/
theorem test_step : look State.tx (step { sLast with env := ⟨[some 0xCA], [], []⟩ }) =
    some (pre ++ [0x81, 0x12, 0x01, 0x02, 0x01, 0x02, 0x5A, 0x41, 0x23, 0x32]) := by decide +kernel

/-- V6.22: a complete Request under no opcode, its last byte offered, is dropped. -/
def sUnknown : State :=
  { s0 with
    dec := (feed (pre ++ [0x80, 0x12, 0x55, 0x00, 0x28, 0xB7, 0x73]) (false, s0.dec)).2
    env := ⟨[some 0x14], [], []⟩ }
theorem test_step_unknown : look (fun t => (t.tx, t.trace, t.dec.dstate)) (step sUnknown) = some ([], [], .idle) := by
  decide +kernel
/-- R293 with GO_TICKS 1: the host takes the whole answer of V6.8 between its dispatch and part (c) of the same tick. -/
theorem test_step_go_drained : look (fun t => (t.handedOff, t.trace))
    (step
      { s0 with
        par := { tp with goTicks := 1 }
        dec := (feed (pre ++ [0x80, 0x12, 0x06, 0x00, 0xBF, 0xB9, 0xE5]) (false, s0.dec)).2
        env := ⟨[some 0x85], [0, 13], []⟩ }) =
      some (true,
        (pre ++ [0x81, 0x12, 0x06, 0x00, 0xDA, 0xDE, 0x59, 0x3D]).map .tx ++ [.handoff]) := by decide +kernel

/-- A host that takes bytes, and a controller that is busy once. -/
def sDelay : State := { s0 with tx := [0x55, 0x66], env := ⟨[], [0, 1, 0, 0, 2], [.busy, .clears]⟩ }
/-- V5.1's order, two bytes taken meanwhile. -/
theorem test_erasePage_resumed : look (fun t => (t.tx, t.trace, t.work)) (finish 1 (exec (.erasePage 0x08000140) sDelay)) =
    some ([],
      [.flash .unlock, .tx 0x55, .flash (.setMode .pageErase), .flash (.writeAddr 0x08000140), .flash .start, .tx 0x66,
       .waitNotBusy, .flash (.clearMode .pageErase)], []) := by decide +kernel

/-! ### Witnesses: a concrete state and operands for the hypotheses of each statement -/

theorem ready_s0 : Ready s0 := ⟨rfl, rfl⟩

/-- The test chip with the controller's next polls written out: all clear. -/
def sPolls : State := { s0 with env := ⟨[], [], List.replicate 18 .clears⟩ }
theorem clears_sPolls (n : Nat) : Clears n sPolls := fun _ hq =>
  List.eq_of_mem_replicate (List.mem_of_mem_take hq)

/-- The test chip with a controller that never completes. -/
def sStuck : State := { s0 with env := ⟨[], [], [.never]⟩ }

theorem witness_CrcInitSetsAccumulator : Ready s0 := ready_s0
theorem witness_CrcUpdateFoldsEachByte : Ready s0 := ready_s0
theorem witness_CrcFinalizeReturnsComplement : Ready s0 := ready_s0
theorem witness_CrcCalcReturnsOneShotCrc : Ready s0 := ready_s0
theorem witness_CrcUpdateStreamsAcrossSplits :
    Ready s0 ∧ ∃ t, exec (.crcUpdate .decoder [0x31, 0x32]) s0 = .next t :=
  ⟨ready_s0, next_of_look (by decide +kernel)⟩
theorem witness_CrcDetectsAChangedByte : (0x05 : Byte) ≠ 0x04 := by decide
theorem witness_HeaderByteRestartsFramingInEveryState : Ready sRun ∧ 5 ≤ sRun.dec.preRun := ⟨⟨rfl, rfl⟩, by decide⟩

/-- Four preambles received, from reset and in the middle of a frame. -/
def sFour : State := { s0 with dec := { s0.dec with preRun := 4 } }
def sFourData : State := { s0 with dec := { s0.dec with preRun := 4, dstate := .command } }
theorem witness_HeaderByteWithoutRunRestartsNothing :
    (Ready sFour ∧ sFour.dec.preRun < 5 ∧ Instr.hdrReq.headerByte? = some 0x80 ∧ sFour.dec.dstate = .idle) ∧
    (Ready sFourData ∧ sFourData.dec.preRun < 5 ∧ Instr.hdrRespl.headerByte? = some 0x83) :=
  ⟨⟨⟨rfl, rfl⟩, by decide, rfl, rfl⟩, ⟨rfl, rfl⟩, by decide, rfl⟩
theorem witness_PreamblesAreCountedInEveryState : Ready s0 ∧ (0x7F : Byte) = 0x7F ∧ (0x80 : Byte) ≠ 0x7F :=
  ⟨ready_s0, rfl, by decide⟩

/-- The decoder of the test chip in a state, at an index. -/
def sIn (d : DState) (k : Byte) : State := { s0 with dec := { s0.dec with dstate := d, idx := k } }
theorem ready_sIn (d : DState) (k : Byte) : Ready (sIn d k) := ⟨rfl, rfl⟩
theorem plain (d : DState) (k b : Byte) : ¬ Restarts b (sIn d k).dec := fun h =>
  absurd (show Config.preambleLen ≤ 0 from h.1) (by decide)

theorem witness_FieldBytesFillThePacket :
    (Ready (sIn .idle 0) ∧ ¬ Restarts 0x80 (sIn .idle 0).dec) ∧
    (Ready (sIn .address 0) ∧ ¬ Restarts 0x12 (sIn .address 0).dec ∧ (sIn .address 0).dec.idx.toNat < 8) ∧
    (Ready (sIn .address 7) ∧ ¬ Restarts 0x12 (sIn .address 7).dec ∧ (sIn .address 7).dec.idx.toNat < 8) ∧
    (Ready (sIn .command 1) ∧ ¬ Restarts 0x01 (sIn .command 1).dec) ∧
    (Ready (sIn .length 1) ∧ ¬ Restarts 0x00 (sIn .length 1).dec) ∧
    (Ready (sIn .data 0) ∧ ¬ Restarts 0x7F (sIn .data 0).dec ∧ (sIn .data 0).dec.idx.toNat < 255) ∧
    (Ready (sIn .data 254) ∧ ¬ Restarts 0x7F (sIn .data 254).dec ∧ (sIn .data 254).dec.idx.toNat < 255) :=
  ⟨⟨ready_sIn _ _, plain _ _ _⟩, ⟨ready_sIn _ _, plain _ _ _, by decide⟩, ⟨ready_sIn _ _, plain _ _ _, by decide⟩,
    ⟨ready_sIn _ _, plain _ _ _⟩, ⟨ready_sIn _ _, plain _ _ _⟩, ⟨ready_sIn _ _, plain _ _ _, by decide⟩,
    ⟨ready_sIn _ _, plain _ _ _, by decide⟩⟩
theorem witness_CrcBytesGiveTheVerdict :
    (Ready (sIn .crc 0) ∧ ¬ Restarts 0x78 (sIn .crc 0).dec ∧ (sIn .crc 0).dec.dstate = .crc ∧
      (sIn .crc 0).dec.idx.toNat < 3) ∧
    (Ready (sIn .crc 2) ∧ ¬ Restarts 0x78 (sIn .crc 2).dec ∧ (sIn .crc 2).dec.idx.toNat < 3) ∧
    (Ready (sIn .crc 3) ∧ ¬ Restarts 0xCA (sIn .crc 3).dec ∧ (sIn .crc 3).dec.idx = 3) :=
  ⟨⟨ready_sIn _ _, plain _ _ _, rfl, by decide⟩, ⟨ready_sIn _ _, plain _ _ _, by decide⟩,
    ready_sIn _ _, plain _ _ _, rfl⟩
theorem witness_CrcCoversHeaderToLastDataByte :
    (sRun.dec.dstate ≠ .header ∧ Restarts 0x80 sRun.dec) ∧
    ((sIn .idle 0).dec.dstate = .idle ∧ ¬ Restarts 0x80 (sIn .idle 0).dec) ∧
    ((sIn .crc 0).dec.dstate = .crc ∧ ¬ Restarts 0x80 (sIn .crc 0).dec) ∧
    ((sIn .data 0).dec.dstate = .data ∧ ¬ Restarts 0x80 (sIn .data 0).dec) :=
  ⟨⟨by decide, by decide, by decide⟩, ⟨rfl, plain _ _ _⟩, ⟨rfl, plain _ _ _⟩, rfl, plain _ _ _⟩
theorem witness_OnlyCheckedRequestsAreValid : (decoderStep 0xCA sLast.dec).1 = true := by decide +kernel

/-- V6.1's frame. -/
def infoFrame : List Byte := pre ++ [0x80, 0x12, 0x01, 0x00, 0x78, 0x2F, 0xA4, 0xCA]
theorem ok_of_toOption {p : Params} {bs : List Byte} {i : Instr} (h : (decode p bs).toOption = some i) :
    decode p bs = .ok i := by
  cases hd : decode p bs with
  | ok j => rw [hd] at h; cases h; rfl
  | error e => rw [hd] at h; cases h
theorem info_decodes : decode tp infoFrame = .ok (.info me []) := ok_of_toOption (by decide +kernel)

theorem witness_DecodedFrameIsValidFromEveryDecoderState :
    decode tp infoFrame = .ok (.info me []) ∧ (Instr.info me []).request?.isSome := ⟨info_decodes, rfl⟩
theorem witness_DecodeOfEncodeGivesInstructionBack :
    tp.opcodesOk = true ∧ (Instr.info me []).wellFormed = true ∧ encode tp (.info me []) = some infoFrame ∧
    (∀ c dst d, (Instr.info me []).request? = some (c, dst, d) → requestClean (tp.opcode c) dst d = true) :=
  ⟨by decide +kernel, rfl, by decide +kernel, by intro c dst d h; cases h; decide +kernel⟩
set_option maxRecDepth 4000 in
theorem witness_OwnResponseIsDecodedButNeverValid :
    ([0x01, 0x02] : List Byte).length ≤ 255 ∧ resyncs 0 ((responseFrame 0x12 0x01 [0x01, 0x02]).drop 6) = false ∧
    (List.replicate 255 (0 : Byte)).length ≤ 255 ∧
    resyncs 0 ((responseFrame 0x12 0x01 (List.replicate 255 0)).drop 6) = false := by decide +kernel
set_option maxRecDepth 4000 in
theorem witness_SerializeAppendsOneFrame :
    Ready s0 ∧ (0 : Byte).toNat ≤ ([] : List Byte).length ∧ (255 : Byte).toNat ≤ (List.replicate 255 (0 : Byte)).length :=
  ⟨ready_s0, by decide, by decide +kernel⟩
theorem witness_SerializeRefusesShortData : Ready s0 ∧ ([0, 0] : List Byte).length < (3 : Byte).toNat :=
  ⟨ready_s0, by decide⟩

theorem witness_ErasePageErasesOnePage :
    (Ready sPolls ∧ sPolls.fc.mode = ModeSet.empty ∧ pageOk sPolls.par 0x08000000 = true ∧ Clears 1 sPolls) ∧
    (pageOk sPolls.par 0x08003FC0 = true ∧ pageOk sPolls.par 0x08004000 = false) ∧
    (Ready sStuck ∧ sStuck.fc.mode = ModeSet.empty ∧ pageOk sStuck.par 0x08000000 = true ∧ Stuck sStuck) :=
  ⟨⟨⟨rfl, rfl⟩, rfl, by decide +kernel, clears_sPolls 1⟩, by decide +kernel, ⟨rfl, rfl⟩, rfl, by decide +kernel, [], rfl⟩
theorem witness_WritePageProgramsErasedBytes :
    (Ready sPolls ∧ sPolls.fc.mode = ModeSet.empty ∧ pageOk sPolls.par 0x08000140 = true ∧ Clears 17 sPolls) ∧
    (Clears 16 sPolls ∧ pageOk sPolls.par 0x08000141 = false) ∧ sPolls.flash.read (0x08000140 + 63) = 0xFF :=
  ⟨⟨⟨rfl, rfl⟩, rfl, by decide +kernel, clears_sPolls 17⟩, ⟨clears_sPolls 16, by decide +kernel⟩, rfl⟩
theorem witness_WriteOptionByteChangesOneByte : Ready sPolls ∧ sPolls.fc.mode = ModeSet.empty ∧ Clears 7 sPolls :=
  ⟨⟨rfl, rfl⟩, rfl, clears_sPolls 7⟩
theorem witness_EraseThenWriteReadsBack :
    Ready sPolls ∧ sPolls.fc.mode = ModeSet.empty ∧ pageOk sPolls.par 0x08000140 = true ∧ Clears 18 sPolls :=
  ⟨⟨rfl, rfl⟩, rfl, by decide +kernel, clears_sPolls 18⟩

/-- The core held in the wait of V5.6. -/
def sHeld : State :=
  { sStuck with
    fc := { sStuck.fc with
      locked := false, mode := ModeSet.only .pageErase, addr := 0x08000140, busy := true,
      pending := some (.pageErase 0x08000140) }
    work := [.wait, .port (.clearMode .pageErase), .respond 0x07 [], .countdown] }
theorem witness_StuckControllerHoldsTheCore :
    sHeld.handedOff = false ∧ sHeld.work = [.wait, .port (.clearMode .pageErase), .respond 0x07 [], .countdown] ∧
    sHeld.fc.busy = true ∧ Stuck sHeld := ⟨rfl, rfl, rfl, [], rfl⟩
theorem witness_DelaysAndHostTurnsChangeNoResult :
    Instr.erasePage 0x08000140 ≠ .loopIteration ∧ (∀ q ∈ sDelay.env.fcPolls, q ≠ Poll.never) ∧
    ∃ u, exec (.erasePage 0x08000140) sDelay.unhindered = .next u :=
  ⟨by decide, by decide, next_of_look (by decide +kernel)⟩
theorem witness_MemReadReadsFlashAndOptionBytes :
    s0.par.wf = true ∧ inFlash s0.par (0x08000000 : Word).toNat 0x4000 = true ∧
    ((1 : Nat) < 2 ∧
      ¬(s0.par.obBase.toNat ≤ (0x08003FFF : Word).toNat + 1 ∧ (0x08003FFF : Word).toNat + 1 < s0.par.obBase.toNat + 24) ∧
      inFlash s0.par ((0x08003FFF : Word).toNat + 1) 1 = false ∧
      platformReadable s0.par ((0x08003FFF : Word).toNat + 1) = false) ∧
    2 ^ 32 < (0xFFFFFFFF : Word).toNat + 2 := by decide +kernel

theorem witness_AddressMissIsDropped :
    addrAccept s0 (.short 0x12) = true ∧ addrAccept s0 (.short 0xFF) = true ∧ addrAccept s0 myUid = true ∧
    (Ready s0 ∧ (Instr.info (.short 0x13) []).request? = some (.info, .short 0x13, []) ∧
      addrAccept s0 (.short 0x13) = false) :=
  ⟨by decide +kernel, by decide +kernel, by decide +kernel, ready_s0, rfl, by decide +kernel⟩

/-- The test chip, silenced. -/
def sSilent : State := { s0 with silent := true }
theorem accepts_s0 : Ready s0 ∧ addrAccept s0 me = true := ⟨ready_s0, by decide +kernel⟩
theorem witness_InfoAndNodeIdAreAnswered :
    (Ready s0 ∧ addrAccept s0 me = true ∧ s0.silent = false) ∧
    (Ready sSilent ∧ addrAccept sSilent me = true ∧ sSilent.silent = true) :=
  ⟨⟨ready_s0, accepts_s0.2, rfl⟩, ⟨rfl, rfl⟩, by decide +kernel, rfl⟩
theorem witness_ChipNameIsAnswered :
    (Ready s0 ∧ addrAccept s0 me = true ∧ s0.silent = false) ∧
    (Ready sSilent ∧ addrAccept sSilent me = true ∧ sSilent.silent = true) := witness_InfoAndNodeIdAreAnswered
theorem witness_GetIdAnswersAfterBackoff :
    Ready s0 ∧ addrAccept s0 me = true ∧ ([] : List Byte).length ≠ 1 ∧ ([0x05, 0x06] : List Byte).length ≠ 1 :=
  ⟨ready_s0, accepts_s0.2, by decide, by decide⟩
theorem witness_SilentSuppressesItsOwnAnswer : Ready s0 ∧ addrAccept s0 me = true := accepts_s0
theorem witness_UnsilentIsAnswered : Ready s0 ∧ addrAccept s0 me = true := accepts_s0
theorem witness_GoArmsTheCountdown : Ready s0 ∧ addrAccept s0 me = true := accepts_s0
theorem witness_EraseCommandErasesItsBlock :
    Ready sPolls ∧ addrAccept sPolls me = true ∧ sPolls.fc.mode = ModeSet.empty ∧ Clears 1 sPolls ∧
    pageOk sPolls.par
      (sPolls.par.flashBase + BitVec.ofNat 32 (((0xFF : Byte).toNat + 256 * (0x00 : Byte).toNat) * 64)) = true :=
  ⟨⟨rfl, rfl⟩, by decide +kernel, rfl, clears_sPolls 1, by decide +kernel⟩
theorem witness_WriteCommandProgramsItsPage :
    Ready sPolls ∧ addrAccept sPolls me = true ∧ sPolls.fc.mode = ModeSet.empty ∧ Clears 18 sPolls ∧
    pageOk sPolls.par 0x08003FC0 = true :=
  ⟨⟨rfl, rfl⟩, by decide +kernel, rfl, clears_sPolls 18, by decide +kernel⟩
theorem witness_InvalidPayloadIsDropped :
    Ready s0 ∧ ([0x34, 0x05] : List Byte).length ≠ 3 ∧ ([0x35, 0x05, 0x00] : List Byte)[0]? ≠ some s0.ob[s0.par.fwIdPos] ∧
    (List.replicate 71 (0 : Byte)).length ≠ 70 ∧ (List.replicate 70 (0 : Byte))[0]? ≠ some s0.ob[s0.par.fwIdPos] ∧
    (List.replicate 9 (0 : Byte)).length ≠ 8 ∧ ([0x00] : List Byte).length ≠ 2 ∧
    (([0x02, 0x55] : List Byte)[0]? ≠ some 0 ∧ ([0x02, 0x55] : List Byte)[0]? ≠ some 1) :=
  ⟨ready_s0, by decide, by decide +kernel, by decide +kernel, by decide +kernel, by decide, by decide, by decide⟩
theorem witness_FlashCommandFaultsOnBadAddress :
    Ready s0 ∧ addrAccept s0 me = true ∧ s0.fc.mode = ModeSet.empty ∧
    pageOk s0.par (s0.par.flashBase + BitVec.ofNat 32 (((0x00 : Byte).toNat + 256 * (0x01 : Byte).toNat) * 64)) = false ∧
    pageOk s0.par 0x08000141 = false :=
  ⟨ready_s0, accepts_s0.2, rfl, by decide +kernel, by decide +kernel⟩
theorem witness_GetCrc32AnswersWithSpanCrc :
    Ready s0 ∧ addrAccept s0 me = true ∧ memRead s0 0x08003FFF (1 : Word).toNat = .ok [0xFF] ∧
    memRead s0 0x08003FFF (2 : Word).toNat = .error .unmodelledRead := ⟨ready_s0, accepts_s0.2, rfl, rfl⟩
theorem witness_SetNodeIdRewritesOneOptionByte :
    Ready sPolls ∧ addrAccept sPolls me = true ∧ sPolls.fc.mode = ModeSet.empty ∧ Clears 7 sPolls ∧
    sPolls.par.nodeIdPos ≠ sPolls.par.fwIdPos :=
  ⟨⟨rfl, rfl⟩, by decide +kernel, rfl, clears_sPolls 7, by decide⟩

/-- The last byte of V6.1's frame offered, and a byte that completes nothing. -/
def sOffer : State := { sLast with env := ⟨[some 0xCA, none], [1], []⟩ }
def sNoise : State := { sLast with env := ⟨[some 0xCB], [], []⟩ }
def sHeader : State := { sRun with env := ⟨[some 0x80], [], []⟩ }
theorem witness_StepRunsTheDecodedRequest :
    Ready sOffer ∧ sOffer.env.rxIn = some 0xCA :: [none] ∧ (decoderStep 0xCA sOffer.dec).1 = true ∧
    packetInstr sOffer.par (decoderStep 0xCA sOffer.dec).2.pkt = some (.info me []) :=
  ⟨⟨rfl, rfl⟩, rfl, by decide +kernel, by decide +kernel⟩
theorem witness_StepRunsTheFrameItCompletes :
    Ready sOffer ∧ decode sOffer.par (infoFrame.dropLast ++ [0xCA]) = .ok (.info me []) ∧
    (Instr.info me []).request?.isSome ∧ sOffer.dec = (feed infoFrame.dropLast (false, s0.dec)).2 ∧
    sOffer.env.rxIn = some 0xCA :: [none] :=
  ⟨⟨rfl, rfl⟩, info_decodes, rfl, rfl, rfl⟩
theorem witness_StepReceivesTheOfferedByte :
    (Ready sNoise ∧ sNoise.env.rxIn = some 0xCB :: [] ∧ (decoderStep 0xCB sNoise.dec).1 = false) ∧
    (Ready sUnknown ∧ sUnknown.env.rxIn = some 0x14 :: [] ∧ (decoderStep 0x14 sUnknown.dec).1 = true ∧
      packetInstr sUnknown.par (decoderStep 0x14 sUnknown.dec).2.pkt = none) ∧
    (Ready sHeader ∧ sHeader.env.rxIn = some 0x80 :: [] ∧ Instr.hdrReq.headerByte? = some 0x80 ∧ 5 ≤ sHeader.dec.preRun) :=
  ⟨⟨⟨rfl, rfl⟩, rfl, by decide +kernel⟩, ⟨⟨rfl, rfl⟩, rfl, by decide +kernel, by decide +kernel⟩,
    ⟨rfl, rfl⟩, rfl, rfl, by decide⟩
theorem witness_LoopIterationWithoutDispatch :
    (Ready s0 ∧ s0.env.rxIn = []) ∧ (Ready sNoise ∧ sNoise.env.rxIn.head? = some (some 0xCB) ∧
      (decoderStep 0xCB sNoise.dec).1 = false) ∧
    (Ready sUnknown ∧ sUnknown.env.rxIn.head? = some (some 0x14) ∧
      packetInstr sUnknown.par (decoderStep 0x14 sUnknown.dec).2.pkt = none) :=
  ⟨⟨ready_s0, rfl⟩, ⟨⟨rfl, rfl⟩, rfl, by decide +kernel⟩, ⟨rfl, rfl⟩, rfl, by decide +kernel⟩

/-- The test chip in the two other boot modes. -/
def sGo : State := { s0 with bootMode := .go, countdown := 3 }
def sStay : State := { s0 with bootMode := .stay }
theorem witness_BootModeNeverGoesBack :
    (sGo.bootMode = .go ∧ ∃ t, step sGo = .next t) ∧ (sStay.bootMode = .stay ∧ ∃ t, step sStay = .next t) :=
  ⟨⟨rfl, next_of_look (by decide +kernel)⟩, rfl, next_of_look (by decide +kernel)⟩
theorem witness_BootTimeoutHandsOff :
    Ready s0 ∧ s0.bootMode = .bootWait ∧ s0.dec.syncCount = s0.lastSync ∧ s0.tx = [] ∧ s0.env.rxIn = [] ∧
    s0.countdown = 99 + 1 := ⟨ready_s0, rfl, rfl, rfl, rfl, rfl⟩
theorem witness_GoHandsOffWhenDrained :
    Ready sGo ∧ sGo.bootMode = .go ∧ sGo.tx = [] ∧ sGo.env.rxIn = [] ∧ sGo.countdown = 2 + 1 :=
  ⟨⟨rfl, rfl⟩, rfl, rfl, rfl, rfl⟩
theorem witness_NothingRunsAfterHandoff : { s0 with handedOff := true }.handedOff = true := rfl
theorem witness_NothingStartsMidSequence : sHeld.handedOff = false ∧ sHeld.work ≠ [] := ⟨rfl, by decide⟩

theorem inv_s0 : MachineInv s0 := ⟨rfl, rfl, rfl, rfl, rfl, rfl, rfl, fun h => by cases h⟩
theorem inv_sHeld : MachineInv sHeld :=
  ⟨rfl, rfl, rfl, by decide +kernel, by decide +kernel, rfl, by decide, fun h => by cases h⟩
theorem witness_ResetSatisfiesInvariant : flashOk tp sDigits.flash = true := by decide +kernel
theorem witness_StepKeepsInvariant :
    (MachineInv s0 ∧ ∃ t, step s0 = .next t) ∧ (MachineInv sHeld ∧ ∃ t, step sHeld = .next t) :=
  ⟨⟨inv_s0, next_of_look (by decide +kernel)⟩, inv_sHeld, next_of_look (by decide +kernel)⟩
theorem witness_RelaunchKeepsPersistentState :
    (s0.work = [] ∧ s0.fc.pending = none) ∧ (sHeld.openPages = [0x08000140] ∧ sHeld.openOptions = false) ∧ MachineInv sHeld :=
  ⟨⟨rfl, rfl⟩, ⟨by decide +kernel, rfl⟩, inv_sHeld⟩
theorem witness_ExecKeepsInvariant : MachineInv s0 ∧ ∃ t, exec (.write me writePayload) s0 = .next t :=
  ⟨inv_s0, next_of_look (by decide +kernel)⟩
theorem witness_ControllerIsNeverMisused : MachineInv s0 ∧ MachineInv sHeld := ⟨inv_s0, inv_sHeld⟩
theorem witness_ParametersStayAndTraceGrows : ∃ t, step sOffer = .next t := next_of_look (by decide +kernel)
theorem witness_ComposedBytesKeepTheirOrder :
    (∃ t, step sOffer = .next t) ∧ (sOffer.handedOff = false ∧ sOffer.env.txTake = 1 :: []) ∧ s0.env.txTake = [] :=
  ⟨next_of_look (by decide +kernel), ⟨rfl, rfl⟩, rfl⟩

theorem differs {α : Type} {f : State → α} {o : Outcome State Fault Refusal} {a b : α} (h : look f o = some a) (hab : a ≠ b) :
    ∃ t, o = .next t ∧ f t ≠ b := by
  cases o with
  | next t => cases h; exact ⟨t, rfl, hab⟩
  | fault f => cases h
  | refused r => cases h
theorem witness_OnlySilenceCommandsChangeSilence :
    (∃ t, exec (.silent me []) s0 = .next t ∧ t.silent ≠ s0.silent) ∧
    (∃ t, exec (.unsilent me []) sSilent = .next t ∧ t.silent ≠ sSilent.silent) :=
  ⟨differs (f := State.silent) (a := true) (by decide +kernel) (by decide),
    differs (f := State.silent) (a := false) (by decide +kernel) (by decide)⟩
theorem witness_OnlyFlashOperationsChangePersistentState :
    MachineInv s0 ∧ (∃ t, exec (.writePage 0x08000140 page) s0 = .next t ∧ t.flash ≠ s0.flash) ∧
    ∃ t, exec (.setNodeId me [0x00, 0x20]) s0 = .next t ∧ t.ob ≠ s0.ob :=
  ⟨inv_s0,
    (next_of_look (o := exec (.writePage 0x08000140 page) s0) (by decide +kernel)).imp fun t h =>
      ⟨h, fun he => by
        have hl : look (fun t => t.flash == []) (exec (.writePage 0x08000140 page) s0) = some false := by decide +kernel
        rw [h] at hl
        simp [look, he, s0, State.launch] at hl⟩,
    differs (f := State.ob) (a := tob.set 0 0x20) (by decide +kernel) (by decide +kernel)⟩
theorem witness_WrittenFramesDecode : tp.opInfo = 1 ∧ tp.cmdOf 3 = some .getId := ⟨rfl, by decide +kernel⟩

end Sys2Proof.Tests
end

section
/-! The CRC engine's port operations (40_crc.md R130, R132, R133): what each answers in a state where an operation may
start, the spec's check value, and the statements settled from them. -/

namespace Sys2Proof.Machine

/-! ### The accumulator operand -/

@[simp] theorem putAcc_decoder (w : Word) (s : State) :
    putAcc .decoder w s = { s with dec := { s.dec with crc := w } } := rfl

@[simp] theorem putAcc_temp (v w : Word) (s : State) : putAcc (.temp v) w s = { s with ret := .word w } := rfl

@[simp] theorem accValue_decoder (s : State) : accValue .decoder s = s.dec.crc := rfl

@[simp] theorem accValue_temp (w : Word) (s : State) : accValue (.temp w) s = w := rfl

/-! ### What the operations answer when they may start -/

section ready
variable {s : State}

theorem exec_crcInit_ready (h : Ready s) (acc : Acc) :
    exec (.crcInit acc) s = .next (putAcc acc Config.crcInit s) := atRest_ready h

theorem exec_crcFinalize_ready (h : Ready s) (acc : Acc) :
    exec (.crcFinalize acc) s = .next { s with ret := .word (crcFinalize (accValue acc s)) } := atRest_ready h

theorem exec_crcCalc_ready (h : Ready s) (bytes : List Byte) :
    exec (.crcCalc bytes) s = .next { s with ret := .word (crcCalc bytes) } := atRest_ready h

end ready

/-! ### Values on fixed accumulators -/

/-- Finalizing right after init gives 0: `CRC_INIT` and the final XOR are the same word (R9). -/
theorem crcFinalize_crcInit : crcFinalize Config.crcInit = 0 := BitVec.xor_self

/-- The accumulator after the check string `123456789`. -/
theorem crcUpdate_checkString :
    crcUpdate Config.crcInit [0x31, 0x32, 0x33, 0x34, 0x35, 0x36, 0x37, 0x38, 0x39] = 0x340BC6D9 := by
  decide +kernel

/-- The complement of that accumulator is the CRC's published check value. -/
theorem crcFinalize_checkAccumulator : crcFinalize 0x340BC6D9 = 0xCBF43926 := by decide

/-! ### The statements -/

/-- Settles O1: the operation's answer, at either accumulator operand. -/
theorem crcInitSetsAccumulator : Obligations.CrcInitSetsAccumulator := by
  intro s h
  refine ⟨?decoder, fun w => ?temp, crcFinalize_crcInit⟩
  case decoder => simp only [exec_crcInit_ready h, putAcc_decoder, Config.crcInit]
  case temp => simp only [exec_crcInit_ready h, putAcc_temp, Config.crcInit]

/-- Settles O3: the operation's answer, at either accumulator operand. -/
theorem crcFinalizeReturnsComplement : Obligations.CrcFinalizeReturnsComplement := by
  refine ⟨fun s h => ⟨?decoder, fun w => ?temp⟩, crcFinalize_checkAccumulator⟩
  case decoder => simp only [exec_crcFinalize_ready h, accValue_decoder, crcFinalize, Config.crcXorOut]
  case temp => simp only [exec_crcFinalize_ready h, accValue_temp, crcFinalize, Config.crcXorOut]

/-- Settles O4: the operation answers `crcCalc`, which is finalize of update from init; the two values follow from those
of finalize and update. -/
theorem crcCalcReturnsOneShotCrc : Obligations.CrcCalcReturnsOneShotCrc := by
  refine ⟨fun s bytes h => exec_crcCalc_ready h bytes, ?empty, ?checkString⟩
  case empty => rw [crcCalc, crcUpdate_nil, crcFinalize_crcInit]
  case checkString => rw [crcCalc, crcUpdate_checkString, crcFinalize_checkAccumulator]

end Sys2Proof.Machine
end

section
/-! The packet codec's byte step and serialiser (41_codec.md R150 to R160, R180): what a decoder state does with a byte,
what the two operations answer in a state where an operation may start, and the statements settled from them. -/

namespace Sys2Proof.Machine

/-! ### The byte a decoder state handles (R154 to R160) -/

/-- Inside the buffer, the model's total write is the write itself. -/
theorem setIfInBounds_of_lt {α : Type} {n i : Nat} (v : Vector α n) (x : α) (h : i < n) :
    v.setIfInBounds i x = v.set i x := by
  ext j hj
  rw [Vector.getElem_setIfInBounds hj, Vector.getElem_set h hj]

section handle
variable {b : Byte} {d : Decoder}

theorem handleByte_idle (h : d.dstate = .idle) : handleByte b d = (false, d) := by
  simp only [handleByte, h]

theorem handleByte_address (h : d.dstate = .address) (hi : d.idx.toNat < 8) :
    handleByte b d = (false,
      { d with
        crc := crcUpdate d.crc [b]
        idx := d.idx + 1
        dstate := if (d.idx + 1).toNat = d.pkt.addressLength.size then .command else .address
        pkt := { d.pkt with address := d.pkt.address.set d.idx.toNat b } }) := by
  simp only [handleByte, h, foldCrc, addressStep, setIfInBounds_of_lt _ _ hi, crcUpdate_cons, crcUpdate_nil]

theorem handleByte_command (h : d.dstate = .command) :
    handleByte b d = (false,
      { d with crc := crcUpdate d.crc [b], dstate := .length, pkt := { d.pkt with command := b } }) := by
  simp only [handleByte, h, foldCrc, commandStep, crcUpdate_cons, crcUpdate_nil]

theorem handleByte_length (h : d.dstate = .length) :
    handleByte b d = (false,
      { d with
        crc := crcUpdate d.crc [b]
        idx := 0
        dstate := if b = 0 then .crc else .data
        pkt := { d.pkt with dataLength := b } }) := by
  simp only [handleByte, h, foldCrc, lengthStep, crcUpdate_cons, crcUpdate_nil]

theorem handleByte_data (h : d.dstate = .data) (hi : d.idx.toNat < 255) :
    handleByte b d = (false,
      { d with
        crc := crcUpdate d.crc [b]
        idx := if d.idx + 1 = d.pkt.dataLength then 0 else d.idx + 1
        dstate := if d.idx + 1 = d.pkt.dataLength then .crc else .data
        pkt := { d.pkt with data := d.pkt.data.set d.idx.toNat b } }) := by
  simp only [handleByte, h, foldCrc, dataStep, setIfInBounds_of_lt _ _ hi, decide_eq_true_eq, crcUpdate_cons,
    crcUpdate_nil]

theorem handleByte_crc (h : d.dstate = .crc) : handleByte b d = crcStep b d := by
  simp only [handleByte, h]

/-- Below index 3 the byte is captured, and the frame goes on. -/
theorem crcStep_capture (hi : d.idx.toNat < 3) :
    crcStep b d = (false, { d with rxCrc := setByte d.rxCrc d.idx.toNat b, idx := d.idx + 1 }) := by
  have hlast : d.idx + 1 ≠ 4 := by bv_omega
  simp only [crcStep, if_neg hlast]

/-- At index 3 the received CRC is complete: the verdict, and Idle. -/
theorem crcStep_verdict (hi : d.idx = 3) :
    crcStep b d = (frameVerdict d (setByte d.rxCrc d.idx.toNat b),
      { d with rxCrc := setByte d.rxCrc d.idx.toNat b, idx := 4, dstate := .idle }) := by
  have hlast : d.idx + 1 = 4 := by rw [hi]; rfl
  simp only [crcStep, hlast, if_true]

/-- Crc's handling leaves the accumulator alone. -/
theorem crcStep_crc : (crcStep b d).2.crc = d.crc := by
  unfold crcStep; simp only; split <;> rfl

end handle

theorem frameVerdict_eq (d : Decoder) (rx : Word) :
    frameVerdict d rx = decide (rx = d.crc ^^^ 0xFFFFFFFF ∧ d.pkt.type = .request) := by
  rw [Bool.decide_and]; rfl

/-! ### What a byte does to the accumulator (R158) -/

/-- Every state but Idle and Crc folds the byte it handles; Header, which clears the accumulator first, is apart. -/
theorem handleByte_folds (b : Byte) {d : Decoder} (hheader : d.dstate ≠ .header) (hidle : d.dstate ≠ .idle)
    (hcrc : d.dstate ≠ .crc) : (handleByte b d).2.crc = crcUpdate d.crc [b] := by
  cases h : d.dstate with
  | idle => exact absurd h hidle
  | header => exact absurd h hheader
  | address => simp only [handleByte, h, foldCrc, addressStep, crcUpdate_cons, crcUpdate_nil]
  | command => rw [handleByte_command h]
  | length => rw [handleByte_length h]
  | data => simp only [handleByte, h, foldCrc, dataStep, crcUpdate_cons, crcUpdate_nil]
  | crc => exact absurd h hcrc

/-- Idle and Crc leave the accumulator alone. -/
theorem handleByte_keeps_crc (b : Byte) {d : Decoder} (h : d.dstate = .idle ∨ d.dstate = .crc) :
    (handleByte b d).2.crc = d.crc := by
  rcases h with h | h
  · rw [handleByte_idle h]
  · rw [handleByte_crc h, crcStep_crc]

/-! ### The response frame (R180) -/

/-- The bytes of a response, written out. -/
theorem responseFrame_eq (node cmd : Byte) (data : List Byte) :
    responseFrame node cmd data =
      [0x7F, 0x7F, 0x7F, 0x7F, 0x7F] ++ ([0x81, node, cmd, BitVec.ofNat 8 data.length] ++ data)
        ++ bytesLe32 (crcCalc ([0x81, node, cmd, BitVec.ofNat 8 data.length] ++ data)) := rfl

/-- Five preambles, four bytes before the data, four after it. -/
@[simp] theorem responseFrame_length (node cmd : Byte) (data : List Byte) :
    (responseFrame node cmd data).length = 13 + data.length := by
  rw [responseFrame_eq]
  simp only [List.length_append, List.length_cons, List.length_nil, bytesLe32_length]
  omega

/-! ### What the operations answer when they may start -/

section ready
variable {s : State}

/-- A byte that does not restart framing, given what the current state makes of it after the counting. -/
theorem exec_decoderStep_plain {b : Byte} {v : Bool} {d : Decoder} (h : Ready s) (hb : ¬ Restarts b s.dec)
    (hd : handleByte b (counted b s.dec) = (v, d)) :
    exec (.decoderStep b) s = .next { s with dec := d, ret := .valid v } := by
  have hstep : decoderStep b s.dec = (v, d) := (decoderStep_plain hb).trans hd
  have hexec : exec (.decoderStep b) s =
      .next { s with dec := (decoderStep b s.dec).2, ret := .valid (decoderStep b s.dec).1 } := atRest_ready h
  rw [hexec, hstep]

/-- With enough data the first `len` bytes go out as one response frame. -/
theorem exec_serialize_ready {node cmd len : Byte} {data : List Byte} (h : Ready s) (hlen : len.toNat ≤ data.length) :
    exec (.serialize node cmd data len) s = .next
      { s.emit (responseFrame node cmd (data.take len.toNat)) with
        ret := .count (responseFrame node cmd (data.take len.toNat)).length } :=
  (atRest_ready h).trans (if_neg (Nat.not_lt.mpr hlen))

end ready

/-! ### The statements -/

/-- Settles O12: each clause is the current state's handling of the byte, applied to the decoder after the counting. -/
theorem fieldBytesFillThePacket : Obligations.FieldBytesFillThePacket := by
  intro s b hs hb
  refine ⟨fun h => ?idle, fun h hi => ?address, fun h => ?command, fun h => ?length, fun h hi => ?data⟩
  case idle => exact exec_decoderStep_plain hs hb (handleByte_idle (by rwa [counted_dstate]))
  case address =>
    rw [exec_decoderStep_plain hs hb (handleByte_address (by rwa [counted_dstate]) (by rwa [counted_idx]))]
    simp only [counted_idx]
  case command => exact exec_decoderStep_plain hs hb (handleByte_command (by rwa [counted_dstate]))
  case length => exact exec_decoderStep_plain hs hb (handleByte_length (by rwa [counted_dstate]))
  case data =>
    rw [exec_decoderStep_plain hs hb (handleByte_data (by rwa [counted_dstate]) (by rwa [counted_idx]))]
    simp only [counted_idx]

/-- Settles O13: the two cases of Crc's handling, applied to the decoder after the counting. -/
theorem crcBytesGiveTheVerdict : Obligations.CrcBytesGiveTheVerdict := by
  intro s b hs hb hcrc
  have hhandle : handleByte b (counted b s.dec) = crcStep b (counted b s.dec) :=
    handleByte_crc (by rwa [counted_dstate])
  refine ⟨fun hi => ?capture, fun hi => ?verdict⟩
  case capture =>
    rw [exec_decoderStep_plain hs hb (hhandle.trans (crcStep_capture (by rwa [counted_idx])))]
    simp only [counted_rxCrc, counted_idx]
  case verdict =>
    rw [exec_decoderStep_plain hs hb (hhandle.trans (crcStep_verdict (by rwa [counted_idx])))]
    simp only [counted_rxCrc, counted_idx, counted_crc, counted_pkt, frameVerdict_eq]

/-- Settles O14: a restart folds its byte into a fresh accumulator; otherwise the current state folds or keeps. -/
theorem crcCoversHeaderToLastDataByte : Obligations.CrcCoversHeaderToLastDataByte := by
  intro b d hheader
  refine ⟨fun hr => ?restart, fun hr hkeep => ?keep, fun hr hidle hcrc => ?fold⟩
  case restart => rw [decoderStep_restart hr]; rfl
  case keep => rw [decoderStep_plain hr, handleByte_keeps_crc b (by simpa using hkeep), counted_crc]
  case fold =>
    rw [decoderStep_plain hr, handleByte_folds b (by simpa using hheader) (by simpa using hidle) (by simpa using hcrc),
      counted_crc]

/-- Settles O19: the emitted frame written out, where the data taken has exactly the length of the LENGTH byte. -/
theorem serializeAppendsOneFrame : Obligations.SerializeAppendsOneFrame := by
  intro s node cmd data len hs hlen
  have htake : (data.take len.toNat).length = len.toNat := List.length_take_of_le hlen
  rw [exec_serialize_ready hs hlen, responseFrame_length, responseFrame_eq, htake, BitVec.ofNat_toNat,
    BitVec.setWidth_eq]
  rfl

end Sys2Proof.Machine
end

section
/-! The programming sequences of the flash sequencer (42_flash.md R216, R217) and SET_NODE_ID, which runs the second one
(43_dispatcher.md R257): the state each sequence comes to when the controller clears busy at every poll and the host
takes nothing, and the statements settled from it. -/

namespace Sys2Proof.Machine

/-! ### From a run without the host's turns to an operation -/

/-- A run that comes to its end in a state with nothing held answers that state, up to the host's turns. -/
theorem run_of_still_end {ts : List Task} {s u : State} (hc : Task.countdown ∉ ts) (hw : u.work = [])
    (hr : runStill ts s = runStill [] u) : ∃ t, run ts s = .next t ∧ UpToHost s u t := by
  have hu : { u with work := [] } = u := by rw [← hw]
  exact run_of_still hc (by rw [hr, runStill_nil, hu])

/-- A state is itself with its own controller and no events: the start of a sequence, as Laws/Flash.lean speaks of it. -/
theorem State.ported_fc_nil (s : State) : s.ported s.fc [] = s := by simp [State.ported]

/-! ### write_page -/

/-- The state after `write_page(a, d)` (R216). -/
def State.pageProgrammed (s : State) (a : Word) (d : Vector Byte 64) : State :=
  { s with
    flash := Memory.program s.draws s.flash a.toNat d.toList
    draws := s.draws + 1
    fc := s.fc.afterProgram a d
    trace := s.trace ++ writePageEvents a d
    env := (s.polled 17).env }

theorem countdown_notMem_writePageTasks (a : Word) (d : Vector Byte 64) : Task.countdown ∉ writePageTasks a d := by
  simp [writePageTasks, loadWordTasks]

theorem runStill_writePage_end {s : State} {a : Word} {d : Vector Byte 64} (hm : s.fc.mode = ModeSet.empty)
    (hp : pageOk s.par a = true) (hc : Clears 17 s) :
    runStill (writePageTasks a d) s = runStill [] (s.pageProgrammed a d) := by
  have h := runStill_writePage a d [] s s.fc [] hm hp hc
  simp only [List.append_nil, State.ported_fc_nil, pendingEffect, pageWords_bytes] at h
  exact h

theorem exec_writePage_ready {s : State} (h : Ready s) (a : Word) (d : Vector Byte 64) :
    exec (.writePage a d) s = run (writePageTasks a d) s := atRest_ready h

/-- An erased byte of the programmed page takes the byte given for it (R211). -/
theorem pageProgrammed_read_erased (s : State) (a : Word) (d : Vector Byte 64) {k : Nat} (hk : k < 64)
    (he : s.flash.read (a.toNat + k) = Config.erased) : (s.pageProgrammed a d).flash.read (a.toNat + k) = d[k] := by
  have hin : a.toNat ≤ a.toNat + k ∧ a.toNat + k < a.toNat + d.toList.length := by
    rw [Vector.length_toList]; omega
  rw [State.pageProgrammed, Memory.read_program, if_pos hin, if_pos he, Nat.add_sub_cancel_left]
  simp [hk]

theorem pageProgrammed_read_outside (s : State) (a : Word) (d : Vector Byte 64) {x : Nat}
    (hx : ¬(a.toNat ≤ x ∧ x < a.toNat + 64)) : (s.pageProgrammed a d).flash.read x = s.flash.read x := by
  rw [State.pageProgrammed, Memory.read_program, Vector.length_toList, if_neg hx]

/-- The page buffer the sequence leaves, one word of the page in each entry. -/
theorem pageWords_map_some (d : Vector Byte 64) : (pageWords d).map some = Vector.ofFn fun i => some (pageWord d i) := by
  ext j hj
  simp [pageWords]

/-! ### write_option_byte -/

/-- The state after `write_option_byte(k, v)` (R217). Each of the six words programmed is one draw. -/
def State.optionWritten (s : State) (k : Fin 24) (v : Byte) : State :=
  { s with
    ob := s.ob.set k.val v
    draws := s.draws + 6
    fc := s.fc.afterOption
    trace := s.trace ++ optionEvents (s.ob.set k.val v)
    env := (s.polled 7).env }

theorem countdown_notMem_writeOptionTasks (k : Fin 24) (v : Byte) (s : State) :
    Task.countdown ∉ writeOptionTasks k v s := by
  simp [writeOptionTasks, optionTasks, optionWordTasks]

/-- The rewrite of the option bytes, whatever tasks follow it. -/
theorem runStill_writeOption {s : State} (hm : s.fc.mode = ModeSet.empty) (hc : Clears 7 s) (k : Fin 24) (v : Byte)
    (ts : List Task) : runStill (writeOptionTasks k v s ++ ts) s = runStill ts (s.optionWritten k v) := by
  have h := runStill_option (s.ob.set k.val v) ts s s.fc [] hm hc
  rw [State.ported_fc_nil] at h
  exact h

theorem exec_writeOptionByte_ready {s : State} (h : Ready s) (k : Fin 24) (v : Byte) :
    exec (.writeOptionByte k v) s = run (writeOptionTasks k v s) s := atRest_ready h

/-- Rewriting the node id's own byte changes the node id at once (R36). -/
theorem optionWritten_nodeId_same (s : State) (v : Byte) : (s.optionWritten s.par.nodeIdPos v).nodeId = v := by
  simp [State.nodeId, State.optionWritten]

/-- Rewriting any other option byte keeps the node id. -/
theorem optionWritten_nodeId_other (s : State) {k : Fin 24} (v : Byte) (hk : s.par.nodeIdPos ≠ k) :
    (s.optionWritten k v).nodeId = s.nodeId := by
  have hne : k.val ≠ s.par.nodeIdPos.val := fun h => hk (Fin.ext h.symm)
  simp [State.nodeId, State.optionWritten, hne]

/-! ### SET_NODE_ID -/

/-- A request to an accepted address is its command's plan (R231). -/
theorem onRequest_accepted {dst : Addr} {s : State} (h : addrAccept s dst = true) (plan : Plan) :
    onRequest dst s plan = plan := if_pos h

/-- What SET_NODE_ID does for either subindex (R257): the option rewrite, then the acknowledgement. -/
def setNodeIdTasks (k : Fin 24) (v : Byte) (s : State) : List Task :=
  writeOptionTasks k v s ++ [.respond s.par.opSetNodeId []]

section ready
variable {s : State} {dst : Addr} (h : Ready s) (ha : addrAccept s dst = true)
include h ha

theorem exec_setNodeId_accepted (d : List Byte) : exec (.setNodeId dst d) s = runPlan (planSetNodeId d s) := by
  rw [exec_request rfl, atRest_ready h, requestPlan, onRequest_accepted ha]

/-- Subindex 0 rewrites the node id's byte. -/
theorem exec_setNodeId_zero (v : Byte) :
    exec (.setNodeId dst [0, v]) s = run (setNodeIdTasks s.par.nodeIdPos v s) s :=
  exec_setNodeId_accepted h ha [0, v]

/-- Subindex 1 rewrites the firmware id's byte. -/
theorem exec_setNodeId_one (v : Byte) :
    exec (.setNodeId dst [1, v]) s = run (setNodeIdTasks s.par.fwIdPos v s) s :=
  exec_setNodeId_accepted h ha [1, v]

end ready

/-- The option rewrite and the acknowledgement, which is sent under the node id after the rewrite. -/
theorem run_setNodeIdTasks {s : State} (h : Ready s) (hm : s.fc.mode = ModeSet.empty) (hc : Clears 7 s) (k : Fin 24)
    (v : Byte) :
    ∃ t, run (setNodeIdTasks k v s) s = .next t ∧
      UpToHost s
        { s.optionWritten k v with
          tx := s.tx ++ (if s.silent then []
            else responseFrame (s.optionWritten k v).nodeId s.par.opSetNodeId []) } t := by
  refine run_of_still_end ?noCountdown h.2 ?still
  case noCountdown => simpa [setNodeIdTasks] using countdown_notMem_writeOptionTasks k v s
  case still =>
    rw [setNodeIdTasks, runStill_writeOption hm hc, runStill_respond, respond_eq]
    rfl

/-! ### The statements -/

/-- Settles O22: at an admitted page the sequence comes to `State.pageProgrammed`, whose bytes are those of a page
program; at any other its `Start` is the fault. -/
theorem writePageProgramsErasedBytes : Obligations.WritePageProgramsErasedBytes := by
  intro s a d h hm
  rw [exec_writePage_ready h]
  refine ⟨fun hp hc => ?admitted, fun hp hc => ?refused⟩
  case admitted =>
    obtain ⟨t, hrun, ht⟩ := run_of_still_end (countdown_notMem_writePageTasks a d) (u := s.pageProgrammed a d) h.2
      (runStill_writePage_end hm hp hc)
    refine ⟨t, hrun, ?_, fun k hk he => ?_, fun x hx => ?_⟩
    · rw [ht.flash_eq, ht.draws_eq, ← pageWords_map_some]
      exact ht
    · rw [ht.flash_eq]; exact pageProgrammed_read_erased s a d hk he
    · rw [ht.flash_eq]; exact pageProgrammed_read_outside s a d hx
  case refused =>
    have hf := runStill_writePage_fault a d [] s s.fc [] hm hp hc
    rw [List.append_nil, State.ported_fc_nil] at hf
    exact run_of_still_fault (countdown_notMem_writePageTasks a d) hf

/-- Settles O23: the sequence comes to `State.optionWritten`. -/
theorem writeOptionByteChangesOneByte : Obligations.WriteOptionByteChangesOneByte := by
  intro s k v h hm hc
  obtain ⟨t, hrun, ht⟩ := run_of_still_end (countdown_notMem_writeOptionTasks k v s) (u := s.optionWritten k v) h.2
    (by simpa only [List.append_nil] using runStill_writeOption hm hc k v [])
  refine ⟨t, (exec_writeOptionByte_ready h k v).trans hrun, ?_⟩
  rw [ht.draws_eq]
  exact ht

/-- Settles O40: either subindex is the option rewrite at its own position; the node id of the acknowledgement is the
new one when that position is the node id's, and the old one when it is the firmware id's. -/
theorem setNodeIdRewritesOneOptionByte : Obligations.SetNodeIdRewritesOneOptionByte := by
  intro s dst v h ha hm hc hne
  refine ⟨?nodeId, ?firmwareId⟩
  case nodeId =>
    obtain ⟨t, hrun, ht⟩ := run_setNodeIdTasks h hm hc s.par.nodeIdPos v
    refine ⟨t, (exec_setNodeId_zero h ha v).trans hrun, ?_⟩
    rw [optionWritten_nodeId_same] at ht
    rw [ht.draws_eq]
    exact ht
  case firmwareId =>
    obtain ⟨t, hrun, ht⟩ := run_setNodeIdTasks h hm hc s.par.fwIdPos v
    refine ⟨t, (exec_setNodeId_one h ha v).trans hrun, ?_⟩
    rw [optionWritten_nodeId_other s v hne] at ht
    rw [ht.draws_eq]
    exact ht

end Sys2Proof.Machine
end

section
/-! The dispatcher's address filter (43_dispatcher.md R231, R237) and the commands whose only task is their answer
(R232, R233): what a request to another address does, what an answer does of a silent node and of one that is not, and
the statements settled from it. -/

namespace Sys2Proof.Machine

/-! ### The address filter -/

theorem addrAccept_short (s : State) (a : Byte) :
    addrAccept s (.short a) = true ↔ a = s.nodeId ∨ a = Config.broadcast := by simp [addrAccept]

theorem addrAccept_long (s : State) (u : Vector Byte 8) : addrAccept s (.long u) = true ↔ u = s.par.uid := beq_iff_eq

/-- A request to another address is dropped, whatever its command's plan (R231, R237). -/
theorem onRequest_missed {dst : Addr} {s : State} (h : addrAccept s dst = false) (plan : Plan) :
    onRequest dst s plan = dropped s := if_neg (by simp [h])

/-- Each of the eleven commands stands behind the address filter (R230). -/
theorem requestPlan_filtered {i : Instr} {c : Cmd} {dst : Addr} {d : List Byte} (hr : i.request? = some (c, dst, d))
    (s : State) : ∃ plan, requestPlan i s = onRequest dst s plan := by
  cases i <;> cases hr <;> exact ⟨_, rfl⟩

/-- A command to an accepted address is its plan, carried out. -/
theorem exec_accepted {i : Instr} {s : State} {dst : Addr} {plan : Plan} (h : Ready s) (ha : addrAccept s dst = true)
    (hr : i.request?.isSome) (hp : requestPlan i s = onRequest dst s plan) : exec i s = runPlan plan := by
  rw [exec_request hr, atRest_ready h, hp, onRequest_accepted ha]

/-! ### The answer (R233) -/

theorem respond_of_silent {s : State} (h : s.silent = true) (c : Byte) (p : List Byte) : respond c p s = s := if_pos h

theorem respond_of_not_silent {s : State} (h : s.silent = false) (c : Byte) (p : List Byte) :
    respond c p s = s.emit (responseFrame s.nodeId c p) := if_neg (by simp [h])

/-- An answer is sent at once: nothing is left for later. -/
theorem run_answer {s : State} (hw : s.work = []) (c : Byte) (p : List Byte) :
    run [.respond c p] s = .next (respond c p s) := by
  have hs : { s with work := [] } = s := by rw [← hw]
  rw [run_respond, run_nil, ← respond_work, hs]

/-- A command to an accepted address whose plan is one answer, given from the state `t` that the plan leaves. -/
theorem exec_answer {i : Instr} {s t : State} {dst : Addr} {c : Byte} {p : List Byte} (h : Ready s)
    (ha : addrAccept s dst = true) (hr : i.request?.isSome)
    (hp : requestPlan i s = onRequest dst s (.ok (t, [.respond c p]))) (hw : t.work = []) :
    exec i s = .next (respond c p t) :=
  (exec_accepted h ha hr hp).trans (run_answer hw c p)

section answers
variable {s : State} {dst : Addr} (h : Ready s) (ha : addrAccept s dst = true) (d : List Byte)
include h ha

theorem exec_info_accepted :
    exec (.info dst d) s = .next (respond s.par.opInfo [s.par.blMajor, s.par.blMinor] s) :=
  exec_answer h ha rfl rfl h.2

theorem exec_getNodeId_accepted :
    exec (.getNodeId dst d) s = .next (respond s.par.opGetNodeId [s.nodeId, s.fwId] s) :=
  exec_answer h ha rfl rfl h.2

/-- SILENT sets the flag first, then answers (R247). -/
theorem exec_silent_accepted :
    exec (.silent dst d) s = .next (respond s.par.opSilent [] { s with silent := true }) :=
  exec_answer h ha rfl rfl h.2

end answers

/-! ### The statements -/

/-- Settles O28: the filter's two cases, and the drop of every command behind it. -/
theorem addressMissIsDropped : Obligations.AddressMissIsDropped := by
  refine ⟨addrAccept_short, addrAccept_long, ?missed⟩
  case missed =>
    intro s i c dst d h hr hmiss
    obtain ⟨plan, hplan⟩ := requestPlan_filtered hr s
    rw [exec_request (by simp [hr]), atRest_ready h, hplan, onRequest_missed hmiss, runPlan_dropped h]

/-- Settles O29: each command is its answer alone, which a silent node does not send. -/
theorem infoAndNodeIdAreAnswered : Obligations.InfoAndNodeIdAreAnswered := by
  intro s dst d h ha
  rw [exec_info_accepted h ha, exec_getNodeId_accepted h ha]
  refine ⟨fun hs => ?audible, fun hs => ?silent⟩
  case audible =>
    rw [respond_of_not_silent hs, respond_of_not_silent hs]
    exact ⟨rfl, rfl⟩
  case silent =>
    rw [respond_of_silent hs, respond_of_silent hs]
    exact ⟨rfl, rfl⟩

/-- Settles O32: the flag that SILENT sets suppresses its own answer. -/
theorem silentSuppressesItsOwnAnswer : Obligations.SilentSuppressesItsOwnAnswer := by
  intro s dst d h ha
  rw [exec_silent_accepted h ha, respond_of_silent rfl]

end Sys2Proof.Machine
end

section
/-! A whole frame through the byte-at-a-time decoder (41_codec.md §1). Bytes that never resynchronise are only handled,
one after another (`handled`); the fields of a frame are followed through that, and the result is carried back to `feed`
from a decoder in any state. -/

namespace Sys2Proof.Machine

/-! ### Feeding without a restart -/

/-- Bytes handled by the current state one after another, none of them restarting framing (R150). -/
def handled : List Byte → Bool × Decoder → Bool × Decoder
  | [], r => r
  | b :: bs, r => handled bs (handleByte b r.2)

@[simp] theorem handled_nil (r : Bool × Decoder) : handled [] r = r := rfl

@[simp] theorem handled_cons (b : Byte) (bs : List Byte) (r : Bool × Decoder) :
    handled (b :: bs) r = handled bs (handleByte b r.2) := rfl

theorem handled_append (as bs : List Byte) : ∀ r, handled (as ++ bs) r = handled bs (handled as r) := by
  induction as with
  | nil => intro r; rfl
  | cons a as ih => intro r; exact ih _

/-- The decoder with its two preamble counters replaced (R27, R28). -/
def Decoder.recounted (d : Decoder) (run : Nat) (count : Word) : Decoder := { d with preRun := run, syncCount := count }

/-- Handling a byte does not look at the preamble counters. -/
theorem handleByte_recounted (b : Byte) (d : Decoder) (run : Nat) (count : Word) :
    handleByte b (d.recounted run count) = ((handleByte b d).1, (handleByte b d).2.recounted run count) := by
  cases h : d.dstate with
  | crc => simp only [handleByte, Decoder.recounted, h, crcStep]; split <;> rfl
  | _ => simp only [handleByte, Decoder.recounted, h] <;> rfl

theorem counted_recounted (b : Byte) (d : Decoder) (run : Nat) (count : Word) :
    ∃ count', counted b (d.recounted run count) =
      d.recounted (if b = Config.preamble then min (run + 1) Config.preambleLen else 0) count' := by
  unfold counted
  split
  · exact ⟨_, rfl⟩
  · exact ⟨_, rfl⟩

/-- The first byte of a string that does not resynchronise restarts nothing, and the rest goes on from the run it
leaves (R151, R352). -/
theorem resyncs_cons {run : Nat} {b : Byte} {bs : List Byte} (h : resyncs run (b :: bs) = false) :
    (Config.preambleLen ≤ run → headerMatch b = false) ∧
    resyncs (if b = Config.preamble then min (run + 1) Config.preambleLen else 0) bs = false := by
  rw [resyncs] at h
  by_cases hb : b = Config.preamble
  · rw [if_pos hb] at h ⊢
    exact ⟨fun _ => hb ▸ headerMatch_preamble, h⟩
  · rw [if_neg hb, Bool.or_eq_false_iff, Bool.and_eq_false_imp] at h
    rw [if_neg hb]
    exact ⟨fun hr => h.1 (decide_eq_true hr), h.2⟩

/-- Bytes that do not resynchronise are handled in order; beside that only the counters move. -/
theorem feed_of_not_resyncs (bs : List Byte) : ∀ (v : Bool) (d : Decoder) (run : Nat) (count : Word),
    resyncs run bs = false →
    ∃ run' count', feed bs (v, d.recounted run count) =
      ((handled bs (v, d)).1, (handled bs (v, d)).2.recounted run' count') := by
  induction bs with
  | nil => intro v d run count _; exact ⟨run, count, rfl⟩
  | cons b bs ih =>
    intro v d run count h
    obtain ⟨hb, hbs⟩ := resyncs_cons h
    obtain ⟨count', hc⟩ := counted_recounted b d run count
    have hplain : ¬ Restarts b (d.recounted run count) := fun hr => by have := hb hr.1; rw [hr.2] at this; cases this
    rw [feed_cons, decoderStep_plain hplain, hc, handleByte_recounted, handled_cons]
    exact ih _ _ _ _ hbs

/-- After `n` preambles the run has counted them, up to five, whatever the decoder was doing (R151). -/
theorem le_run_of_feed_preambles (n : Nat) : ∀ r : Bool × Decoder,
    min (r.2.preRun + n) Config.preambleLen ≤ (feed (List.replicate n Config.preamble) r).2.preRun := by
  induction n with
  | zero => intro r; exact Nat.min_le_left _ _
  | succ n ih =>
    intro r
    have h := ih (decoderStep Config.preamble r.2)
    rw [(decoderStep_run _ _).1, if_pos rfl] at h
    rw [List.replicate_succ, feed_cons]
    omega

/-- A header byte after at least five preambles restarts framing, whatever the decoder was doing (R152, R153). -/
theorem feed_preambles_header {n : Nat} {h : Byte} (hn : Config.preambleLen ≤ n) (hh : headerMatch h = true)
    (v : Bool) (d : Decoder) :
    ∃ d', feed (List.replicate n Config.preamble ++ [h]) (v, d) = (false, foldCrc h (headerStep h d')) ∧
      d'.preRun = 0 := by
  have hrun := le_run_of_feed_preambles n (v, d)
  rw [feed_append, feed_cons, feed_nil, decoderStep_restart ⟨by omega, hh⟩]
  exact ⟨_, rfl, rfl⟩

/-! ### Buffers filled from an index -/

/-- Bytes stored from index `k` upwards, as the packet buffers are filled (R154, R157). -/
def storeAt {n : Nat} (v : Vector Byte n) (k : Nat) : List Byte → Vector Byte n
  | [] => v
  | b :: bs => storeAt (v.setIfInBounds k b) (k + 1) bs

theorem storeAt_toList {n : Nat} (bs : List Byte) : ∀ (v : Vector Byte n) (k : Nat), k + bs.length ≤ n →
    (storeAt v k bs).toList = v.toList.take k ++ bs ++ v.toList.drop (k + bs.length) := by
  induction bs with
  | nil => intro v k _; simp [storeAt]
  | cons b bs ih =>
    intro v k h
    rw [List.length_cons] at h
    have hk : k < v.toList.length := by rw [Vector.length_toList]; omega
    have hset : (v.setIfInBounds k b).toList = v.toList.set k b := by simp [Vector.toList]
    rw [storeAt, ih _ _ (by omega), hset, List.drop_set_of_lt (by omega), List.take_succ_eq_append_getElem (by simpa using hk),
      List.take_set_of_le (by omega), List.getElem_set_self, List.length_cons]
    simp [Nat.add_assoc, Nat.add_comm 1]

/-- Storing from index 0 puts the bytes at the front. -/
theorem storeAt_take {n : Nat} (v : Vector Byte n) (bs : List Byte) (h : bs.length ≤ n) :
    (storeAt v 0 bs).toList.take bs.length = bs := by
  rw [storeAt_toList bs v 0 (by omega)]
  simp

/-! ### The fields of a frame (R154 to R159) -/

theorem idx_succ {k : Byte} {m : Nat} (h : k.toNat + m < 256) (hm : 0 < m) : (k + 1).toNat = k.toNat + 1 := by
  bv_omega

/-- The ADDRESS bytes, as many as the header announced. -/
theorem handled_address (as : List Byte) : ∀ (v : Bool) (d : Decoder), d.dstate = .address → as ≠ [] →
    d.idx.toNat + as.length = d.pkt.addressLength.size →
    ∃ k, handled as (v, d) = (false,
      { d with
        crc := crcUpdate d.crc as, idx := k, dstate := .command
        pkt := { d.pkt with address := storeAt d.pkt.address d.idx.toNat as } }) := by
  induction as with
  | nil => intro v d _ hne; exact absurd rfl hne
  | cons a as ih =>
    intro v d hs _ hlen
    have hsize : d.pkt.addressLength.size ≤ 8 := by cases d.pkt.addressLength <;> decide
    rw [List.length_cons] at hlen
    have hi : (d.idx + 1).toNat = d.idx.toNat + 1 := idx_succ (m := as.length + 1) (by omega) (by omega)
    rw [handled_cons, handleByte_address hs (by omega), ← setIfInBounds_of_lt]
    cases as with
    | nil => exact ⟨_, by rw [if_pos (by rw [hi, ← hlen]; rfl)]; rfl⟩
    | cons b bs =>
      rw [List.length_cons] at hlen
      rw [if_neg (by omega)]
      obtain ⟨k, hk⟩ := ih false { d with
        crc := crcUpdate d.crc [a], idx := d.idx + 1
        pkt := { d.pkt with address := d.pkt.address.setIfInBounds d.idx.toNat a } } hs (by simp)
        (by simp only [hi, List.length_cons]; omega)
      refine ⟨k, ?_⟩
      rw [hs] at hk
      rw [hk]
      simp only [hi, storeAt, crcUpdate_cons, crcUpdate_nil]

/-- The DATA bytes, as many as LENGTH announced. -/
theorem handled_data (bs : List Byte) : ∀ (v : Bool) (d : Decoder), d.dstate = .data → bs ≠ [] →
    d.idx.toNat + bs.length = d.pkt.dataLength.toNat →
    handled bs (v, d) = (false,
      { d with
        crc := crcUpdate d.crc bs, idx := 0, dstate := .crc
        pkt := { d.pkt with data := storeAt d.pkt.data d.idx.toNat bs } }) := by
  induction bs with
  | nil => intro v d _ hne; exact absurd rfl hne
  | cons b bs ih =>
    intro v d hs _ hlen
    have hmax := d.pkt.dataLength.isLt
    rw [List.length_cons] at hlen
    have hi : (d.idx + 1).toNat = d.idx.toNat + 1 := idx_succ (m := bs.length + 1) (by omega) (by omega)
    have hfull : d.idx + 1 = d.pkt.dataLength ↔ bs.length = 0 := by rw [← BitVec.toNat_inj, hi]; omega
    rw [handled_cons, handleByte_data hs (by omega), ← setIfInBounds_of_lt]
    cases bs with
    | nil => rw [if_pos (hfull.mpr rfl), if_pos (hfull.mpr rfl)]; rfl
    | cons c cs =>
      have hmore : ¬ d.idx + 1 = d.pkt.dataLength := fun h => by simpa using hfull.mp h
      have hrest := ih false { d with
        crc := crcUpdate d.crc [b], idx := d.idx + 1
        pkt := { d.pkt with data := d.pkt.data.setIfInBounds d.idx.toNat b } } hs (by simp) (by simp only [hi]; omega)
      rw [hs] at hrest
      rw [if_neg hmore, if_neg hmore, hrest]
      simp only [hi, storeAt, crcUpdate_cons, crcUpdate_nil]

/-- The LENGTH byte and the DATA it announces, none of them or up to 255. -/
theorem handled_length_data (bs : List Byte) (v : Bool) (d : Decoder) (hs : d.dstate = .length) (hlen : bs.length ≤ 255) :
    handled (BitVec.ofNat 8 bs.length :: bs) (v, d) = (false,
      { d with
        crc := crcUpdate d.crc (BitVec.ofNat 8 bs.length :: bs), idx := 0, dstate := .crc
        pkt := { d.pkt with dataLength := BitVec.ofNat 8 bs.length, data := storeAt d.pkt.data 0 bs } }) := by
  have hnat : (BitVec.ofNat 8 bs.length).toNat = bs.length := by rw [BitVec.toNat_ofNat]; omega
  rw [handled_cons, handleByte_length hs]
  cases bs with
  | nil => rfl
  | cons b bs =>
    have hne : BitVec.ofNat 8 (b :: bs).length ≠ 0 := fun h => by rw [h] at hnat; simp at hnat
    rw [if_neg hne, handled_data (b :: bs) _ _ rfl (by simp) (by simp only [hnat]; simp)]
    rfl

/-- One of the first three CRC32 bytes. -/
theorem handled_crc_capture {b : Byte} {bs : List Byte} {v : Bool} {d : Decoder} (k : Byte) (hs : d.dstate = .crc)
    (hi : d.idx = k) (hk : k.toNat < 3) :
    handled (b :: bs) (v, d) = handled bs (false, { d with rxCrc := setByte d.rxCrc k.toNat b, idx := k + 1 }) := by
  subst hi
  rw [handled_cons, handleByte_crc hs, crcStep_capture hk]

/-- The four CRC32 bytes: captured little-endian, and the verdict on them. -/
theorem handled_crc (w : Word) (v : Bool) (d : Decoder) (hs : d.dstate = .crc) (hi : d.idx = 0) :
    handled (bytesLe32 w) (v, d) = (frameVerdict d w, { d with rxCrc := w, idx := 4, dstate := .idle }) := by
  have hw : setByte (setByte (setByte (setByte d.rxCrc 0 (byteOf w 0)) 1 (byteOf w 1)) 2 (byteOf w 2)) 3 (byteOf w 3) = w := by
    rw [setByte_four, le32_byteOf]
  rw [bytesLe32, handled_crc_capture 0 hs hi (by decide), handled_crc_capture 1 (by exact hs) rfl (by decide),
    handled_crc_capture 2 (by exact hs) rfl (by decide), handled_cons, handled_nil, handleByte_crc (by exact hs),
    crcStep_verdict rfl]
  exact congrArg (fun x => (frameVerdict d x, { d with rxCrc := x, idx := 4, dstate := .idle })) hw

/-- What follows the HEADER in a frame (R90): ADDRESS, COMMAND, LENGTH, DATA, CRC32. -/
def frameTail (addr : List Byte) (cmd : Byte) (data : List Byte) (w : Word) : List Byte :=
  addr ++ cmd :: BitVec.ofNat 8 data.length :: (data ++ bytesLe32 w)

/-- The packet a frame leaves in the buffers of `k` (R154 to R157). -/
def Packet.filled (k : Packet) (addr : List Byte) (cmd : Byte) (data : List Byte) : Packet :=
  { k with
    address := storeAt k.address 0 addr, command := cmd
    dataLength := BitVec.ofNat 8 data.length, data := storeAt k.data 0 data }

/-- A whole frame after its HEADER. -/
theorem handled_frameTail {addr data : List Byte} {d : Decoder} (cmd : Byte) (w : Word) (v : Bool)
    (hs : d.dstate = .address) (hi : d.idx = 0) (ha : addr.length = d.pkt.addressLength.size) (hlen : data.length ≤ 255) :
    handled (frameTail addr cmd data w) (v, d) =
      (decide (w = crcFinalize (crcUpdate d.crc (addr ++ cmd :: BitVec.ofNat 8 data.length :: data))) &&
        decide (d.pkt.type = .request),
       { d with
         crc := crcUpdate d.crc (addr ++ cmd :: BitVec.ofNat 8 data.length :: data)
         rxCrc := w, idx := 4, dstate := .idle, pkt := d.pkt.filled addr cmd data }) := by
  have hne : addr ≠ [] := by
    rintro rfl; cases hl : d.pkt.addressLength <;> rw [hl] at ha <;> cases ha
  obtain ⟨k, hk⟩ := handled_address addr v d hs hne (by rw [hi, ← ha]; simp)
  have hsplit : frameTail addr cmd data w = addr ++ ([cmd] ++ ((BitVec.ofNat 8 data.length :: data) ++ bytesLe32 w)) := by
    simp [frameTail]
  rw [hsplit, handled_append, hk, handled_append, handled_cons, handled_nil, handleByte_command rfl, handled_append,
    handled_length_data data _ _ rfl hlen, handled_crc w _ _ rfl rfl]
  simp only [frameVerdict, hi, crcUpdate_append, crcUpdate_cons, crcUpdate_nil]
  rfl

/-! ### A whole frame, from any decoder -/

/-- What a decoder holds after a frame: the fields it was sent, and the two CRCs. -/
structure Decoder.Holds (d : Decoder) (h : Byte) (addr : List Byte) (cmd : Byte) (data : List Byte) (w : Word) : Prop where
  idle : d.dstate = .idle
  type : d.pkt.type = pktTypeOf h
  addressLength : d.pkt.addressLength = addrLenOf h
  address : d.pkt.address.toList.take addr.length = addr
  command : d.pkt.command = cmd
  length : d.pkt.dataLength.toNat = data.length
  payload : d.pkt.payload = data
  received : d.rxCrc = w
  computed : d.crc = crcUpdate Config.crcInit (frameBody h addr cmd data)

/-- The resync property (41_codec.md §1): a frame without a resynchronisation inside is received by a decoder in any
state, and is valid exactly for a Request with the right CRC. -/
theorem feed_frame {n : Nat} {h : Byte} {addr data : List Byte} {cmd : Byte} {w : Word} (hn : Config.preambleLen ≤ n)
    (hh : headerMatch h = true) (ha : addr.length = (addrLenOf h).size) (hlen : data.length ≤ 255)
    (hr : resyncs 0 (frameTail addr cmd data w) = false) (v : Bool) (d : Decoder) :
    ∃ d', feed (List.replicate n Config.preamble ++ h :: frameTail addr cmd data w) (v, d) =
        (decide (w = crcCalc (frameBody h addr cmd data)) && decide (pktTypeOf h = .request), d') ∧
      d'.Holds h addr cmd data w := by
  obtain ⟨d0, hfeed, hrun⟩ := feed_preambles_header hn hh v d
  obtain ⟨run, count, ht⟩ := feed_of_not_resyncs (frameTail addr cmd data w) false (foldCrc h (headerStep h d0)) 0
    d0.syncCount hr
  have hd0 : (foldCrc h (headerStep h d0)).recounted 0 d0.syncCount = foldCrc h (headerStep h d0) := by
    unfold Decoder.recounted; rw [← hrun]; rfl
  rw [hd0, handled_frameTail cmd w false rfl rfl ha hlen] at ht
  have happend : List.replicate n Config.preamble ++ h :: frameTail addr cmd data w =
      (List.replicate n Config.preamble ++ [h]) ++ frameTail addr cmd data w := by simp
  rw [happend, feed_append, hfeed, ht]
  have hsize : (addrLenOf h).size ≤ 8 := by cases addrLenOf h <;> decide
  have hnat : (BitVec.ofNat 8 data.length).toNat = data.length := by rw [BitVec.toNat_ofNat]; omega
  refine ⟨_, rfl, rfl, rfl, rfl, storeAt_take _ _ (by omega), rfl, hnat, ?payload, rfl, rfl⟩
  case payload =>
    show (storeAt _ 0 data).toList.take (BitVec.ofNat 8 data.length).toNat = data
    rw [hnat, storeAt_take _ _ hlen]

end Sys2Proof.Machine
end

section
/-! The whole-frame decoder and the encoder (30_encoding.md §1 to §4): what a decodable frame is made of, what decodes to
what it was encoded from, and the statements that tie both to the byte-at-a-time decoder. -/

namespace Sys2Proof.Machine

/-! ### Headers and addresses -/

@[simp] theorem requestHeader_short (a : Byte) : (Addr.short a).requestHeader = 0x80 := rfl

@[simp] theorem requestHeader_long (u : Vector Byte 8) : (Addr.long u).requestHeader = 0x82 := rfl

/-- Is an address the eight-byte form? -/
def addrIsLong : Addr → Bool
  | .short _ => false
  | .long _ => true

/-! What the HEADER of a Request says (R92, R93). -/

theorem requestHeader_match (dst : Addr) : headerMatch dst.requestHeader = true := by
  cases dst with
  | short a => rw [requestHeader_short]; decide
  | long u => rw [requestHeader_long]; decide

theorem requestHeader_resp (dst : Addr) : headerResp dst.requestHeader = false := by
  cases dst with
  | short a => rw [requestHeader_short]; decide
  | long u => rw [requestHeader_long]; decide

theorem requestHeader_isLong (dst : Addr) : headerLong dst.requestHeader = addrIsLong dst := by
  cases dst with
  | short a => rw [requestHeader_short, addrIsLong]; decide
  | long u => rw [requestHeader_long, addrIsLong]; decide

theorem requestHeader_type (dst : Addr) : pktTypeOf dst.requestHeader = .request := by
  rw [pktTypeOf, requestHeader_resp]; rfl

theorem requestHeader_size (dst : Addr) : dst.bytes.length = (addrLenOf dst.requestHeader).size := by
  rw [addrLenOf, requestHeader_isLong]
  cases dst with
  | short a => rfl
  | long u => exact Vector.length_toList

/-- A list of eight bytes, written out. -/
theorem toList_eight (u : Vector Byte 8) : u.toList = [u[0], u[1], u[2], u[3], u[4], u[5], u[6], u[7]] := by
  obtain ⟨⟨l⟩, hl⟩ := u
  match l, hl with
  | [_, _, _, _, _, _, _, _], _ => rfl

/-- The ADDRESS field is read back whole, whatever follows it. -/
theorem takeAddr_bytes (dst : Addr) (rest : List Byte) :
    takeAddr (headerLong dst.requestHeader) (dst.bytes ++ rest) = some (dst, rest) := by
  rw [requestHeader_isLong]
  cases dst with
  | short a => rfl
  | long u =>
    rw [Addr.bytes, toList_eight]
    have hu : #v[u[0], u[1], u[2], u[3], u[4], u[5], u[6], u[7]] = u :=
      Vector.toList_inj.mp (toList_eight u).symm
    exact congrArg (fun x => some (Addr.long x, rest)) hu

/-- What `takeAddr` reads is the bytes of the address it gives. -/
theorem takeAddr_some {long : Bool} {bs rest : List Byte} {dst : Addr} (h : takeAddr long bs = some (dst, rest)) :
    bs = dst.bytes ++ rest ∧ headerLong dst.requestHeader = long := by
  rw [requestHeader_isLong]
  unfold takeAddr at h
  split at h
  · cases h; exact ⟨rfl, rfl⟩
  · cases h; exact ⟨rfl, rfl⟩
  · cases h

/-- A header byte that is no Response's is the Request header of its addressing. -/
theorem header_eq_requestHeader {h : Byte} {dst : Addr} (hm : headerMatch h = true) (hr : headerResp h = false)
    (hl : headerLong dst.requestHeader = headerLong h) : h = dst.requestHeader := by
  rw [requestHeader_isLong] at hl
  rcases headerMatch_cases hm with rfl | rfl | rfl | rfl
  · cases dst with
    | short a => rfl
    | long u => exact absurd (show true = headerLong 0x80 from hl) (by decide)
  · exact absurd hr (by decide)
  · cases dst with
    | short a => exact absurd (show false = headerLong 0x82 from hl) (by decide)
    | long u => rfl
  · exact absurd hr (by decide)

/-- A packet's ADDRESS field, from what its buffer begins with. -/
theorem packet_addr {k : Packet} {dst : Addr} (hl : k.addressLength = addrLenOf dst.requestHeader)
    (ha : k.address.toList.take dst.bytes.length = dst.bytes) : k.addr = dst := by
  rw [addrLenOf, requestHeader_isLong] at hl
  cases dst with
  | short a =>
    have hl : k.addressLength = .one := hl
    rw [toList_eight] at ha
    have ha : [k.address[0]] = [a] := ha
    simpa only [Packet.addr, hl, Addr.short.injEq, List.cons.injEq, and_true] using ha
  | long u =>
    have hl : k.addressLength = .eight := hl
    have ha : k.address.toList.take u.toList.length = u.toList := ha
    rw [Vector.length_toList, List.take_of_length_le (by simp)] at ha
    simpa only [Packet.addr, hl, Addr.long.injEq] using Vector.toList_inj.mp ha

/-! ### Decoding a frame -/

theorem requestFrame_eq (cmd : Byte) (dst : Addr) (d : List Byte) :
    requestFrame cmd dst d = List.replicate Config.preambleLen Config.preamble ++ dst.requestHeader ::
      frameTail dst.bytes cmd d (crcCalc (frameBody dst.requestHeader dst.bytes cmd d)) := by
  simp [requestFrame, frameOf, frameBody, frameTail, preambles]

/-- The bytes the CRC32 field covers are the frame without its preambles and its last four bytes (R98). -/
theorem frameBody_eq_take (h : Byte) (addr : List Byte) (cmd : Byte) (d : List Byte) (w : Word) :
    h :: (frameTail addr cmd d w).take ((frameTail addr cmd d w).length - 4) = frameBody h addr cmd d := by
  have hsplit : frameTail addr cmd d w = (addr ++ cmd :: BitVec.ofNat 8 d.length :: d) ++ bytesLe32 w := by
    simp [frameTail]
  rw [hsplit, List.length_append, bytesLe32_length, Nat.add_sub_cancel, List.take_left', frameBody]
  rfl

theorem decodeFrame_frameTail {p : Params} {dst : Addr} {cmd : Byte} {d : List Byte} {i : Instr} {w : Word}
    (hd : d.length ≤ 255) (hr : resyncs 0 (frameTail dst.bytes cmd d w) = false)
    (hw : w = crcCalc (frameBody dst.requestHeader dst.bytes cmd d)) (hi : requestInstr p cmd dst d = some i) :
    decodeFrame p dst.requestHeader (frameTail dst.bytes cmd d w) = .ok i := by
  have hnat : (BitVec.ofNat 8 d.length).toNat = d.length := by rw [BitVec.toNat_ofNat]; omega
  rw [decodeFrame, requestHeader_resp, hr, frameBody_eq_take, ← hw, frameTail, takeAddr_bytes]
  simp [hnat, hi]

/-- What a Request frame that decodes is made of (R90, R94, R97, R98). -/
theorem decodeFrame_ok {p : Params} {h : Byte} {bs : List Byte} {i : Instr} (hm : headerMatch h = true)
    (hd : decodeFrame p h bs = .ok i) :
    ∃ dst cmd d, h = dst.requestHeader ∧ d.length ≤ 255 ∧ resyncs 0 bs = false ∧ requestInstr p cmd dst d = some i ∧
      bs = frameTail dst.bytes cmd d (crcCalc (frameBody h dst.bytes cmd d)) := by
  unfold decodeFrame at hd
  split at hd
  · cases hd
  rename_i hresp
  split at hd
  · cases hd
  rename_i hsync
  split at hd
  case h_2 => cases hd
  rename_i dst cmd len rest htake
  split at hd
  · cases hd
  split at hd
  · cases hd
  split at hd
  case isFalse => cases hd
  rename_i hshort hlong hcrc
  split at hd
  case h_2 => cases hd
  rename_i j hj
  cases hd
  obtain ⟨hbs, hl⟩ := takeAddr_some htake
  have hlen : (rest.take len.toNat).length = len.toNat := by rw [List.length_take]; omega
  have htail : bs = frameTail dst.bytes cmd (rest.take len.toNat) (crcCalc (h :: bs.take (bs.length - 4))) := by
    rw [frameTail, hlen, BitVec.ofNat_toNat, BitVec.setWidth_eq, ← hcrc, List.take_append_drop]
    exact hbs
  have hlt := len.isLt
  have hbody : h :: bs.take (bs.length - 4) = frameBody h dst.bytes cmd (rest.take len.toNat) := by
    conv_lhs => rw [htail]
    exact frameBody_eq_take ..
  refine ⟨dst, cmd, rest.take len.toNat, header_eq_requestHeader hm (by simpa using hresp) hl, by omega,
    by simpa using hsync, hj, ?_⟩
  rw [← hbody]
  exact htail

section preambles
variable {n : Nat} {h : Byte} (hm : headerMatch h = true)
include hm

theorem header_ne_preamble : h ≠ Config.preamble := by rintro rfl; exact absurd hm (by decide)

theorem takeWhile_preambles (rest : List Byte) :
    (List.replicate n Config.preamble ++ h :: rest).takeWhile (· == Config.preamble) = List.replicate n Config.preamble := by
  rw [List.takeWhile_append_of_pos (by simp)]; simp [header_ne_preamble hm]

theorem dropWhile_preambles (rest : List Byte) :
    (List.replicate n Config.preamble ++ h :: rest).dropWhile (· == Config.preamble) = h :: rest := by
  rw [List.dropWhile_append_of_pos (by simp)]; simp [header_ne_preamble hm]

/-- Five preambles and a header byte alone are that header row. -/
theorem decode_header (p : Params) (hn : Config.preambleLen ≤ n) :
    decode p (List.replicate n Config.preamble ++ [h]) = .ok (headerInstr h) := by
  rw [decode, takeWhile_preambles hm, dropWhile_preambles hm, List.length_replicate, if_neg (by omega)]
  simp only [hm, if_true]

/-- With anything after the header byte they are a frame. -/
theorem decode_frame (p : Params) {rest : List Byte} (hn : Config.preambleLen ≤ n) (hne : rest ≠ []) :
    decode p (List.replicate n Config.preamble ++ h :: rest) = decodeFrame p h rest := by
  rw [decode, takeWhile_preambles hm, dropWhile_preambles hm, List.length_replicate, if_neg (by omega)]
  cases rest with
  | nil => exact absurd rfl hne
  | cons b bs => simp only [hm, if_true]

end preambles

/-- What bytes that decode are made of: preambles, a header byte, and nothing or a frame that decodes. -/
theorem decode_ok {p : Params} {bs : List Byte} {i : Instr} (hd : decode p bs = .ok i) :
    ∃ n h rest, Config.preambleLen ≤ n ∧ headerMatch h = true ∧
      bs = List.replicate n Config.preamble ++ h :: rest ∧
      (rest = [] ∧ i = headerInstr h ∨ decodeFrame p h rest = .ok i) := by
  have hsplit := (List.takeWhile_append_dropWhile (p := (· == Config.preamble)) (l := bs)).symm
  have hpre : bs.takeWhile (· == Config.preamble) =
      List.replicate (bs.takeWhile (· == Config.preamble)).length Config.preamble :=
    List.eq_replicate_of_mem fun b hb => by simpa using List.mem_takeWhile_imp hb
  unfold decode at hd
  split at hd
  · cases hd
  rename_i hlen
  split at hd
  · cases hd
  rename_i h rest hdrop
  rw [hpre, hdrop] at hsplit
  split at hd
  case isFalse => cases hd
  rename_i hm
  refine ⟨_, h, rest, by omega, hm, hsplit, ?_⟩
  cases rest with
  | nil => cases hd; exact .inl ⟨rfl, rfl⟩
  | cons b bs => exact .inr hd

theorem headerInstr_request (h : Byte) : (headerInstr h).request? = none := by
  unfold headerInstr; split <;> rfl

/-! ### The command map -/

/-- Distinct opcodes are read back as the commands they were written for (R10, R102). -/
theorem cmdOf_opcode {p : Params} (hp : p.opcodesOk = true) (c : Cmd) : p.cmdOf (p.opcode c) = some c := by
  have hnodup : (Cmd.all.map p.opcode).Nodup := by
    simp only [Params.opcodesOk, Bool.and_eq_true, decide_eq_true_eq] at hp
    exact hp.1
  have hall : ∀ c : Cmd, c ∈ Cmd.all := by intro c; cases c <;> decide
  have hsome : (p.cmdOf (p.opcode c)).isSome := List.find?_isSome.mpr ⟨c, hall c, by simp⟩
  obtain ⟨c', hc'⟩ := Option.isSome_iff_exists.mp hsome
  have heq : p.opcode c' = p.opcode c := by simpa using List.find?_some hc'
  rw [hc', List.inj_on_of_nodup_map hnodup (hall c') (hall c) heq]

theorem requestInstr_of_cmdOf {p : Params} {cmd : Byte} {c : Cmd} (h : p.cmdOf cmd = some c) (dst : Addr) (d : List Byte) :
    requestInstr p cmd dst d = some (c.instr dst d) := by rw [requestInstr, h]; rfl

/-- A wire command is its command at its operands. -/
theorem instr_of_request {i : Instr} {c : Cmd} {dst : Addr} {d : List Byte} (h : i.request? = some (c, dst, d)) :
    c.instr dst d = i := by
  cases i <;> cases h <;> rfl

theorem wellFormed_request {i : Instr} {c : Cmd} {dst : Addr} {d : List Byte} (h : i.request? = some (c, dst, d))
    (hw : i.wellFormed = true) : d.length ≤ 255 := by
  cases i <;> cases h <;> simpa [Instr.wellFormed, payloadOk] using hw

/-- The header rows are the four header bytes, each read back from its byte. -/
theorem headerByte_some {i : Instr} {h : Byte} (hi : i.headerByte? = some h) :
    headerMatch h = true ∧ headerInstr h = i ∧ i.request? = none := by
  cases i <;> cases hi <;> exact ⟨rfl, rfl, rfl⟩

/-- A clean Request frame decodes to the command that its opcode is (R352). -/
theorem decode_requestFrame {p : Params} {cmd : Byte} {c : Cmd} {dst : Addr} {d : List Byte}
    (hc : p.cmdOf cmd = some c) (hd : d.length ≤ 255) (hclean : requestClean cmd dst d = true) :
    decode p (requestFrame cmd dst d) = .ok (c.instr dst d) := by
  have hr : resyncs 0 (frameTail dst.bytes cmd d (crcCalc (frameBody dst.requestHeader dst.bytes cmd d))) = false := by
    simpa [requestClean, frameBody, frameTail] using hclean
  have hframe := decodeFrame_frameTail hd hr rfl (requestInstr_of_cmdOf hc dst d)
  rw [requestFrame_eq, decode_frame (requestHeader_match dst) p (Nat.le_refl _) (by simp [frameTail]), hframe]

/-! ### The statements -/

/-- Settles O16: the frame is taken apart as it decodes, and the parts are received from any decoder state. -/
theorem decodedFrameIsValidFromEveryDecoderState : Obligations.DecodedFrameIsValidFromEveryDecoderState := by
  intro p frame i hd hreq d v
  obtain ⟨n, h, rest, hn, hm, rfl, ⟨-, rfl⟩ | hframe⟩ := decode_ok hd
  · rw [headerInstr_request] at hreq; cases hreq
  obtain ⟨dst, cmd, data, rfl, hlen, hr, hi, rfl⟩ := decodeFrame_ok hm hframe
  obtain ⟨d', hfeed, hh⟩ := feed_frame hn hm (requestHeader_size dst) hlen hr v d
  refine ⟨d', ?_, hh.idle, by rw [hh.type, requestHeader_type], ?_⟩
  · rw [hfeed, requestHeader_type]; simp
  · rw [packetInstr, packet_addr hh.addressLength hh.address, hh.command, hh.payload, hi]

/-- Settles O17: a header row from its byte, a command from its frame. -/
theorem decodeOfEncodeGivesInstructionBack : Obligations.DecodeOfEncodeGivesInstructionBack := by
  intro p i bytes hp hw he hclean
  unfold encode at he
  split at he
  case h_1 c dst d hreq =>
    cases he
    rw [decode_requestFrame (cmdOf_opcode hp c) (wellFormed_request hreq hw) (hclean c dst d hreq), instr_of_request hreq]
  case h_2 h hreq hh =>
    cases he
    obtain ⟨hm, hi, -⟩ := headerByte_some hh
    rw [preambles, decode_header hm p (Nat.le_refl _), hi]
  case h_3 => cases he

/-- Settles O18: the response is received like any frame; the verdict is false because of its type alone. -/
theorem ownResponseIsDecodedButNeverValid : Obligations.OwnResponseIsDecodedButNeverValid := by
  intro node cmd data d v hlen hr
  have heq : responseFrame node cmd data = List.replicate 5 Config.preamble ++ Config.responseHeader ::
      frameTail [node] cmd data (crcCalc (frameBody Config.responseHeader [node] cmd data)) := by
    simp [responseFrame, frameOf, frameBody, frameTail, preambles, Config.preambleLen]
  rw [heq] at hr ⊢
  obtain ⟨d', hfeed, hh⟩ := feed_frame (n := 5) (h := Config.responseHeader) (addr := [node]) (Nat.le_refl _) rfl rfl hlen
    hr v d
  have haddr := hh.address
  rw [toList_eight] at haddr
  refine ⟨d', ?_, hh.idle, hh.type, hh.addressLength, (List.cons.inj haddr).1, hh.command, hh.length, hh.payload, ?_⟩
  · rw [hfeed, show pktTypeOf Config.responseHeader = .response from rfl]; simp
  · rw [hh.received, hh.computed]; rfl

/-- Settles O60: the words without a command are read off; the two requests are frames of the encoder, and clean. -/
theorem writtenFramesDecode : Obligations.WrittenFramesDecode := by
  refine ⟨fun p => ⟨rfl, rfl, rfl, rfl, rfl, rfl, rfl⟩, fun p hp => ?info, fun p hp => ?getId⟩
  case info =>
    have hframe : requestFrame 0x01 (.short 0x12) [] =
        [0x7F, 0x7F, 0x7F, 0x7F, 0x7F, 0x80, 0x12, 0x01, 0x00, 0x78, 0x2F, 0xA4, 0xCA] := by decide +kernel
    have hcmd : p.cmdOf 0x01 = some .info := by
      rw [Params.cmdOf, Cmd.all, List.find?_cons_of_pos (by simp [Params.opcode, hp])]
    rw [← hframe]
    exact decode_requestFrame hcmd (Nat.zero_le _) (by decide +kernel)
  case getId =>
    have hframe : requestFrame 0x03 (.long #v[0x01, 0x23, 0x45, 0x67, 0x89, 0xAB, 0xCD, 0xEF]) [] =
        [0x7F, 0x7F, 0x7F, 0x7F, 0x7F, 0x82, 0x01, 0x23, 0x45, 0x67, 0x89, 0xAB, 0xCD, 0xEF, 0x03, 0x00, 0x1A,
          0x4F, 0x24, 0x0C] := by decide +kernel
    rw [← hframe]
    exact decode_requestFrame hp (Nat.zero_le _) (by decide +kernel)

end Sys2Proof.Machine
end

section
/-! The CRC as a linear map (40_crc.md): the table form, the error a changed byte makes, the residue, and CRC_UPDATE. -/

namespace Sys2Proof.Machine

/-! ### Bytes inside a word -/

/-- A word is its low byte and the rest of it. -/
theorem word_split_low (x : Word) :
    x = (x.setWidth 8).setWidth 32 ^^^ (x >>> 8) <<< 8 := by
  apply BitVec.eq_of_getLsbD_eq
  intro i hi
  simp only [BitVec.getLsbD_xor, BitVec.getLsbD_setWidth, BitVec.getLsbD_shiftLeft, BitVec.getLsbD_ushiftRight]
  interval_cases i <;> simp

/-- A word is its four bytes, each at its place. -/
theorem word_split_bytes (w : Word) :
    (byteOf w 0).setWidth 32 ^^^ (byteOf w 1).setWidth 32 <<< 8 ^^^ (byteOf w 2).setWidth 32 <<< 16 ^^^
      (byteOf w 3).setWidth 32 <<< 24 = w := by
  apply BitVec.eq_of_getLsbD_eq
  intro i hi
  simp only [byteOf, BitVec.getLsbD_extractLsb', BitVec.getLsbD_xor, BitVec.getLsbD_setWidth, BitVec.getLsbD_shiftLeft]
  interval_cases i <;> simp

/-- A byte moved up and back down inside a word. -/
theorem byte_shift_back (b : Byte) {n : Nat} (hn : n ≤ 24) : (b.setWidth 32 <<< n : Word) >>> n = b.setWidth 32 := by
  apply BitVec.eq_of_getLsbD_eq
  intro i hi
  simp only [BitVec.getLsbD_ushiftRight, BitVec.getLsbD_shiftLeft, BitVec.getLsbD_setWidth, Nat.add_sub_cancel_left]
  by_cases h8 : i < 8
  · simp [show n + i < 32 by omega, hi]
  · simp [BitVec.getLsbD_of_ge b i (by omega)]

theorem setWidth_inj {x y : Byte} (h : x.setWidth 32 = y.setWidth 32) : x = y := by
  have := congrArg (BitVec.setWidth 8) h
  simpa using this

/-! ### The table form (R134) -/

/-- Eight turns look their low byte up in the table, and only shift the rest. -/
theorem crcBits_eight (x : Word) : crcBits 8 x = crcTable (x.setWidth 8) ^^^ x >>> 8 := by
  have hback : ((x >>> 8) <<< 8) >>> 8 = x >>> 8 := by
    apply BitVec.eq_of_getLsbD_eq
    intro i hi
    by_cases h24 : 8 + i < 32
    · simp [h24]
    · simp [h24, BitVec.getLsbD_of_ge x (8 + i) (by omega)]
  calc crcBits 8 x = crcBits 8 ((x.setWidth 8).setWidth 32 ^^^ (x >>> 8) <<< 8) := congrArg _ (word_split_low x)
    _ = crcTable (x.setWidth 8) ^^^ crcBits 8 ((x >>> 8) <<< 8) := crcBits_xor ..
    _ = crcTable (x.setWidth 8) ^^^ x >>> 8 := by rw [crcBits_shift 8 _ fun i hi => by simp [hi], hback]

/-- One byte by the table: the low byte looked up, the others only shifted. -/
theorem crcByte_eq_table (acc : Word) (b : Byte) :
    crcByte acc b = (acc >>> 8) ^^^ crcTable ((acc ^^^ b.setWidth 32).setWidth 8) := by
  have hhigh : (acc ^^^ b.setWidth 32) >>> 8 = acc >>> 8 := by
    apply BitVec.eq_of_getLsbD_eq
    intro i hi
    simp
  rw [crcByte, crcBits_eight, hhigh, BitVec.xor_comm]

/-! ### One changed byte -/

/-- A turn of the bit loop takes no word but 0 to 0: the polynomial's top bit stays where the bit shifted out was set. -/
theorem crcBit_eq_zero {x : Word} (h : crcBit x = 0) : x = 0 := by
  unfold crcBit at h
  cases h0 : x.getLsbD 0 with
  | true =>
    rw [if_pos h0] at h
    have htop := congrArg (fun y => y.getLsbD 31) h
    rw [BitVec.getLsbD_xor, BitVec.getLsbD_ushiftRight, BitVec.getLsbD_of_ge x (1 + 31) (by omega)] at htop
    exact absurd htop (by decide)
  | false =>
    rw [if_neg (by rw [h0]; decide)] at h
    apply BitVec.eq_of_getLsbD_eq
    intro i hi
    cases i with
    | zero => rw [h0]; rfl
    | succ i =>
      have := congrArg (fun y => y.getLsbD i) h
      rw [BitVec.getLsbD_ushiftRight, Nat.add_comm] at this
      simpa using this

theorem crcBits_eq_zero (n : Nat) : ∀ {x : Word}, crcBits n x = 0 → x = 0 := by
  induction n with
  | zero => intro x h; exact h
  | succ n ih => intro x h; exact crcBit_eq_zero (ih h)

/-- The bit loop loses nothing. -/
theorem crcBits_inj {n : Nat} {x y : Word} (h : crcBits n x = crcBits n y) : x = y := by
  have hxy : crcBits n (x ^^^ y) = 0 := by rw [crcBits_xor, h, BitVec.xor_self]; rfl
  exact BitVec.xor_eq_zero_iff.mp (crcBits_eq_zero n hxy)

/-- Different accumulators stay different under the same bytes. -/
theorem crcUpdate_inj (s : List Byte) : ∀ {x y : Word}, crcUpdate x s = crcUpdate y s → x = y := by
  induction s with
  | nil => intro x y h; exact h
  | cons b s ih => intro x y h; exact (BitVec.xor_left_inj _).mp (crcBits_inj (ih h))

/-- Different bytes take the same accumulator to different ones. -/
theorem crcByte_inj {acc : Word} {x y : Byte} (h : crcByte acc x = crcByte acc y) : x = y :=
  setWidth_inj ((BitVec.xor_right_inj _).mp (crcBits_inj h))

/-! ### The residue -/

/-- A byte folded in after `n` turns is the byte, moved up `n` bits, folded in before them. -/
theorem crcByte_crcBits (acc : Word) (b : Byte) {n : Nat} (hn : n ≤ 24) :
    crcByte (crcBits n acc) b = crcBits (n + 8) (acc ^^^ b.setWidth 32 <<< n) := by
  have hclear : ∀ i < n, (b.setWidth 32 <<< n : Word).getLsbD i = false := by intro i hi; simp [hi]
  rw [crcBits_add, crcBits_xor n, crcBits_shift n _ hclear, byte_shift_back b hn]
  rfl

/-- Four bytes fold in as the little-endian word they are. -/
theorem crcUpdate_bytesLe32 (acc w : Word) : crcUpdate acc (bytesLe32 w) = crcBits 32 (acc ^^^ w) := by
  have h0 : crcByte acc (byteOf w 0) = crcBits 8 (acc ^^^ (byteOf w 0).setWidth 32) := rfl
  rw [bytesLe32, crcUpdate_cons, crcUpdate_cons, crcUpdate_cons, crcUpdate_cons, crcUpdate_nil, h0,
    crcByte_crcBits _ _ (by decide), crcByte_crcBits _ _ (by decide), crcByte_crcBits _ _ (by decide)]
  conv_rhs => rw [← word_split_bytes w]
  simp only [BitVec.xor_assoc]

theorem crcBits_ones : crcBits 32 0xFFFFFFFF = 0xDEBB20E3 := by decide +kernel

/-! ### CRC_UPDATE -/

theorem exec_crcUpdate_ready {s : State} (h : Ready s) (acc : Acc) (bytes : List Byte) :
    exec (.crcUpdate acc bytes) s = .next (putAcc acc (crcUpdate (accValue acc s) bytes) s) := atRest_ready h

/-- The bit loop with its body written out (R131). -/
theorem crcByte_eq_iterate (acc : Word) (b : Byte) :
    crcByte acc b = Nat.iterate (fun a => if a.getLsbD 0 then (a >>> 1) ^^^ 0xEDB88320 else a >>> 1) 8
      (acc ^^^ b.setWidth 32) := rfl

/-! ### The statements -/

/-- Settles O2: the operation's answer, and the bit loop byte by byte. -/
theorem crcUpdateFoldsEachByte : Obligations.CrcUpdateFoldsEachByte := by
  refine ⟨fun s bs h => ⟨?decoder, fun w => ?temp⟩, crcUpdate_nil, fun acc b bs => ?byte, crcUpdate_checkString⟩
  case decoder => rw [exec_crcUpdate_ready h, putAcc_decoder, accValue_decoder]
  case temp => rw [exec_crcUpdate_ready h, putAcc_temp, accValue_temp]
  case byte => rw [crcUpdate_cons, crcByte_eq_iterate]

/-- Settles O5, by induction on the string; each byte is `crcByte_eq_table`. -/
theorem crcTableFormAgreesWithBitLoop : Obligations.CrcTableFormAgreesWithBitLoop := by
  intro acc s
  induction s generalizing acc with
  | nil => rfl
  | cons b s ih => rw [crcUpdate_cons, crcByte_eq_table, ← ih]; rfl

/-- Settles O6: the second operation goes on from the accumulator the first one left. -/
theorem crcUpdateStreamsAcrossSplits : Obligations.CrcUpdateStreamsAcrossSplits := by
  intro s t a b h ht
  rw [exec_crcUpdate_ready h] at ht
  cases ht
  rw [exec_crcUpdate_ready h, exec_crcUpdate_ready (by exact h)]
  simp only [putAcc_decoder, accValue_decoder, crcUpdate_append]

/-- Settles O7: the byte makes the accumulators differ, and no later byte makes them meet again. -/
theorem crcDetectsAChangedByte : Obligations.CrcDetectsAChangedByte := by
  intro pre post x y hxy h
  have hacc := (BitVec.xor_left_inj _).mp h
  rw [crcUpdate_append, crcUpdate_append, crcUpdate_cons, crcUpdate_cons] at hacc
  exact hxy (crcByte_inj (crcUpdate_inj post hacc))

/-- Settles O8: the CRC's own bytes cancel the accumulator, whatever it was, and leave the bit loop of all ones. -/
theorem crcResidueIsConstant : Obligations.CrcResidueIsConstant := by
  intro s
  have hcancel : crcUpdate 0xFFFFFFFF s ^^^ crcCalc s = 0xFFFFFFFF := by
    rw [crcCalc, crcFinalize, Config.crcInit, Config.crcXorOut, ← BitVec.xor_assoc, BitVec.xor_self, BitVec.zero_xor]
  rw [crcUpdate_append, crcUpdate_bytesLe32, hcancel, crcBits_ones]

end Sys2Proof.Machine
end

section
/-! The decoder's byte step as an operation (41_codec.md R150 to R153, R161): header bytes with and without a run, the
counting, what makes a frame valid; and the refusal of SERIALIZE. -/

namespace Sys2Proof.Machine

/-! ### Header bytes -/

/-- A header row's meaning: its byte is received (log 23). -/
theorem exec_headerByte {i : Instr} {b : Byte} (hi : i.headerByte? = some b) (s : State) :
    exec i s = atRest s (.next (receive b s)) := by
  cases i <;> cases hi <;> rfl

/-- The decoder after a header byte that restarts framing (R152, R153, R158). -/
def Decoder.restarted (d : Decoder) (b : Byte) (type : PktType) (len : AddrLen) : Decoder :=
  { d with
    preRun := 0, dstate := .address, idx := 0, crc := crcUpdate 0xFFFFFFFF [b],
    pkt := { d.pkt with type := type, addressLength := len } }

theorem decoderStep_header {d : Decoder} {b : Byte} (hrun : 5 ≤ d.preRun) (hb : headerMatch b = true) :
    decoderStep b d = (false, d.restarted b (pktTypeOf b) (addrLenOf b)) :=
  decoderStep_restart ⟨hrun, hb⟩

/-- Without a run of five preambles no byte restarts framing. -/
theorem not_restarts_of_run_lt {b : Byte} {d : Decoder} (h : d.preRun < 5) : ¬ Restarts b d :=
  fun hr => Nat.not_le.mpr h hr.1

section ready
variable {s : State} (h : Ready s)
include h

theorem exec_decoderStep_ready (b : Byte) :
    exec (.decoderStep b) s = .next { s with dec := (decoderStep b s.dec).2, ret := .valid (decoderStep b s.dec).1 } :=
  atRest_ready h

/-- A header row after its run of preambles. -/
theorem exec_headerByte_restart {i : Instr} {b : Byte} (hi : i.headerByte? = some b) (hrun : 5 ≤ s.dec.preRun) :
    exec i s = .next { s with dec := s.dec.restarted b (pktTypeOf b) (addrLenOf b) } := by
  obtain ⟨hb, -⟩ := headerByte_some hi
  rw [exec_headerByte hi, atRest_ready h, receive, decoderStep_header hrun hb]

/-- The same byte by DECODER_STEP. -/
theorem exec_decoderStep_restart {b : Byte} (hb : headerMatch b = true) (hrun : 5 ≤ s.dec.preRun) :
    exec (.decoderStep b) s =
      .next { s with dec := s.dec.restarted b (pktTypeOf b) (addrLenOf b), ret := .valid false } := by
  rw [exec_decoderStep_ready h, decoderStep_header hrun hb]

end ready

/-! ### The verdict -/

/-- Only Crc gives a verdict. -/
theorem handleByte_verdict_crc {b : Byte} {d : Decoder} (h : (handleByte b d).1 = true) : d.dstate = .crc := by
  cases hd : d.dstate with
  | crc => rfl
  | _ => simp only [handleByte, hd] at h; cases h

/-- Crc gives it on the fourth byte only, by R34. -/
theorem crcStep_verdict_true {b : Byte} {d : Decoder} (h : (crcStep b d).1 = true) :
    d.idx = 3 ∧ frameVerdict d (setByte d.rxCrc 3 b) = true := by
  have hi : d.idx = 3 := by
    unfold crcStep at h
    simp only at h
    split at h
    case isTrue h4 => bv_omega
    case isFalse => cases h
  rw [crcStep_verdict hi, hi] at h
  exact ⟨hi, h⟩

/-! ### The statements -/

/-- Settles O9: each of the four rows, and each byte by DECODER_STEP, is `Decoder.restarted`. -/
theorem headerByteRestartsFramingInEveryState : Obligations.HeaderByteRestartsFramingInEveryState := by
  intro s h hrun
  exact ⟨exec_headerByte_restart h rfl hrun, exec_headerByte_restart h rfl hrun, exec_headerByte_restart h rfl hrun,
    exec_headerByte_restart h rfl hrun, exec_decoderStep_restart h rfl hrun, exec_decoderStep_restart h rfl hrun,
    exec_decoderStep_restart h rfl hrun, exec_decoderStep_restart h rfl hrun⟩

/-- Settles O10: without the run the byte is counted and handled by the current state, and Idle ignores it. -/
theorem headerByteWithoutRunRestartsNothing : Obligations.HeaderByteWithoutRunRestartsNothing := by
  intro s i b h hrun hi
  obtain ⟨hb, -⟩ := headerByte_some hi
  have hcount : counted b s.dec = { s.dec with preRun := 0 } :=
    if_neg fun he => by rw [he] at hb; exact absurd hb (by decide)
  have hexec : exec i s = .next { s with dec := (handleByte b { s.dec with preRun := 0 }).2 } := by
    rw [exec_headerByte hi, atRest_ready h, receive, decoderStep_plain (not_restarts_of_run_lt hrun), hcount]
  refine ⟨hexec, fun hidle => ?_⟩
  rw [hexec, handleByte_idle (by exact hidle)]

/-- Settles O11: the counting of R151, which the state's handling leaves alone. -/
theorem preamblesAreCountedInEveryState : Obligations.PreamblesAreCountedInEveryState := by
  intro s b h
  obtain ⟨hrun, hsync⟩ := decoderStep_run b s.dec
  refine ⟨_, _, exec_decoderStep_ready h b, fun hb => ?preamble, fun hb => ?other⟩
  case preamble =>
    rw [if_pos (show b = Config.preamble from hb)] at hrun hsync
    exact ⟨hsync, hrun⟩
  case other =>
    rw [if_neg (show b ≠ Config.preamble from hb)] at hrun hsync
    exact ⟨hsync, hrun⟩

/-- Settles O15: a restart gives no verdict, and of the states only Crc does, on its fourth byte. -/
theorem onlyCheckedRequestsAreValid : Obligations.OnlyCheckedRequestsAreValid := by
  intro b d h
  by_cases hr : Restarts b d
  · rw [decoderStep_restart hr] at h; cases h
  rw [decoderStep_plain hr] at h ⊢
  have hcrc := handleByte_verdict_crc h
  rw [handleByte_crc hcrc] at h ⊢
  obtain ⟨hi, hv⟩ := crcStep_verdict_true h
  rw [crcStep_verdict hi]
  simp only [frameVerdict, Bool.and_eq_true, decide_eq_true_eq, counted_crc, counted_pkt, counted_rxCrc] at hv
  rw [counted_dstate] at hcrc
  rw [counted_idx] at hi
  exact ⟨hcrc, hi, hv.2, hv.1, rfl, counted_pkt b d⟩

/-- Settles O20: the guard on the operand. -/
theorem serializeRefusesShortData : Obligations.SerializeRefusesShortData := by
  intro s node cmd data len h hlen
  exact (atRest_ready h).trans (if_pos hlen)

end Sys2Proof.Machine
end

section
/-! The erase sequence of the flash sequencer (42_flash.md R215), erase then write, a controller that never completes
(R219), and MemRead (20_memory.md R62). -/

namespace Sys2Proof.Machine

/-! ### erase_page -/

/-- The bytes of an erased page (R210). Irreducible, so that comparing two states never computes the 64 writes. -/
@[irreducible] def erasedPage : List Byte := List.replicate Config.pageSize Config.erased

theorem erasedPage_eq : erasedPage = List.replicate 64 Config.erased := by unfold erasedPage; rfl

theorem pendingEffect_pageErase (s : State) (a : Word) :
    pendingEffect s (.pageErase a) = { s with flash := s.flash.writeBytes a.toNat erasedPage } := by
  simp only [pendingEffect, erasedPage]

theorem read_erasedPage (m : Memory) (a : Word) (x : Nat) :
    (m.writeBytes a.toNat erasedPage).read x =
      if a.toNat ≤ x ∧ x < a.toNat + 64 then Config.erased else m.read x := by
  rw [Memory.read_writeBytes, erasedPage_eq, List.length_replicate]
  by_cases hx : a.toNat ≤ x ∧ x < a.toNat + 64
  · rw [if_pos hx, if_pos hx]
    exact List.getD_replicate _ (show x - a.toNat < 64 by omega)
  · rw [if_neg hx, if_neg hx]

/-- The state after `erase_page(a)` (R215). -/
def State.pageErased (s : State) (a : Word) : State :=
  { s with
    flash := s.flash.writeBytes a.toNat erasedPage
    fc := s.fc.afterErase a
    trace := s.trace ++ erasePageEvents a
    env := (s.polled 1).env }

/-- The core held in the wait of R215, with a controller that does not complete. -/
def State.pageEraseHeld (s : State) (a : Word) : State :=
  { s with
    fc := { s.fc with
      locked := false, mode := ModeSet.only .pageErase, addr := a, busy := true, pending := some (.pageErase a) }
    trace := s.trace ++ [.flash .unlock, .flash (.setMode .pageErase), .flash (.writeAddr a), .flash .start]
    work := [.wait, .port (.clearMode .pageErase)] }

theorem countdown_notMem_erasePageTasks (a : Word) : Task.countdown ∉ erasePageTasks a := by simp [erasePageTasks]

theorem exec_erasePage_ready {s : State} (h : Ready s) (a : Word) :
    exec (.erasePage a) s = run (erasePageTasks a) s := atRest_ready h

/-- The erase of a page, whatever tasks follow it. -/
theorem runStill_pageErased {s : State} {a : Word} (hm : s.fc.mode = ModeSet.empty) (hp : pageOk s.par a = true)
    (hc : Clears 1 s) (ts : List Task) : runStill (erasePageTasks a ++ ts) s = runStill ts (s.pageErased a) := by
  have h := runStill_erasePage a ts s s.fc [] hm hp hc
  rw [State.ported_fc_nil, pendingEffect_pageErase] at h
  exact h

/-- The program of a page, whatever tasks follow it. -/
theorem runStill_pageProgrammed {s : State} {a : Word} {d : Vector Byte 64} (hm : s.fc.mode = ModeSet.empty)
    (hp : pageOk s.par a = true) (hc : Clears 17 s) (ts : List Task) :
    runStill (writePageTasks a d ++ ts) s = runStill ts (s.pageProgrammed a d) := by
  have h := runStill_writePage a d ts s s.fc [] hm hp hc
  simp only [State.ported_fc_nil, pendingEffect, pageWords_bytes] at h
  exact h

/-- An address that R210 refuses ends the run, whatever tasks follow. -/
theorem run_erasePage_fault {s : State} {a : Word} {ts : List Task} (hm : s.fc.mode = ModeSet.empty)
    (hp : pageOk s.par a = false) (hts : Task.countdown ∉ ts) :
    run (erasePageTasks a ++ ts) s = .fault .unmodelledFlashAddress := by
  have h := runStill_erasePage_fault a ts s s.fc [] hm hp
  rw [State.ported_fc_nil] at h
  exact run_of_still_fault (by simp [countdown_notMem_erasePageTasks, hts]) h

/-- A controller that never clears busy holds the sequence in its wait (R219). -/
theorem runStill_erasePage_stuck {s : State} {a : Word} (hm : s.fc.mode = ModeSet.empty) (hp : pageOk s.par a = true)
    (hs : Stuck s) : runStill (erasePageTasks a) s = .next (s.pageEraseHeld a) := by
  obtain ⟨fc, hfc⟩ : ∃ fc, s.fc = fc := ⟨_, rfl⟩
  obtain ⟨lk, ou, md, ad, sg, si, pb, bz, pd⟩ := fc
  rw [hfc] at hm
  simp only at hm
  subst hm
  rw [← State.ported_fc_nil s, erasePageTasks, runStill_port_next rfl,
    runStill_port_next (fc' := ⟨false, ou, .only .pageErase, ad, sg, si, pb, bz, pd⟩) (by rw [hfc]; rfl),
    runStill_port_next rfl, runStill_port_next (op := .start) ((start_pageErase rfl rfl).trans (if_pos hp)),
    runStill_wait_stuck rfl hs]
  simp [State.pageEraseHeld, State.ported, Controller.await, hfc]

/-! ### A core that is held -/

/-- A step of a core held in a wait whose controller never completes: only the host moves. -/
theorem step_stuck {s t : State} {ts : List Task} (hw : s.work = .wait :: ts) (hh : s.handedOff = false)
    (hb : s.fc.busy = true) (hs : Stuck s) (ht : UpToHost s s t) : ∃ u, step t = .next u ∧ UpToHost s s u := by
  have h1 := ht.hostTurn
  have h2 := h1.hostTurn
  have hstuck : Stuck (hostTurn (hostTurn t)) := by rw [Stuck, h2.fcPolls_eq]; exact hs
  have hwork : (hostTurn t).work = .wait :: ts := by rw [h1.work_eq, hw]
  have hkeep : { hostTurn (hostTurn t) with work := .wait :: ts } = hostTurn (hostTurn t) := by
    rw [← hw, ← h2.work_eq]
  refine ⟨hostTurn (hostTurn t), ?_, h2⟩
  unfold step stepWith
  simp only [ht.handedOff_eq, hh, hwork]
  rw [if_neg (by simp), if_neg (by simp), run_wait_held (pollBusy_stuck (by rw [h2.fc_eq, hb]) hstuck), hkeep]

/-! ### MemRead -/

/-- Bytes that can all be read are read in order. -/
theorem memBytes_ok {s : State} {f : Nat → Byte} (n : Nat) : ∀ a : Nat,
    (∀ k < n, memByte s (a + k) = .ok (f (a + k))) → memBytes s a n = .ok ((List.range n).map fun k => f (a + k)) := by
  induction n with
  | zero => intro a _; rfl
  | succ n ih =>
    intro a h
    have h0 : memByte s a = .ok (f a) := h 0 (by omega)
    have hrest := ih (a + 1) fun k hk => by
      rw [show a + 1 + k = a + (k + 1) by omega]; exact h (k + 1) (by omega)
    rw [memBytes, h0, hrest, List.range_succ_eq_map, List.map_cons, List.map_map]
    have hmap : (List.range n).map (fun k => f (a + 1 + k)) = (List.range n).map ((fun k => f (a + k)) ∘ Nat.succ) :=
      List.map_congr_left fun k _ => congrArg f (by omega)
    rw [hmap]
    rfl

/-- The only fault of a byte read. -/
theorem memByte_error {s : State} {a : Nat} {f : Fault} (h : memByte s a = .error f) : f = .unmodelledRead := by
  unfold memByte at h
  split at h
  · cases h
  split at h
  · cases h
  split at h <;> cases h
  rfl

/-- A span with a byte that cannot be read is the fault. -/
theorem memBytes_error {s : State} (n : Nat) : ∀ (a k : Nat), k < n → memByte s (a + k) = .error .unmodelledRead →
    memBytes s a n = .error .unmodelledRead := by
  induction n with
  | zero => intro a k hk; cases hk
  | succ n ih =>
    intro a k hk h
    rw [memBytes]
    cases hb : memByte s a with
    | error f => simp only [memByte_error hb]
    | ok b =>
      cases k with
      | zero => rw [Nat.add_zero, hb] at h; cases h
      | succ k =>
        have := ih (a + 1) k (by omega) (by rw [show a + 1 + k = a + (k + 1) by omega]; exact h)
        simp only [this]

theorem memByte_option {s : State} {a k : Nat} (ha : a = s.par.obBase.toNat) (hk : k < 24) :
    memByte s (a + k) = .ok s.ob[k] := by
  subst ha
  rw [memByte, dif_pos ⟨by omega, by omega⟩]
  simp

/-- A flash byte lies in no well-formed chip's option region (log 16). -/
theorem memByte_flash {s : State} {a : Nat} (hw : s.par.wf = true) (ha : inFlash s.par a 1 = true) :
    memByte s a = .ok (s.flash.read a) := by
  have hdisjoint : s.par.obBase.toNat + 24 ≤ s.par.flashBase.toNat ∨
      s.par.flashBase.toNat + s.par.flashSize ≤ s.par.obBase.toNat := by
    simp only [Params.wf, Bool.and_eq_true, decide_eq_true_eq] at hw
    exact hw.1.2
  have hin := ha
  simp only [inFlash, decide_eq_true_eq] at hin
  rw [memByte, dif_neg (by omega), if_pos ha]

theorem memByte_unreadable {s : State} {a : Nat}
    (ho : ¬(s.par.obBase.toNat ≤ a ∧ a < s.par.obBase.toNat + 24)) (hf : inFlash s.par a 1 = false)
    (hp : platformReadable s.par a = false) : memByte s a = .error .unmodelledRead := by
  rw [memByte, dif_neg ho, if_neg (by simp [hf]), if_neg (by simp [hp])]

theorem memRead_wraps {s : State} {a : Word} {n : Nat} (h : 2 ^ 32 < a.toNat + n) :
    memRead s a n = .error .unmodelledRead := if_pos h

theorem memRead_inside {s : State} {a : Word} {n : Nat} (h : a.toNat + n ≤ 2 ^ 32) :
    memRead s a n = memBytes s a.toNat n := if_neg (Nat.not_lt.mpr h)

/-- Both regions of a well-formed chip end inside the address space (R9). -/
theorem wf_regions {p : Params} (hw : p.wf = true) :
    p.obBase.toNat + 24 ≤ 2 ^ 32 ∧ p.flashBase.toNat + p.flashSize ≤ 2 ^ 32 := by
  simp only [Params.wf, Bool.and_eq_true, decide_eq_true_eq] at hw
  obtain ⟨⟨⟨⟨-, -, hob⟩, -, -, hflash⟩, -⟩, -⟩ := hw
  exact ⟨hob, hflash⟩

/-! ### The statements -/

/-- Settles O21: the sequence comes to `State.pageErased`, its `Start` is the fault, or its wait is held. -/
theorem erasePageErasesOnePage : Obligations.ErasePageErasesOnePage := by
  intro s a h hm
  rw [exec_erasePage_ready h, ← List.append_nil (erasePageTasks a)]
  refine ⟨fun hp hc => ?erased, fun hp => run_erasePage_fault hm hp (by simp), fun hp hs => ?held⟩
  case erased =>
    obtain ⟨t, hrun, ht⟩ := run_of_still_end (by simp [countdown_notMem_erasePageTasks]) (u := s.pageErased a) h.2
      (runStill_pageErased hm hp hc [])
    refine ⟨t, hrun, ?_, fun x => ?_⟩
    · rw [ht.flash_eq]; exact ht
    · rw [ht.flash_eq]; exact read_erasedPage s.flash a x
  case held =>
    obtain ⟨t, hrun, ht⟩ := run_of_still (countdown_notMem_erasePageTasks a) (runStill_erasePage_stuck hm hp hs)
    rw [List.append_nil]
    refine ⟨t, hrun, ht.work_eq, ?_, ht.fc_eq⟩
    rw [ht.fc_eq, ht.work_eq]
    exact ht

/-- Settles O24: the erase leaves the page erased and a controller that the write can start from. -/
theorem eraseThenWriteReadsBack : Obligations.EraseThenWriteReadsBack := by
  intro s a d h hm hp hc
  have hc' : Clears (1 + 17) s := hc
  obtain ⟨t, herase, ht, hread⟩ := (erasePageErasesOnePage s a h hm).1 hp (hc'.mono (by omega))
  have hready : Ready t := ⟨ht.handedOff_eq.trans h.1, ht.work_eq.trans h.2⟩
  have hpage : pageOk t.par a = true := by rw [ht.par_eq]; exact hp
  have hclears : Clears 17 t := by rw [Clears, ht.fcPolls_eq]; exact hc'.after
  obtain ⟨u, hwrite, -, hin, hout⟩ :=
    (writePageProgramsErasedBytes t a d hready (by rw [ht.fc_eq])).1 hpage hclears
  refine ⟨t, u, herase, hwrite, fun k hk => hin k hk ?_, fun x hx => ?_⟩
  · rw [hread, if_pos ⟨by omega, by omega⟩]
  · rw [hout x hx, hread, if_neg hx]

/-- Settles O25, by induction on the steps: each of them only lets the host move. -/
theorem stuckControllerHoldsTheCore : Obligations.StuckControllerHoldsTheCore := by
  intro n s ts hh hw hb hs
  suffices ∀ t, UpToHost s s t → ∃ u, Sys2Proof.core.run n t = .next u ∧ UpToHost s s u from this s (.refl s)
  induction n with
  | zero => intro t ht; exact ⟨t, rfl, ht⟩
  | succ n ih =>
    intro t ht
    obtain ⟨u, hstep, hu⟩ := step_stuck hw hh hb hs ht
    rw [core_run_succ hstep]
    exact ih u hu

/-- Settles O27: each kind of address by its byte, and a whole span from its bytes. -/
theorem memReadReadsFlashAndOptionBytes : Obligations.MemReadReadsFlashAndOptionBytes := by
  intro s hw
  obtain ⟨hob, hflash⟩ := wf_regions hw
  refine ⟨fun a n hin => ?flash, ?options, fun a n k hk ho hf hp => ?unreadable, fun a n h => memRead_wraps h⟩
  case flash =>
    simp only [inFlash, decide_eq_true_eq] at hin
    rw [memRead_inside (by omega)]
    exact memBytes_ok (f := s.flash.read) n a.toNat fun k hk =>
      memByte_flash hw (by simp only [inFlash, decide_eq_true_eq]; omega)
  case options =>
    rw [memRead_inside hob, memBytes_ok (f := fun x => s.ob.toList.getD (x - s.par.obBase.toNat) 0)]
    · simp only [Nat.add_sub_cancel_left, Except.ok.injEq]
      exact List.ext_getElem (by simp) fun i h1 h2 => by
        have hi : i < 24 := by simpa using h2
        simp [hi]
    · intro k hk
      rw [memByte_option rfl hk, Nat.add_sub_cancel_left]
      simp [hk]
  case unreadable =>
    by_cases hwrap : 2 ^ 32 < a.toNat + n
    · exact memRead_wraps hwrap
    · rw [memRead_inside (by omega)]
      exact memBytes_error n _ k hk (memByte_unreadable ho hf hp)

end Sys2Proof.Machine
end

section
/-! The dispatcher's commands (43_dispatcher.md §2): the answers with an effect, the backoff of GET_ID, the flash commands
from their payloads, GET_CRC32, and what drops a request. -/

namespace Sys2Proof.Machine

/-! ### Answers -/

section answers
variable {s : State} {dst : Addr} (h : Ready s) (ha : addrAccept s dst = true) (d : List Byte)
include h ha

theorem exec_getChip_accepted : exec (.getChip dst d) s = .next (respond s.par.opGetChip s.par.chipName s) :=
  exec_answer h ha rfl rfl h.2

theorem exec_unsilent_accepted :
    exec (.unsilent dst d) s = .next (respond s.par.opUnsilent [] { s with silent := false }) :=
  exec_answer h ha rfl rfl h.2

theorem exec_go_accepted :
    exec (.go dst d) s =
      .next (respond s.par.opGo [] { s with bootMode := .go, countdown := s.par.goTicks }) :=
  exec_answer h ha rfl rfl h.2

end answers

/-! ### GET_ID and its backoff (R245) -/

/-- The reduction loop is the remainder: a turn takes away the window, or 32 of them. -/
theorem backoffReduce_eq_mod {w : Nat} (hw : 0 < w) (fuel : Nat) : ∀ v, v ≤ fuel → backoffReduce w fuel v = v % w := by
  induction fuel with
  | zero => intro v hv; rw [Nat.le_zero.mp hv, Nat.zero_mod]; rfl
  | succ fuel ih =>
    intro v hv
    rw [backoffReduce]
    by_cases h1 : w ≤ v
    · rw [if_pos h1]
      by_cases h32 : 32 * w ≤ v
      · rw [if_pos h32, ih _ (by omega), Nat.mul_comm, Nat.sub_mul_mod (by omega)]
      · rw [if_neg h32, ih _ (by omega), ← Nat.mod_eq_sub_mod h1]
    · rw [if_neg h1, Nat.mod_eq_of_lt (by omega)]

theorem backoffValue_eq (seed : Byte) (s : State) :
    backoffValue seed s =
      (crcCalc (s.par.uid.toList ++ backoffSeed seed s)).toNat % 65536 % (seed.toNat + 32) := by
  rw [backoffValue, backoffReduce_eq_mod (by simp [backoffWindow, Config.windowBase]) _ _ (Nat.le_refl _), backoffHash,
    BitVec.toNat_setWidth]
  rfl

/-- Any payload but a single byte asks for no delay (R243). -/
theorem planGetId_of_length {d : List Byte} (s : State) (hd : d.length ≠ 1) :
    planGetId d s = .ok (s, [.respond s.par.opGetId s.par.uid.toList]) := by
  match d, hd with
  | [], _ => rfl
  | [_], hd => exact absurd rfl hd
  | _ :: _ :: _, _ => rfl

section getId
variable {s : State} {dst : Addr} (h : Ready s) (ha : addrAccept s dst = true)
include h ha

theorem exec_getId_accepted {d : List Byte} (hd : d.length ≠ 1) :
    exec (.getId dst d) s = .next (respond s.par.opGetId s.par.uid.toList s) :=
  exec_answer h ha rfl (congrArg (onRequest dst s) (planGetId_of_length s hd)) h.2

theorem exec_getId_backoff (seed : Byte) :
    exec (.getId dst [seed]) s = .next (respond s.par.opGetId s.par.uid.toList (delay (backoffValue seed s) s)) :=
  exec_answer h ha rfl rfl h.2

end getId

/-! ### Payload fields (R103) -/

theorem getElem?_zero_eq_arg {d : List Byte} (h : d ≠ []) : d[0]? = some (arg d 0) := by
  cases d with
  | nil => exact absurd rfl h
  | cons b d => rfl

/-- Two words in a payload are read back. -/
theorem argWord_bytesLe32 (a n : Word) :
    argWord (bytesLe32 a ++ bytesLe32 n) 0 = a ∧ argWord (bytesLe32 a ++ bytesLe32 n) 4 = n :=
  ⟨le32_byteOf a, le32_byteOf n⟩

/-- The block index of ERASE as the address of its block (R250). -/
theorem eraseAddress_eq (p : Params) (fw lo hi : Byte) :
    eraseAddress p [fw, lo, hi] = p.flashBase + BitVec.ofNat 32 ((lo.toNat + 256 * hi.toNat) * 64) := by
  have hle : (eraseBlock [fw, lo, hi]).toNat = lo.toNat + 256 * hi.toNat := le16_toNat lo hi
  have hlo := lo.isLt
  have hhi := hi.isLt
  rw [eraseAddress]
  congr 1
  apply BitVec.eq_of_toNat_eq
  rw [BitVec.toNat_mul, BitVec.toNat_setWidth, hle, BitVec.toNat_ofNat, show (64 : Word).toNat = 64 from rfl]
  omega

/-- The payload of WRITE, as the host sends it: every byte of address and page lowered by the correction (30_encoding.md
§3). -/
def offsetPayload (fw corr : Byte) (a : Word) (page : Vector Byte 64) : List Byte :=
  fw :: corr :: (bytesLe32 a ++ page.toList).map (· - corr)

section offsetPayload
variable (fw corr : Byte) (a : Word) (page : Vector Byte 64)

theorem offsetPayload_length : (offsetPayload fw corr a page).length = 70 := by
  simp [offsetPayload]

/-- Decoding undoes the correction (R253). -/
theorem writeDecoded_offsetPayload {i : Nat} (hi : i < 68) :
    writeDecoded (offsetPayload fw corr a page) i = (bytesLe32 a ++ page.toList).getD i 0 := by
  have hlen : i < (bytesLe32 a ++ page.toList).length := by simpa using hi
  have harg : arg (offsetPayload fw corr a page) (2 + i) = (bytesLe32 a ++ page.toList)[i] - corr := by
    rw [arg, offsetPayload, Nat.add_comm, List.getD_cons_succ, List.getD_cons_succ, List.getD_eq_getElem _ _ (by simpa using hi),
      List.getElem_map]
  rw [writeDecoded, harg, List.getD_eq_getElem _ _ hlen]
  exact BitVec.sub_add_cancel ..

theorem writeAddress_offsetPayload : writeAddress (offsetPayload fw corr a page) = a := by
  rw [writeAddress, writeDecoded_offsetPayload _ _ _ _ (by decide), writeDecoded_offsetPayload _ _ _ _ (by decide),
    writeDecoded_offsetPayload _ _ _ _ (by decide), writeDecoded_offsetPayload _ _ _ _ (by decide)]
  exact le32_byteOf a

theorem writePageBytes_offsetPayload : writePageBytes (offsetPayload fw corr a page) = page := by
  ext k hk
  rw [writePageBytes, Vector.getElem_ofFn, writeDecoded_offsetPayload _ _ _ _ (by omega), List.getD_append_right _ _ _ _ (by simp),
    bytesLe32_length, Nat.add_sub_cancel_left]
  simp [hk]

end offsetPayload

/-! ### The flash commands -/

/-- What ERASE does once its checks have passed (R250). -/
def eraseTasks (a : Word) (op : Byte) : List Task := erasePageTasks a ++ [.respond op []]

/-- What WRITE does once its checks have passed (R253). -/
def writeTasks (a : Word) (page : Vector Byte 64) (op : Byte) : List Task :=
  erasePageTasks a ++ (writePageTasks a page ++ [.respond op []])

section flashCommands
variable {s : State} {dst : Addr} (h : Ready s) (ha : addrAccept s dst = true)
include h ha

theorem exec_erase_accepted (lo hi : Byte) :
    exec (.erase dst [s.fwId, lo, hi]) s =
      run (eraseTasks (s.par.flashBase + BitVec.ofNat 32 ((lo.toNat + 256 * hi.toNat) * 64)) s.par.opErase) s := by
  have hplan : planErase [s.fwId, lo, hi] s =
      .ok (s, eraseTasks (eraseAddress s.par [s.fwId, lo, hi]) s.par.opErase) :=
    (if_neg (by simp)).trans (if_neg (by simp [arg]))
  rw [exec_accepted h ha rfl rfl, hplan, eraseAddress_eq]
  rfl

theorem exec_write_accepted (corr : Byte) (a : Word) (page : Vector Byte 64) :
    exec (.write dst (offsetPayload s.fwId corr a page)) s = run (writeTasks a page s.par.opWrite) s := by
  have hplan : planWrite (offsetPayload s.fwId corr a page) s =
      .ok (s, erasePageTasks a ++ writePageTasks a page ++ [.respond s.par.opWrite []]) := by
    rw [planWrite, offsetPayload_length, if_neg (by simp), if_neg (by simp [arg, offsetPayload]), writeAddress_offsetPayload,
      writePageBytes_offsetPayload]
  rw [exec_accepted h ha rfl rfl, hplan, List.append_assoc]
  rfl

/-- GET_CRC32 reads the span whose address and count its payload gives (R255). -/
theorem exec_getCrc32_ok {a n : Word} {bs : List Byte} (hbs : memRead s a n.toNat = .ok bs) :
    exec (.getCrc32 dst (bytesLe32 a ++ bytesLe32 n)) s =
      .next (respond s.par.opGetCrc32 (bytesLe32 (crcCalc bs)) { s with draws := s.draws + 1 }) := by
  obtain ⟨h0, h4⟩ := argWord_bytesLe32 a n
  refine exec_answer h ha rfl (congrArg (onRequest dst s) ?_) h.2
  rw [planGetCrc32, if_neg (by simp), h0, h4, hbs]

theorem exec_getCrc32_error {a n : Word} {f : Fault} (hf : memRead s a n.toNat = .error f) :
    exec (.getCrc32 dst (bytesLe32 a ++ bytesLe32 n)) s = .fault f := by
  obtain ⟨h0, h4⟩ := argWord_bytesLe32 a n
  have hplan : planGetCrc32 (bytesLe32 a ++ bytesLe32 n) s = .error f := by
    rw [planGetCrc32, if_neg (by simp), h0, h4, hf]
  rw [exec_accepted h ha rfl rfl, hplan, runPlan]

end flashCommands

/-- ERASE at an admitted page: the page erased, then the acknowledgement. -/
theorem run_eraseTasks {s : State} {a : Word} (h : Ready s) (hm : s.fc.mode = ModeSet.empty)
    (hp : pageOk s.par a = true) (hc : Clears 1 s) (op : Byte) :
    ∃ t, run (eraseTasks a op) s = .next t ∧
      UpToHost s
        { s.pageErased a with tx := s.tx ++ (if s.silent then [] else responseFrame s.nodeId op []) } t := by
  refine run_of_still_end (by simp [eraseTasks, erasePageTasks]) h.2 ?still
  case still =>
    rw [eraseTasks, runStill_pageErased hm hp hc, runStill_respond, respond_eq]
    rfl

/-- The state after the page has been erased and programmed: the body of WRITE (R253). -/
def State.pageWritten (s : State) (a : Word) (page : Vector Byte 64) : State := (s.pageErased a).pageProgrammed a page

/-- WRITE at an admitted page: erased, programmed, acknowledged. -/
theorem run_writeTasks {s : State} {a : Word} (h : Ready s) (hm : s.fc.mode = ModeSet.empty)
    (hp : pageOk s.par a = true) (hc : Clears 18 s) (page : Vector Byte 64) (op : Byte) :
    ∃ t, run (writeTasks a page op) s = .next t ∧
      UpToHost s
        { s.pageWritten a page with tx := s.tx ++ (if s.silent then [] else responseFrame s.nodeId op []) } t := by
  have hc' : Clears (1 + 17) s := hc
  have hclears : Clears 17 (s.pageErased a) := hc'.after.of_env rfl
  refine run_of_still_end (by simp [writeTasks, erasePageTasks, writePageTasks, loadWordTasks]) h.2 ?still
  case still =>
    rw [writeTasks, runStill_pageErased hm hp (hc.mono (by omega)),
      runStill_pageProgrammed (s := s.pageErased a) rfl hp hclears, runStill_respond, respond_eq]
    rfl

theorem pageWritten_read_inside (s : State) (a : Word) (page : Vector Byte 64) {k : Nat} (hk : k < 64) :
    (s.pageWritten a page).flash.read (a.toNat + k) = page[k] :=
  pageProgrammed_read_erased _ a page hk
    ((read_erasedPage s.flash a _).trans (if_pos ⟨by omega, by omega⟩))

theorem pageWritten_read_outside (s : State) (a : Word) (page : Vector Byte 64) {x : Nat}
    (hx : ¬(a.toNat ≤ x ∧ x < a.toNat + 64)) : (s.pageWritten a page).flash.read x = s.flash.read x :=
  (pageProgrammed_read_outside _ a page hx).trans ((read_erasedPage s.flash a x).trans (if_neg hx))

/-! ### Drops (R235, R236, R237) -/

/-- A command whose plan is the drop leaves the state, whoever it is addressed to. -/
theorem exec_dropped {i : Instr} {s : State} {dst : Addr} (h : Ready s) (hr : i.request?.isSome)
    (hp : requestPlan i s = onRequest dst s (dropped s)) : exec i s = .next s := by
  have hdrop : onRequest dst s (dropped s) = dropped s := ite_self _
  rw [exec_request hr, atRest_ready h, hp, hdrop, runPlan_dropped h]

/-- A check of the length and of the first byte that fails drops the request. -/
theorem checks_failed {d : List Byte} {n : Nat} {b : Byte} {s : State} {plan : Plan} (hn : 0 < n)
    (h : d.length ≠ n ∨ d[0]? ≠ some b) :
    (if d.length ≠ n then dropped s else if arg d 0 ≠ b then dropped s else plan) = dropped s := by
  by_cases hl : d.length = n
  · have hne : d ≠ [] := by rintro rfl; exact absurd hl (by simp; omega)
    rw [getElem?_zero_eq_arg hne] at h
    have hb : arg d 0 ≠ b := fun he => (h.resolve_left (fun h => h hl)) (congrArg some he)
    rw [if_neg (by simp [hl]), if_pos hb]
  · rw [if_pos hl]

theorem planSetNodeId_dropped {d : List Byte} (s : State) (h : d.length ≠ 2 ∨ (d[0]? ≠ some 0 ∧ d[0]? ≠ some 1)) :
    planSetNodeId d s = dropped s := by
  unfold planSetNodeId
  by_cases hl : d.length = 2
  · have hne : d ≠ [] := by rintro rfl; cases hl
    rw [getElem?_zero_eq_arg hne] at h
    obtain ⟨h0, h1⟩ := h.resolve_left fun h => h hl
    rw [if_neg (by simp [hl]), if_neg fun he => h0 (congrArg some he), if_neg fun he => h1 (congrArg some he)]
  · rw [if_pos hl]

/-! ### The statements -/

/-- Settles O30: the command is its answer alone. -/
theorem chipNameIsAnswered : Obligations.ChipNameIsAnswered := by
  intro s dst d h ha
  rw [exec_getChip_accepted h ha]
  exact ⟨fun hs => by rw [respond_of_not_silent hs]; rfl, fun hs => by rw [respond_of_silent hs]⟩

/-- Settles O31: the loop of R245 is the remainder, which is below the window. -/
theorem getIdAnswersAfterBackoff : Obligations.GetIdAnswersAfterBackoff := by
  intro s dst h ha
  refine ⟨fun d hd => ?plain, fun seed => ⟨Nat.mod_lt _ (by omega), ?backoff⟩⟩
  case plain =>
    rw [exec_getId_accepted h ha hd, respond_eq]
    rfl
  case backoff =>
    rw [exec_getId_backoff h ha, respond_eq, backoffValue_eq]
    rfl

/-- Settles O33: the flag is cleared before the answer, which is therefore sent. -/
theorem unsilentIsAnswered : Obligations.UnsilentIsAnswered := by
  intro s dst d h ha
  rw [exec_unsilent_accepted h ha, respond_of_not_silent rfl]
  rfl

/-- Settles O34: mode and countdown, then the answer. -/
theorem goArmsTheCountdown : Obligations.GoArmsTheCountdown := by
  intro s dst d h ha
  rw [exec_go_accepted h ha, respond_eq]
  rfl

/-- Settles O35: the command runs the erase of its block. -/
theorem eraseCommandErasesItsBlock : Obligations.EraseCommandErasesItsBlock := by
  intro s dst lo hi h ha hm hc a hp
  obtain ⟨t, hrun, ht⟩ := run_eraseTasks h hm hp hc s.par.opErase
  refine ⟨t, (exec_erase_accepted h ha lo hi).trans hrun, ?_, fun x => ?_⟩
  · rw [ht.flash_eq]; exact ht
  · rw [ht.flash_eq]; exact read_erasedPage s.flash a x

/-- Settles O36: the command runs the erase and the program of the page that its payload decodes to. -/
theorem writeCommandProgramsItsPage : Obligations.WriteCommandProgramsItsPage := by
  intro s dst corr a page h ha hm hc hp
  obtain ⟨t, hrun, ht⟩ := run_writeTasks h hm hp hc page s.par.opWrite
  have htrace : s.trace ++ (erasePageEvents a ++ writePageEvents a page) = (s.pageWritten a page).trace :=
    (List.append_assoc ..).symm
  have hpolls : (s.polled 18).env = (s.pageWritten a page).env := by
    have htwice : (s.polled 18).env = ((s.polled 1).polled 17).env :=
      congrArg State.env (State.polled_polled s 1 17).symm
    exact htwice
  refine ⟨t, (exec_write_accepted h ha corr a page).trans hrun, ?_, fun k hk => ?_, fun x hx => ?_⟩
  · rw [ht.flash_eq, ht.draws_eq, htrace, hpolls, ← pageWords_map_some]
    exact ht
  · rw [ht.flash_eq]; exact pageWritten_read_inside s a page hk
  · rw [ht.flash_eq]; exact pageWritten_read_outside s a page hx

/-- Settles O37: each failed check makes the plan the drop. -/
theorem invalidPayloadIsDropped : Obligations.InvalidPayloadIsDropped := by
  intro s dst d h
  refine ⟨fun hd => ?erase, fun hd => ?write, fun hd => ?getCrc32, fun hd => ?setNodeId⟩
  case erase => exact exec_dropped h rfl (congrArg (onRequest dst s) (checks_failed (by decide) hd))
  case write => exact exec_dropped h rfl (congrArg (onRequest dst s) (checks_failed (by decide) hd))
  case getCrc32 => exact exec_dropped h rfl (congrArg (onRequest dst s) (if_pos hd))
  case setNodeId => exact exec_dropped h rfl (congrArg (onRequest dst s) (planSetNodeId_dropped s hd))

/-- Settles O38: both commands begin with the erase, whose `Start` is the fault. -/
theorem flashCommandFaultsOnBadAddress : Obligations.FlashCommandFaultsOnBadAddress := by
  intro s dst h ha hm
  refine ⟨fun lo hi hp => ?erase, fun corr a page hp => ?write⟩
  case erase => exact (exec_erase_accepted h ha lo hi).trans (run_erasePage_fault hm hp (by simp))
  case write =>
    exact (exec_write_accepted h ha corr a page).trans
      (run_erasePage_fault hm hp (by simp [countdown_notMem_writePageTasks]))

/-- Settles O39: the span's bytes, or the fault of reading them. -/
theorem getCrc32AnswersWithSpanCrc : Obligations.GetCrc32AnswersWithSpanCrc := by
  intro s dst a n h ha
  refine ⟨fun bs hbs => ⟨s.draws + 1, ?answer⟩, fun f hf => exec_getCrc32_error h ha hf⟩
  case answer =>
    rw [exec_getCrc32_ok h ha hbs, respond_eq]
    rfl

end Sys2Proof.Machine
end

section
/-! The control loop (44_control_loop.md R290 to R294): an iteration as part (b) between part (a) and part (c), the steps
that receive a byte, the countdown to the handoff, and the states in which nothing starts. -/

namespace Sys2Proof.Machine

open Host (Outcome)

/-! ### Every instruction stands behind the guard -/

/-- No instruction runs after the handoff, or while a tick is held (R294, R51). -/
theorem exec_guarded (i : Instr) (s : State) : ∃ k, exec i s = atRest s k := by
  cases i <;> exact ⟨_, rfl⟩

/-! ### Part (c) behind the rest of an iteration -/

/-- The countdown after other tasks is what follows a dispatch. -/
theorem run_then_countdown (ts : List Task) (s : State) : run (ts ++ [.countdown]) s = afterDispatch (run ts s) := by
  rw [run_append]
  cases run ts s with
  | fault f => rfl
  | refused r => rfl
  | next t =>
    simp only [afterDispatch]
    split
    case isTrue hw =>
      have hkeep (u : State) (hu : u.work = []) : { u with work := [] } = u := by rw [← hu]
      rw [run_countdown, run_nil, ← countdownStep_work, ← hostTurn_work, hkeep t hw]
    case isFalse => rfl

/-- An iteration is its part (b), with part (a) before and part (c) after it. -/
theorem runPlan_iteration (s : State) : runPlan (iteration s) = afterDispatch (runPlan (byteStep (activityPoll s))) := by
  unfold iteration
  cases byteStep (activityPoll s) with
  | error f => rfl
  | ok r => exact run_then_countdown r.2 r.1

theorem exec_loopIteration_ready {s : State} (h : Ready s) :
    exec .loopIteration s = afterDispatch (runPlan (byteStep (activityPoll s))) :=
  (atRest_ready h).trans (runPlan_iteration s)

theorem step_ready_eq {s : State} (h : Ready s) :
    step s = afterDispatch (runPlan (byteStep (activityPoll (hostTurn s)))) :=
  (step_ready h).trans (runPlan_iteration _)

/-- An iteration that leaves no task goes on to part (c) at once. -/
theorem afterDispatch_done {s : State} (h : s.work = []) :
    afterDispatch (runPlan (.ok (s, []))) = .next (countdownStep (hostTurn s)) := by
  have hkeep : { s with work := [] } = s := by rw [← h]
  rw [runPlan, run_nil, hkeep, afterDispatch, if_pos h]

/-! ### Part (a) -/

/-- The mode part (a) leaves (R291). -/
def polledMode (s : State) : BootMode :=
  if s.dec.syncCount ≠ s.lastSync ∧ s.bootMode = .bootWait then .stay else s.bootMode

theorem activityPoll_eq (s : State) :
    activityPoll s = { s with lastSync := s.dec.syncCount, bootMode := polledMode s } := by
  unfold activityPoll polledMode
  by_cases hs : s.dec.syncCount = s.lastSync
  · simp [hs]
  · cases hm : s.bootMode <;> simp [hs]

/-! ### Part (b) -/

theorem rxPoll_some {s : State} {b : Byte} {rest : List (Option Byte)} (h : s.env.rxIn = some b :: rest) :
    rxPoll s = (some b, (rxPoll s).2) := by
  rw [rxPoll, h]

/-- RX offers no byte: the script is used up, or says so. -/
theorem rxPoll_none {s : State} (h : s.env.rxIn = [] ∨ s.env.rxIn.head? = some none) : (rxPoll s).1 = none := by
  unfold rxPoll
  cases hr : s.env.rxIn with
  | nil => rfl
  | cons o os => rw [hr] at h; simpa using h

/-- Reading RX uses up an entry of its script, and nothing else. -/
theorem rxPoll_state (s : State) : (rxPoll s).2 = { s with env := { s.env with rxIn := s.env.rxIn.tail } } := by
  have hkeep (rx : List (Option Byte)) (h : s.env.rxIn = rx) : s = { s with env := { s.env with rxIn := rx } } := by
    subst h; rfl
  unfold rxPoll
  cases h : s.env.rxIn with
  | nil => exact hkeep [] h
  | cons o os => rfl

theorem byteStep_none {s : State} (h : (rxPoll s).1 = none) : byteStep s = .ok ((rxPoll s).2, []) := by
  have hpair : rxPoll s = (none, (rxPoll s).2) := by rw [← h]
  rw [byteStep, hpair]

section byteStep
variable {s t : State} {b : Byte} (hrx : rxPoll s = (some b, t))
include hrx

/-- A byte that completes no valid frame, or one under an unknown opcode, is only received (R105, R234). -/
theorem byteStep_received
    (h : (decoderStep b t.dec).1 = false ∨ packetInstr t.par (decoderStep b t.dec).2.pkt = none) :
    byteStep s = .ok (receive b t, []) := by
  rw [byteStep, hrx]
  by_cases hv : (decoderStep b t.dec).1 = true
  · have hnone : packetInstr (receive b t).par (receive b t).dec.pkt = none := h.resolve_left (by simp [hv])
    simp only [hv, if_true, dispatch, hnone, dropped]
  · simp only [if_neg hv]

/-- A byte that completes a valid frame dispatches it (R230, R292). -/
theorem byteStep_dispatched {i : Instr} (hv : (decoderStep b t.dec).1 = true)
    (hi : packetInstr t.par (decoderStep b t.dec).2.pkt = some i) : byteStep s = requestPlan i (receive b t) := by
  have hsome : packetInstr (receive b t).par (receive b t).dec.pkt = some i := hi
  rw [byteStep, hrx]
  simp only [hv, if_true, dispatch, hsome]

end byteStep

/-! ### The state a byte is handed to -/

/-- What the host's turn, part (a) and the reading of RX leave alone. -/
theorem beforeByte_frame (s : State) :
    (beforeByte s).dec = s.dec ∧ (beforeByte s).par = s.par ∧ (beforeByte s).handedOff = s.handedOff ∧
      (beforeByte s).work = s.work := by
  obtain ⟨tx, es, ns, hh, -⟩ := hostTurn_frame s
  rw [beforeByte, rxPoll_state, activityPoll_eq, hh]
  exact ⟨rfl, rfl, rfl, rfl⟩

section offered
variable {s : State} {b : Byte} {rest : List (Option Byte)} (hrx : s.env.rxIn = some b :: rest)
include hrx

theorem rxPoll_beforeByte : rxPoll (activityPoll (hostTurn s)) = (some b, beforeByte s) := by
  obtain ⟨tx, es, ns, hh, -⟩ := hostTurn_frame s
  exact rxPoll_some (rest := rest) (by rw [activityPoll_eq, hh]; exact hrx)

theorem step_received (h : Ready s)
    (hb : (decoderStep b s.dec).1 = false ∨ packetInstr s.par (decoderStep b s.dec).2.pkt = none) :
    step s = .next (countdownStep (hostTurn (receive b (beforeByte s)))) := by
  obtain ⟨hdec, hpar, -, hwork⟩ := beforeByte_frame s
  rw [step_ready_eq h, byteStep_received (rxPoll_beforeByte hrx) (by rwa [hdec, hpar]),
    afterDispatch_done (s := receive b (beforeByte s)) (hwork.trans h.2)]

theorem step_dispatched (h : Ready s) {i : Instr} (hv : (decoderStep b s.dec).1 = true)
    (hi : packetInstr s.par (decoderStep b s.dec).2.pkt = some i) :
    step s = afterDispatch (exec i (receive b (beforeByte s))) := by
  obtain ⟨hdec, hpar, hoff, hwork⟩ := beforeByte_frame s
  have hready : Ready (receive b (beforeByte s)) := ⟨hoff.trans h.1, hwork.trans h.2⟩
  rw [step_ready_eq h, byteStep_dispatched (rxPoll_beforeByte hrx) (by rwa [hdec]) (by rwa [hdec, hpar]),
    exec_request (requestInstr_isSome hi), atRest_ready hready]

end offered

/-! ### An iteration without a dispatch -/

/-- What parts (a) and (b) leave when they dispatch nothing, with the decoder `d` after the byte, if any. -/
def State.iterated (s : State) (d : Decoder) : State :=
  { s with
    dec := d
    lastSync := s.dec.syncCount
    bootMode := polledMode s
    env := { s.env with rxIn := s.env.rxIn.tail } }

theorem byteStep_polled_none {s : State} (h : s.env.rxIn = [] ∨ s.env.rxIn.head? = some none) :
    byteStep (activityPoll s) = .ok (s.iterated s.dec, []) := by
  have hrx : (activityPoll s).env.rxIn = s.env.rxIn := by rw [activityPoll_eq]
  rw [byteStep_none (rxPoll_none (by rwa [hrx])), rxPoll_state, activityPoll_eq]
  rfl

theorem byteStep_polled_received {s : State} {b : Byte} (hrx : s.env.rxIn.head? = some (some b))
    (h : (decoderStep b s.dec).1 = false ∨ packetInstr s.par (decoderStep b s.dec).2.pkt = none) :
    byteStep (activityPoll s) = .ok (s.iterated (decoderStep b s.dec).2, []) := by
  obtain ⟨rest, hrest⟩ := List.head?_eq_some_iff.mp hrx
  have hpoll : rxPoll (activityPoll s) = (some b, s.iterated s.dec) := by
    rw [rxPoll_some (rest := rest) (by rw [activityPoll_eq]; exact hrest), rxPoll_state, activityPoll_eq]
    rfl
  rw [byteStep_received hpoll h]
  rfl

/-- A turn of the host does not look at what such an iteration changes before it. -/
theorem hostTurn_iterated (s : State) (d : Decoder) :
    hostTurn (s.iterated d) =
      { hostTurn s with
        dec := d, lastSync := s.dec.syncCount, bootMode := polledMode s
        env := { (hostTurn s).env with rxIn := s.env.rxIn.tail } } := by
  unfold hostTurn State.iterated
  cases s.env.txTake <;> simp only

/-- Part (c), its three outcomes in one (R293). -/
theorem countdownStep_eq {s : State} (h : s.handedOff = false) :
    countdownStep s =
      { s with
        countdown := if s.bootMode = .stay then s.countdown else s.countdown - 1
        handedOff := decide (s.bootMode ≠ .stay ∧ s.countdown - 1 = 0 ∧ s.tx = [])
        trace := s.trace ++ if s.bootMode ≠ .stay ∧ s.countdown - 1 = 0 ∧ s.tx = [] then [.handoff] else [] } := by
  rcases countdownStep_cases s with ⟨hm, hc⟩ | ⟨hm, hzero, hc⟩ | ⟨hm, hmore, hc⟩
  · have hno : ¬(s.bootMode ≠ .stay ∧ s.countdown - 1 = 0 ∧ s.tx = []) := fun hx => hx.1 hm
    rw [hc, if_pos hm, if_neg hno, decide_eq_false hno, List.append_nil, ← h]
  · rw [hc]; simp [hm, hzero, State.log]
  · rw [hc]; simp [hm, hmore, ← h]

/-! ### The countdown -/

/-- A turn of the host at an empty FIFO only uses up its script. -/
theorem hostTurn_empty {s : State} (h : s.tx = []) :
    hostTurn s = { s with env := { s.env with txTake := s.env.txTake.drop 1 } } := by
  have hkeep (ns : List Nat) (hn : s.env.txTake = ns) : s = { s with env := { s.env with txTake := ns } } := by
    subst hn; rfl
  unfold hostTurn
  cases hn : s.env.txTake with
  | nil => exact hkeep [] hn
  | cons n ns => simp [h]

/-- The state before part (c) of a step that only counts down: both turns of the host are behind it. -/
def State.quieted (s : State) : State :=
  { s with lastSync := s.dec.syncCount, env := { s.env with txTake := s.env.txTake.drop 2 } }

/-- A step with nothing to receive, nothing to send and no activity to be seen only counts down. -/
theorem step_quiet {s : State} (h : Ready s) (hsync : s.bootMode = .bootWait → s.dec.syncCount = s.lastSync)
    (htx : s.tx = []) (hrx : s.env.rxIn = []) :
    step s = .next (countdownStep s.quieted) := by
  have hmode : polledMode (hostTurn s) = s.bootMode := by
    rw [hostTurn_empty htx]
    exact if_neg fun hc => hc.1 (hsync hc.2)
  have hiterated : (hostTurn s).iterated (hostTurn s).dec =
      { s with lastSync := s.dec.syncCount, env := { s.env with txTake := s.env.txTake.drop 1 } } := by
    rw [State.iterated, hmode, hostTurn_empty htx, hrx, List.tail_nil, ← hrx]
  rw [step_ready_eq h, byteStep_polled_none (.inl (by rw [hostTurn_empty htx]; exact hrx)), hiterated,
    afterDispatch_done (by exact h.2), hostTurn_empty (by exact htx), List.drop_drop]
  rfl

/-- As many quiet steps as the countdown says end in the handoff (R293). -/
theorem run_quiet (n : Nat) : ∀ s : State, Ready s → s.bootMode ≠ .stay →
    (s.bootMode = .bootWait → s.dec.syncCount = s.lastSync) → s.tx = [] → s.env.rxIn = [] → s.countdown = n + 1 →
    (Sys2Proof.core.run (n + 1) s : Outcome State Fault Refusal) = .next
      { s with
        lastSync := s.dec.syncCount
        countdown := 0
        handedOff := true
        trace := s.trace ++ [.handoff]
        env := { s.env with txTake := s.env.txTake.drop (2 * (n + 1)) } } := by
  induction n with
  | zero =>
    intro s h hm hsync htx hrx hc
    rw [core_run_succ (step_quiet h hsync htx hrx)]
    rcases countdownStep_cases s.quieted with ⟨hstay, -⟩ | ⟨-, -, hoff⟩ | ⟨-, hmore, -⟩
    · exact absurd hstay hm
    · have hzero : s.quieted.countdown - 1 = 0 := by rw [State.quieted, hc]
      rw [hoff, hzero]
      rfl
    · exact absurd ⟨by rw [State.quieted, hc], htx⟩ hmore
  | succ n ih =>
    intro s h hm hsync htx hrx hc
    have hleft : s.quieted.countdown - 1 = n + 1 := by rw [State.quieted, hc]; rfl
    have hscript : (s.env.txTake.drop 2).drop (2 * (n + 1)) = s.env.txTake.drop (2 * (n + 1 + 1)) := by
      rw [List.drop_drop]; congr 1; omega
    rw [core_run_succ (step_quiet h hsync htx hrx)]
    rcases countdownStep_cases s.quieted with ⟨hstay, -⟩ | ⟨-, ⟨hzero, -⟩, -⟩ | ⟨-, -, hdown⟩
    · exact absurd hstay hm
    · omega
    · rw [hdown, hleft, ih { s.quieted with countdown := n + 1 } h hm (fun _ => rfl) htx hrx rfl, ← hscript]
      rfl

/-! ### The statements -/

/-- Settles O41: the step up to the byte, the dispatch, and part (c). -/
theorem stepRunsTheDecodedRequest : Obligations.StepRunsTheDecodedRequest := by
  intro s b rest i h hrx hv hi
  exact step_dispatched hrx h hv hi

/-- Settles O42: the frame's last byte completes it, from whatever decoder state it began (O16). -/
theorem stepRunsTheFrameItCompletes : Obligations.StepRunsTheFrameItCompletes := by
  intro s d frame last rest i h hdec hreq hd hrx
  obtain ⟨d', hfeed, -, -, hi⟩ := decodedFrameIsValidFromEveryDecoderState s.par _ i hdec hreq d false
  rw [feed_append, feed_cons, feed_nil, ← hd] at hfeed
  exact step_dispatched hrx h (by rw [hfeed]) (by rw [hfeed]; exact hi)

/-- Settles O43: a byte that dispatches nothing is received; a header byte after its run is one of these. -/
theorem stepReceivesTheOfferedByte : Obligations.StepReceivesTheOfferedByte := by
  intro s b rest h hrx
  refine ⟨fun hb => step_received hrx h hb, fun i hi hrun => ?header⟩
  case header =>
    obtain ⟨hdec, -, hoff, hwork⟩ := beforeByte_frame s
    obtain ⟨hm, -⟩ := headerByte_some hi
    have hready : Ready (beforeByte s) := ⟨hoff.trans h.1, hwork.trans h.2⟩
    have hverdict : (decoderStep b s.dec).1 = false := by rw [decoderStep_header hrun hm]
    rw [step_received hrx h (.inl hverdict), exec_headerByte hi, atRest_ready hready, afterDispatch, if_pos]
    exact hready.2

/-- Settles O44: parts (a) and (b) leave `State.iterated`; the host's turn and part (c) follow. -/
theorem loopIterationWithoutDispatch : Obligations.LoopIterationWithoutDispatch := by
  intro s h mode left host expires done
  have hdone (d : Decoder) : countdownStep (hostTurn (s.iterated d)) = done d := by
    obtain ⟨tx, es, ns, hh, -⟩ := hostTurn_frame s
    have hoff : (hostTurn s).handedOff = false := by rw [hh]; exact h.1
    have hcount : (hostTurn s).countdown = s.countdown := by rw [hh]
    have hmode : mode = polledMode s := rfl
    have hexpires : expires = decide (polledMode s ≠ .stay ∧ s.countdown - 1 = 0 ∧ (hostTurn s).tx = []) := by
      simp only [expires, left, hmode]
      by_cases hstay : polledMode s = .stay <;> simp [hstay, host]
    rw [hostTurn_iterated, countdownStep_eq (by exact hoff)]
    simp only [done, hexpires, hcount, decide_eq_true_eq]
    rfl
  rw [exec_loopIteration_ready h]
  refine ⟨fun hrx => ?quiet, fun b hrx hb => ?received⟩
  case quiet => rw [byteStep_polled_none hrx, afterDispatch_done (by exact h.2), hdone]
  case received => rw [byteStep_polled_received hrx hb, afterDispatch_done (by exact h.2), hdone]

/-- Settles O46: waiting, without activity, is quiet. -/
theorem bootTimeoutHandsOff : Obligations.BootTimeoutHandsOff := by
  intro n s h hm hsync htx hrx hc
  rw [run_quiet n s h (by rw [hm]; decide) (fun _ => hsync) htx hrx hc, hsync]

/-- Settles O47: in mode Go a step is quiet whatever activity it sees. -/
theorem goHandsOffWhenDrained : Obligations.GoHandsOffWhenDrained := by
  intro n s h hm htx hrx hc
  exact run_quiet n s h (by rw [hm]; decide) (fun hw => by rw [hm] at hw; cases hw) htx hrx hc

/-- Settles O48: the guard of the step and of every instruction. -/
theorem nothingRunsAfterHandoff : Obligations.NothingRunsAfterHandoff := by
  intro s h
  refine ⟨if_pos h, fun i => ?_⟩
  obtain ⟨k, hk⟩ := exec_guarded i s
  rw [hk, atRest, if_pos h]

/-- Settles O49: the guard of every instruction; a step goes on with what is held. -/
theorem nothingStartsMidSequence : Obligations.NothingStartsMidSequence := by
  intro s h hw
  refine ⟨fun i => ?refused, ?resumed⟩
  case refused =>
    obtain ⟨k, hk⟩ := exec_guarded i s
    rw [hk, atRest, if_neg (by simp [h]), if_pos hw]
  case resumed =>
    obtain ⟨tx, es, ns, hh, -⟩ := hostTurn_frame s
    have hwork : (hostTurn s).work = s.work := by rw [hh]
    unfold step stepWith
    simp only [h, hwork, if_neg hw]
    rw [if_neg (by simp)]

end Sys2Proof.Machine
end

section
/-! Every operation as a plan: the state it starts its tasks from and the tasks themselves, said once for all
instructions; and what running tasks can only add to (10_state.md R36, R37, R41, R42). -/

namespace Sys2Proof.Machine

open Host (Outcome)

/-! ### What only grows -/

/-- From `s` to `t` the parameters stayed, the trace and the bytes composed grew at their ends (R36, R37, R42), and the
boot mode did not go back (R291). -/
structure Grown (s t : State) : Prop where
  par : t.par = s.par
  grows : ∃ es bs, t.trace = s.trace ++ es ∧ es.filterMap Event.txByte ++ t.tx = s.tx ++ bs
  go : s.bootMode = .go → t.bootMode = .go
  waited : s.bootMode ≠ .bootWait → t.bootMode ≠ .bootWait

theorem Grown.trans {s t u : State} (h : Grown s t) (k : Grown t u) : Grown s u where
  par := k.par.trans h.par
  grows := by
    obtain ⟨es, bs, htr, htx⟩ := h.grows
    obtain ⟨fs, cs, ktr, ktx⟩ := k.grows
    refine ⟨es ++ fs, bs ++ cs, by rw [ktr, htr, List.append_assoc], ?_⟩
    rw [List.filterMap_append, List.append_assoc, ktx, ← List.append_assoc, htx, List.append_assoc]
  go := fun hm => k.go (h.go hm)
  waited := fun hm => k.waited (h.waited hm)

/-- A change that appends events of the core and answers, and leaves parameters and mode alone. -/
theorem Grown.of_append {s t : State} (es : List Event) (bs : List Byte) (hpar : t.par = s.par)
    (hmode : t.bootMode = s.bootMode) (htr : t.trace = s.trace ++ es)
    (htx : es.filterMap Event.txByte ++ t.tx = s.tx ++ bs) : Grown s t :=
  ⟨hpar, ⟨es, bs, htr, htx⟩, fun hm => hmode.trans hm, fun hm => by rwa [hmode]⟩

theorem Grown.refl (s : State) : Grown s s := .of_append [] [] rfl rfl (by simp) (by simp)

theorem Grown.trace_prefix {s t : State} (h : Grown s t) : s.trace <+: t.trace := by
  obtain ⟨es, bs, htr, -⟩ := h.grows
  exact ⟨es, htr.symm⟩

theorem Grown.wire_prefix {s t : State} (h : Grown s t) : s.wire <+: t.wire := by
  obtain ⟨es, bs, htr, htx⟩ := h.grows
  refine ⟨bs, ?_⟩
  rw [State.wire, State.wire, htr, List.filterMap_append, List.append_assoc, List.append_assoc, htx]

theorem hostTurn_grown (s : State) : Grown s (hostTurn s) := by
  obtain ⟨tx, es, ns, hh, htx⟩ := hostTurn_frame s
  rw [hh]
  exact .of_append es [] rfl rfl rfl (by rw [List.append_nil]; exact htx)

theorem respond_grown (c : Byte) (p : List Byte) (s : State) : Grown s (respond c p s) := by
  rw [respond_eq]
  exact .of_append [] _ rfl rfl (by simp) rfl

theorem countdownStep_grown (s : State) : Grown s (countdownStep s) := by
  rcases countdownStep_cases s with ⟨-, hc⟩ | ⟨-, -, hc⟩ | ⟨-, -, hc⟩ <;> rw [hc]
  · exact .refl s
  · exact .of_append [.handoff] [] rfl rfl rfl (by simp [Event.txByte])
  · exact .of_append [] [] rfl rfl (by simp) (by simp)

theorem portOp_grown {op : FlashOp} {s t : State} (h : portOp op s = .ok t) : Grown s t := by
  obtain ⟨fc, -, rfl⟩ := portOp_ok h
  exact .of_append [.flash op] [] rfl rfl rfl (by simp [Event.txByte])

theorem pollBusy_grown (s : State) : Grown s (pollBusy s).2 := by
  obtain ⟨fl, ob, k, fc, es, ps, hf, hes⟩ := pollBusy_frame s
  rw [hf]
  refine .of_append es [] rfl rfl rfl ?_
  rcases hes with rfl | rfl <;> simp [Event.txByte]

/-- Running tasks only adds. -/
theorem run_grown {ts : List Task} {s t : State} (h : run ts s = .next t) : Grown s t :=
  run_keeps (P := Grown s) (fun u hu => hu.trans (hostTurn_grown u)) (fun _ _ _ hp hu => hu.trans (portOp_grown hp))
    (fun u hu => hu.trans (pollBusy_grown u)) (fun c p u hu => hu.trans (respond_grown c p u))
    (fun u hu => hu.trans (countdownStep_grown u)) (fun _ _ hu => hu.trans (.of_append [] [] rfl rfl (by simp) (by simp)))
    ts s t h (.refl s)

/-! ### What an operation does before its tasks -/

/-- From `s` to `t` nothing but the decoder, the modes and counters, and what grows has changed; the decoder kept its
ranges. -/
structure Started (s t : State) : Prop extends Grown s t where
  flash : t.flash = s.flash
  ob : t.ob = s.ob
  fc : t.fc = s.fc
  handedOff : t.handedOff = s.handedOff
  work : t.work = s.work
  decoder : decoderOk s.dec = true → decoderOk t.dec = true

theorem Started.trans {s t u : State} (h : Started s t) (k : Started t u) : Started s u where
  toGrown := h.toGrown.trans k.toGrown
  flash := k.flash.trans h.flash
  ob := k.ob.trans h.ob
  fc := k.fc.trans h.fc
  handedOff := k.handedOff.trans h.handedOff
  work := k.work.trans h.work
  decoder := fun hd => k.decoder (h.decoder hd)

theorem Started.refl (s : State) : Started s s := ⟨.refl s, rfl, rfl, rfl, rfl, rfl, id⟩

theorem Started.ready {s t : State} (h : Started s t) (hs : Ready s) : Ready t :=
  ⟨h.handedOff.trans hs.1, h.work.trans hs.2⟩

theorem hostTurn_started (s : State) : Started s (hostTurn s) := by
  have hg := hostTurn_grown s
  obtain ⟨tx, es, ns, hh, -⟩ := hostTurn_frame s
  rw [hh] at hg ⊢
  exact ⟨hg, rfl, rfl, rfl, rfl, rfl, id⟩

theorem receive_started (b : Byte) (s : State) : Started s (receive b s) :=
  ⟨.of_append [] [] rfl rfl (by simp) (by simp), rfl, rfl, rfl, rfl, rfl, decoderOk_step b s.dec⟩

theorem rxPoll_started (s : State) : Started s (rxPoll s).2 := by
  rw [rxPoll_state]
  exact ⟨.of_append [] [] rfl rfl (by simp) (by simp), rfl, rfl, rfl, rfl, rfl, id⟩

/-- Part (a) leaves BootWait for Stay, and no other mode (R291). -/
theorem activityPoll_started (s : State) : Started s (activityPoll s) := by
  rw [activityPoll_eq]
  refine ⟨⟨rfl, ⟨[], [], by simp, by simp⟩, fun hm => ?go, fun hm => ?waited⟩, rfl, rfl, rfl, rfl, rfl, id⟩
  case go => exact (if_neg fun hc => by rw [hm] at hc; cases hc.2).trans hm
  case waited =>
    have hkeep : polledMode s = s.bootMode := if_neg fun hc => hm hc.2
    rwa [hkeep]

/-! ### The tasks an operation leaves -/

/-- The task lists of each instruction (42_flash.md R215 to R217, 43_dispatcher.md §2). Part (c) of an iteration is not
among them. -/
inductive Sequence : Instr → List Task → Prop where
  | none (i : Instr) : Sequence i []
  | answer (i : Instr) (c : Byte) (p : List Byte) : Sequence i [.respond c p]
  | erasePage (a : Word) : Sequence (.erasePage a) (erasePageTasks a)
  | writePage (a : Word) (d : Vector Byte 64) : Sequence (.writePage a d) (writePageTasks a d)
  | option (k : Fin 24) (v : Byte) (st : Vector Byte 24) : Sequence (.writeOptionByte k v) (optionTasks st)
  | erase (dst : Addr) (d : List Byte) (a : Word) (op : Byte) : Sequence (.erase dst d) (eraseTasks a op)
  | write (dst : Addr) (d : List Byte) (a : Word) (page : Vector Byte 64) (op : Byte) :
      Sequence (.write dst d) (writeTasks a page op)
  | setNodeId (dst : Addr) (d : List Byte) (st : Vector Byte 24) (op : Byte) :
      Sequence (.setNodeId dst d) (optionTasks st ++ [.respond op []])

theorem Sequence.countdown_notMem {i : Instr} {ts : List Task} (h : Sequence i ts) : Task.countdown ∉ ts := by
  cases h <;>
    simp [erasePageTasks, writePageTasks, loadWordTasks, optionTasks, optionWordTasks, eraseTasks, writeTasks]

/-- The silence flag is the one before, or what SILENT and UNSILENT set (R35). -/
def SilenceOf (i : Instr) (s t : State) : Prop :=
  t.silent = s.silent ∨ (∃ dst d, i = .silent dst d ∧ t.silent = true) ∨ ∃ dst d, i = .unsilent dst d ∧ t.silent = false

/-- What is known of an instruction's plan: where it starts and what it leaves to do. -/
structure Planned (i : Instr) (s t : State) (ts : List Task) : Prop where
  started : Started s t
  tasks : Sequence i ts
  silence : SilenceOf i s t
  events : ∃ es, t.trace = s.trace ++ es ∧ coreEvents es = es

/-- Every plan but GET_ID's with a delay leaves the trace to its tasks. -/
theorem Planned.quiet {i : Instr} {s t : State} {ts : List Task} (ht : Started s t) (hts : Sequence i ts)
    (hs : SilenceOf i s t) (htr : t.trace = s.trace) : Planned i s t ts :=
  ⟨ht, hts, hs, [], by rw [htr, List.append_nil], rfl⟩

theorem Planned.dropped (i : Instr) (s : State) : Planned i s s [] := .quiet (.refl s) (.none i) (.inl rfl) rfl

theorem Planned.answered {i : Instr} {s t : State} (c : Byte) (p : List Byte) (ht : Started s t) (hs : SilenceOf i s t)
    (htr : t.trace = s.trace) : Planned i s t [.respond c p] := .quiet ht (.answer i c p) hs htr

/-! ### The commands' plans -/

theorem delay_started (n : Nat) (s : State) : Started s (delay n s) :=
  ⟨.of_append [.delay n] [] rfl rfl rfl (by simp [Event.txByte]), rfl, rfl, rfl, rfl, rfl, id⟩

theorem planGetId_planned {dst : Addr} {d : List Byte} {s t : State} {ts : List Task} (h : planGetId d s = .ok (t, ts)) :
    Planned (.getId dst d) s t ts := by
  by_cases hd : d.length = 1
  · obtain ⟨seed, rfl⟩ := List.length_eq_one_iff.mp hd
    cases h
    exact ⟨delay_started _ s, .answer _ _ _, .inl rfl, [.delay _], rfl, rfl⟩
  · rw [planGetId_of_length s hd] at h
    cases h
    exact .answered _ _ (.refl s) (.inl rfl) rfl

theorem planErase_planned {dst : Addr} {d : List Byte} {s t : State} {ts : List Task} (h : planErase d s = .ok (t, ts)) :
    Planned (.erase dst d) s t ts := by
  unfold planErase at h
  split at h
  · cases h; exact .dropped _ s
  split at h
  · cases h; exact .dropped _ s
  cases h
  exact .quiet (.refl s) (.erase dst d _ _) (.inl rfl) rfl

theorem planWrite_planned {dst : Addr} {d : List Byte} {s t : State} {ts : List Task} (h : planWrite d s = .ok (t, ts)) :
    Planned (.write dst d) s t ts := by
  unfold planWrite at h
  split at h
  · cases h; exact .dropped _ s
  split at h
  · cases h; exact .dropped _ s
  cases h
  refine .quiet (.refl s) ?_ (.inl rfl) rfl
  rw [List.append_assoc]
  exact .write dst d _ _ _

theorem planGetCrc32_planned {dst : Addr} {d : List Byte} {s t : State} {ts : List Task}
    (h : planGetCrc32 d s = .ok (t, ts)) : Planned (.getCrc32 dst d) s t ts := by
  unfold planGetCrc32 at h
  split at h
  · cases h; exact .dropped _ s
  split at h
  · cases h
  cases h
  exact .answered _ _ ⟨.of_append [] [] rfl rfl (by simp) (by simp), rfl, rfl, rfl, rfl, rfl, id⟩ (.inl rfl)
    rfl

theorem planSetNodeId_planned {dst : Addr} {d : List Byte} {s t : State} {ts : List Task}
    (h : planSetNodeId d s = .ok (t, ts)) : Planned (.setNodeId dst d) s t ts := by
  unfold planSetNodeId at h
  split at h
  · cases h; exact .dropped _ s
  split at h
  · cases h; exact .quiet (.refl s) (.setNodeId dst d _ _) (.inl rfl) rfl
  split at h
  · cases h; exact .quiet (.refl s) (.setNodeId dst d _ _) (.inl rfl) rfl
  · cases h; exact .dropped _ s

/-- Behind the address filter a request has its command's plan, or is dropped. -/
theorem onRequest_planned {i : Instr} {dst : Addr} {s t : State} {plan : Plan} {ts : List Task}
    (h : onRequest dst s plan = .ok (t, ts)) (hplan : plan = .ok (t, ts) → Planned i s t ts) : Planned i s t ts := by
  unfold onRequest at h
  split at h
  · exact hplan h
  · cases h; exact .dropped i s

theorem requestPlan_planned {i : Instr} {s t : State} {ts : List Task} (h : requestPlan i s = .ok (t, ts)) :
    Planned i s t ts := by
  cases i with
  | info dst d => exact onRequest_planned h fun h => by cases h; exact .answered _ _ (.refl s) (.inl rfl) rfl
  | getChip dst d => exact onRequest_planned h fun h => by cases h; exact .answered _ _ (.refl s) (.inl rfl) rfl
  | getId dst d => exact onRequest_planned h planGetId_planned
  | silent dst d =>
    refine onRequest_planned h fun h => ?_
    cases h
    exact .answered _ _ ⟨.of_append [] [] rfl rfl (by simp) (by simp), rfl, rfl, rfl, rfl, rfl, id⟩
      (.inr (.inl ⟨dst, d, rfl, rfl⟩)) rfl
  | unsilent dst d =>
    refine onRequest_planned h fun h => ?_
    cases h
    exact .answered _ _ ⟨.of_append [] [] rfl rfl (by simp) (by simp), rfl, rfl, rfl, rfl, rfl, id⟩
      (.inr (.inr ⟨dst, d, rfl, rfl⟩)) rfl
  | go dst d =>
    refine onRequest_planned h fun h => ?_
    cases h
    exact .answered _ _ ⟨⟨rfl, ⟨[], [], by simp, by simp⟩, fun _ => rfl, fun _ => by simp⟩, rfl, rfl, rfl, rfl, rfl, id⟩
      (.inl rfl) rfl
  | erase dst d => exact onRequest_planned h planErase_planned
  | write dst d => exact onRequest_planned h planWrite_planned
  | getCrc32 dst d => exact onRequest_planned h planGetCrc32_planned
  | getNodeId dst d => exact onRequest_planned h fun h => by cases h; exact .answered _ _ (.refl s) (.inl rfl) rfl
  | setNodeId dst d => exact onRequest_planned h planSetNodeId_planned
  | _ => cases h; exact .dropped _ s

/-! ### The plan of every instruction -/

/-- An instruction as a plan (`exec_plan`): a wire command's own, an operation without tasks at its new state, a sequence
of the flash sequencer, a loop iteration. -/
def opPlan (i : Instr) (s : State) : Plan :=
  match i with
  | .hdrReq => .ok (receive 0x80 s, [])
  | .hdrResp => .ok (receive 0x81 s, [])
  | .hdrReql => .ok (receive 0x82 s, [])
  | .hdrRespl => .ok (receive 0x83 s, [])
  | .crcInit acc => .ok (putAcc acc Config.crcInit s, [])
  | .crcUpdate acc bytes => .ok (putAcc acc (crcUpdate (accValue acc s) bytes) s, [])
  | .crcFinalize acc => .ok ({ s with ret := .word (crcFinalize (accValue acc s)) }, [])
  | .crcCalc bytes => .ok ({ s with ret := .word (crcCalc bytes) }, [])
  | .decoderStep b => .ok ({ receive b s with ret := .valid (decoderStep b s.dec).1 }, [])
  | .serialize node cmd data len =>
    .ok ({ s.emit (responseFrame node cmd (data.take len.toNat)) with
      ret := .count (responseFrame node cmd (data.take len.toNat)).length }, [])
  | .erasePage a => .ok (s, erasePageTasks a)
  | .writePage a d => .ok (s, writePageTasks a d)
  | .writeOptionByte k v => .ok (s, writeOptionTasks k v s)
  | .loopIteration => iteration s
  | _ => requestPlan i s

theorem opPlan_request {i : Instr} (h : i.request?.isSome) (s : State) : opPlan i s = requestPlan i s := by
  cases i <;> first
    | rfl
    | cases h

theorem runPlan_done {s : State} (h : s.work = []) : runPlan (.ok (s, [])) = .next s := by
  have hkeep : { s with work := [] } = s := by rw [← h]
  rw [runPlan, run_nil, hkeep]

theorem putAcc_started (acc : Acc) (w : Word) (s : State) : Started s (putAcc acc w s) := by
  cases acc <;> exact ⟨.of_append [] [] rfl rfl (by simp) (by simp), rfl, rfl, rfl, rfl, rfl, id⟩

theorem putAcc_silent (acc : Acc) (w : Word) (s : State) : (putAcc acc w s).silent = s.silent := by
  cases acc <;> rfl

theorem putAcc_trace (acc : Acc) (w : Word) (s : State) : (putAcc acc w s).trace = s.trace := by
  cases acc <;> rfl

/-- Only SERIALIZE of more than its data is refused where an operation may start (log 14). -/
def shortOfData : Instr → Bool
  | .serialize _ _ data len => decide (data.length < len.toNat)
  | _ => false

theorem exec_short {i : Instr} {s : State} (h : Ready s) (hi : shortOfData i = true) : exec i s = .refused .illFormed := by
  cases i with
  | serialize node cmd data len => exact serializeRefusesShortData s node cmd data len h (by simpa [shortOfData] using hi)
  | _ => cases hi

/-- Where an operation may start, an instruction is its plan, carried out. -/
theorem exec_plan {i : Instr} {s : State} (h : Ready s) (hi : shortOfData i = false) : exec i s = runPlan (opPlan i s) := by
  have hdone {t : State} (he : exec i s = .next t) (hp : opPlan i s = .ok (t, [])) (ht : t.work = s.work) :
      exec i s = runPlan (opPlan i s) := by
    rw [he, hp, runPlan_done (ht.trans h.2)]
  cases i with
  | hdrReq => exact hdone ((exec_headerByte rfl s).trans (atRest_ready h)) rfl rfl
  | hdrResp => exact hdone ((exec_headerByte rfl s).trans (atRest_ready h)) rfl rfl
  | hdrReql => exact hdone ((exec_headerByte rfl s).trans (atRest_ready h)) rfl rfl
  | hdrRespl => exact hdone ((exec_headerByte rfl s).trans (atRest_ready h)) rfl rfl
  | crcInit acc => exact hdone (exec_crcInit_ready h acc) rfl (putAcc_started ..).work
  | crcUpdate acc bytes => exact hdone (exec_crcUpdate_ready h acc bytes) rfl (putAcc_started ..).work
  | crcFinalize acc => exact hdone (exec_crcFinalize_ready h acc) rfl rfl
  | crcCalc bytes => exact hdone (exec_crcCalc_ready h bytes) rfl rfl
  | decoderStep b => exact hdone (exec_decoderStep_ready h b) rfl rfl
  | serialize node cmd data len =>
    have hlen : len.toNat ≤ data.length := by simpa [shortOfData] using hi
    exact hdone (exec_serialize_ready h hlen) rfl rfl
  | erasePage a => exact atRest_ready h
  | writePage a d => exact atRest_ready h
  | writeOptionByte k v => exact atRest_ready h
  | loopIteration => exact atRest_ready h
  | _ => rw [exec_request rfl, atRest_ready h, opPlan_request rfl]

/-- What every plan but that of a loop iteration is. -/
theorem opPlan_planned {i : Instr} {s t : State} {ts : List Task} (hi : i ≠ .loopIteration)
    (h : opPlan i s = .ok (t, ts)) : Planned i s t ts := by
  cases i with
  | hdrReq => cases h; exact .quiet (receive_started _ s) (.none _) (.inl rfl) rfl
  | hdrResp => cases h; exact .quiet (receive_started _ s) (.none _) (.inl rfl) rfl
  | hdrReql => cases h; exact .quiet (receive_started _ s) (.none _) (.inl rfl) rfl
  | hdrRespl => cases h; exact .quiet (receive_started _ s) (.none _) (.inl rfl) rfl
  | crcInit acc => cases h; exact .quiet (putAcc_started ..) (.none _) (.inl (putAcc_silent ..)) (putAcc_trace ..)
  | crcUpdate acc bytes => cases h; exact .quiet (putAcc_started ..) (.none _) (.inl (putAcc_silent ..)) (putAcc_trace ..)
  | crcFinalize acc => cases h; exact .quiet (putAcc_started (.temp 0) _ s) (.none _) (.inl rfl) rfl
  | crcCalc bytes => cases h; exact .quiet (putAcc_started (.temp 0) _ s) (.none _) (.inl rfl) rfl
  | decoderStep b =>
    cases h
    have hret (r : Ret) : Started (receive b s) { receive b s with ret := r } :=
      ⟨.of_append [] [] rfl rfl (by simp) (by simp), rfl, rfl, rfl, rfl, rfl, id⟩
    exact .quiet ((receive_started b s).trans (hret _)) (.none _) (.inl rfl) rfl
  | serialize node cmd data len =>
    cases h
    exact .quiet ⟨.of_append [] _ rfl rfl (by simp) rfl, rfl, rfl, rfl, rfl, rfl, id⟩ (.none _) (.inl rfl) rfl
  | erasePage a => cases h; exact .quiet (.refl s) (.erasePage a) (.inl rfl) rfl
  | writePage a d => cases h; exact .quiet (.refl s) (.writePage a d) (.inl rfl) rfl
  | writeOptionByte k v => cases h; exact .quiet (.refl s) (.option k v _) (.inl rfl) rfl
  | loopIteration => exact absurd rfl hi
  | _ => rw [opPlan_request rfl] at h; exact requestPlan_planned h

/-! ### The plan of a loop iteration -/

theorem byteStep_planned {s t : State} {ts : List Task} (h : byteStep s = .ok (t, ts)) :
    Started s t ∧ ∃ i, Sequence i ts := by
  have hrx := rxPoll_started s
  unfold byteStep at h
  rcases hpoll : rxPoll s with ⟨o, u⟩
  rw [hpoll] at h hrx
  cases o with
  | none => cases h; exact ⟨hrx, .hdrReq, .none _⟩
  | some b =>
    simp only at h hrx
    have hu := hrx.trans (receive_started b u)
    split at h
    case isFalse => cases h; exact ⟨hu, .hdrReq, .none _⟩
    unfold dispatch at h
    split at h
    · have hp := requestPlan_planned h
      exact ⟨hu.trans hp.started, _, hp.tasks⟩
    · cases h; exact ⟨hu, .hdrReq, .none _⟩

theorem iteration_planned {s t : State} {ts : List Task} (h : iteration s = .ok (t, ts)) :
    Started s t ∧ ∃ i us, Sequence i us ∧ ts = us ++ [.countdown] := by
  unfold iteration at h
  split at h
  · cases h
  rename_i u us hb
  cases h
  obtain ⟨hs, i, hi⟩ := byteStep_planned hb
  exact ⟨(activityPoll_started s).trans hs, i, us, hi, rfl⟩

/-! ### The only fault of a plan -/

theorem memRead_error {s : State} {a : Word} {n : Nat} {f : Fault} (h : memRead s a n = .error f) :
    f = .unmodelledRead := by
  have hbytes (n : Nat) : ∀ a, memBytes s a n = .error f → f = .unmodelledRead := by
    induction n with
    | zero => intro a h; cases h
    | succ n ih =>
      intro a h
      rw [memBytes] at h
      split at h
      · rename_i hb; cases h; exact memByte_error hb
      · split at h
        · rename_i hb; cases h; exact ih _ hb
        · cases h
  unfold memRead at h
  split at h
  · cases h; rfl
  · exact hbytes n _ h

theorem requestPlan_error {i : Instr} {s : State} {f : Fault} (h : requestPlan i s = .error f) : f = .unmodelledRead := by
  have hfilter {dst : Addr} {plan : Plan} (h : onRequest dst s plan = .error f) : plan = .error f := by
    unfold onRequest at h
    split at h
    · exact h
    · cases h
  cases i with
  | getCrc32 dst d =>
    have hp := hfilter h
    unfold planGetCrc32 at hp
    split at hp
    · cases hp
    split at hp
    · rename_i hm; cases hp; exact memRead_error hm
    · cases hp
  | erase dst d =>
    have hp := hfilter h
    unfold planErase at hp
    split at hp
    · cases hp
    split at hp <;> cases hp
  | write dst d =>
    have hp := hfilter h
    unfold planWrite at hp
    split at hp
    · cases hp
    split at hp <;> cases hp
  | setNodeId dst d =>
    have hp := hfilter h
    unfold planSetNodeId at hp
    split at hp
    · cases hp
    split at hp
    · cases hp
    split at hp <;> cases hp
  | info dst d => cases hfilter h
  | getChip dst d => cases hfilter h
  | getId dst d => cases hfilter h
  | silent dst d => cases hfilter h
  | unsilent dst d => cases hfilter h
  | go dst d => cases hfilter h
  | getNodeId dst d => cases hfilter h
  | _ => cases h

theorem iteration_error {s : State} {f : Fault} (h : iteration s = .error f) : f = .unmodelledRead := by
  unfold iteration at h
  split at h
  case h_2 => cases h
  rename_i hb
  cases h
  unfold byteStep at hb
  split at hb
  · cases hb
  split at hb
  case isFalse => cases hb
  unfold dispatch at hb
  split at hb
  · exact requestPlan_error hb
  · cases hb

theorem opPlan_error {i : Instr} {s : State} {f : Fault} (h : opPlan i s = .error f) : f = .unmodelledRead := by
  cases i with
  | loopIteration => exact iteration_error h
  | hdrReq => cases h
  | hdrResp => cases h
  | hdrReql => cases h
  | hdrRespl => cases h
  | crcInit acc => cases h
  | crcUpdate acc bytes => cases h
  | crcFinalize acc => cases h
  | crcCalc bytes => cases h
  | decoderStep b => cases h
  | serialize node cmd data len => cases h
  | erasePage a => cases h
  | writePage a d => cases h
  | writeOptionByte k v => cases h
  | _ => rw [opPlan_request rfl] at h; exact requestPlan_error h

/-! ### What a step is -/

/-- A step is the running of tasks: those a tick was held with, or those of a loop iteration. -/
theorem step_cases {s : State} (h : s.handedOff = false) :
    (s.work ≠ [] ∧ step s = run s.work (hostTurn s)) ∨ (Ready s ∧ step s = runPlan (iteration (hostTurn s))) := by
  by_cases hw : s.work = []
  · exact .inr ⟨⟨h, hw⟩, step_ready ⟨h, hw⟩⟩
  · exact .inl ⟨hw, (nothingStartsMidSequence s h hw).2⟩

theorem run_silent {ts : List Task} {s t : State} (h : run ts s = .next t) : t.silent = s.silent := by
  refine run_keeps (P := fun u => u.silent = s.silent) (fun u hu => ?host) (fun _ u _ hp hu => ?port) (fun u hu => ?poll)
    (fun c p u hu => ?respond) (fun u hu => ?count) (fun _ _ hu => hu) ts s t h rfl
  case host => obtain ⟨tx, es, ns, hh, -⟩ := hostTurn_frame u; rwa [hh]
  case port => obtain ⟨fc, -, rfl⟩ := portOp_ok hp; exact hu
  case poll => obtain ⟨fl, ob, k, fc, es, ps, hf, -⟩ := pollBusy_frame u; rwa [hf]
  case respond => rwa [respond_eq]
  case count => rcases countdownStep_cases u with ⟨-, hc⟩ | ⟨-, -, hc⟩ | ⟨-, -, hc⟩ <;> rwa [hc]

theorem step_next_running {s t : State} (h : step s = .next t) : s.handedOff = false := by
  cases hh : s.handedOff with
  | false => rfl
  | true => rw [(nothingRunsAfterHandoff s hh).1] at h; cases h

/-- A plan that is carried out to a next state. -/
theorem runPlan_next {plan : Plan} {t : State} (h : runPlan plan = .next t) :
    ∃ u ts, plan = .ok (u, ts) ∧ run ts u = .next t := by
  cases plan with
  | error f => cases h
  | ok r => exact ⟨r.1, r.2, rfl, h⟩

/-- A step only adds. -/
theorem step_grown {s t : State} (h : step s = .next t) : Grown s t := by
  rcases step_cases (step_next_running h) with ⟨-, hrun⟩ | ⟨-, hrun⟩
  · exact (hostTurn_grown s).trans (run_grown (hrun.symm.trans h))
  · obtain ⟨u, ts, hplan, hts⟩ := runPlan_next (hrun.symm.trans h)
    exact (hostTurn_grown s).trans ((iteration_planned hplan).1.toGrown.trans (run_grown hts))

/-! ### The statements -/

/-- Settles O45: the clause of `Grown` on the boot mode. -/
theorem bootModeNeverGoesBack : Obligations.BootModeNeverGoesBack := by
  intro s t h
  have hg := step_grown h
  exact ⟨hg.go, fun hm => hg.waited (by rw [hm]; decide)⟩

/-- Settles O54: the clauses of `Grown` on parameters and trace. -/
theorem parametersStayAndTraceGrows : Obligations.ParametersStayAndTraceGrows := by
  intro s t h
  have hg := step_grown h
  exact ⟨hg.par, hg.trace_prefix⟩

/-- Settles O55: `Grown`'s bytes; and a step begins with the host's turn, which a turn that takes nothing then repeats. -/
theorem composedBytesKeepTheirOrder : Obligations.ComposedBytesKeepTheirOrder := by
  refine ⟨fun s t h => (step_grown h).wire_prefix, fun s n ns hh hn => ?turn, fun s => hostTurn_still⟩
  case turn =>
    intro taken
    have hturn : hostTurn s = taken := by rw [hostTurn, hn]
    have hagain : hostTurn { taken with env := { s.env with txTake := 0 :: ns } } = taken := by
      simp only [hostTurn, List.drop_zero, List.take_zero, List.map_nil, List.append_nil]
      rfl
    refine ⟨hturn, ?_⟩
    unfold step stepWith
    rw [hturn, hagain]

/-- Settles O56: before the tasks the flag is what `SilenceOf` says, and no task changes it. -/
theorem onlySilenceCommandsChangeSilence : Obligations.OnlySilenceCommandsChangeSilence := by
  intro i s t h hne
  by_cases hloop : i = .loopIteration
  · exact .inl hloop
  obtain ⟨k, hk⟩ := exec_guarded i s
  obtain ⟨hready, -⟩ := atRest_next (hk.symm.trans h)
  cases hshort : shortOfData i with
  | true => rw [exec_short hready hshort] at h; cases h
  | false =>
    rw [exec_plan hready hshort] at h
    obtain ⟨u, ts, hplan, hrun⟩ := runPlan_next h
    have htasks : t.silent = u.silent := run_silent hrun
    have hs := (opPlan_planned hloop hplan).silence
    rw [SilenceOf, ← htasks] at hs
    exact .inr (hs.resolve_left hne)

end Sys2Proof.Machine
end

section
/-! The machine's invariant (10_state.md §3, §8, §11; 42_flash.md R218): kept by every task, so by every run of tasks, so
by every step and every instruction; and what it keeps out. -/

namespace Sys2Proof.Machine

open Host (Outcome)

/-! ### The invariant while tasks run -/

/-- `MachineInv` with the tasks still to do in the place of those a held tick was left with: what holds between two
tasks. -/
structure RunInv (ts : List Task) (s : State) : Prop where
  decoder : decoderOk s.dec = true
  flash : flashOk s.par s.flash = true
  busy : s.fc.busy = s.fc.pending.isSome
  pending : pendingOk s.par s.fc.pending = true
  controller : controllerOk s.par s.fc ts = true
  last : countdownLast ts = true
  handoff : s.handedOff = true → s.countdown = 0 ∧ s.tx = [] ∧ ts = []

theorem MachineInv.runInv {s : State} (h : MachineInv s) : RunInv s.work s :=
  ⟨h.decoder, h.flash, h.busy, h.pending, h.controller, h.last, h.handoff⟩

theorem RunInv.machineInv {ts : List Task} {s : State} (h : RunInv ts s) (hheld : heldOk { s with work := ts } = true) :
    MachineInv { s with work := ts } :=
  ⟨h.decoder, h.flash, h.busy, h.pending, h.controller, hheld, h.last, h.handoff⟩

theorem countdownLast_tail {k : Task} {ts : List Task} (h : countdownLast (k :: ts) = true) : countdownLast ts = true := by
  cases ts with
  | nil => rfl
  | cons l ts =>
    rw [countdownLast, List.dropLast_cons_cons, List.all_cons, Bool.and_eq_true] at h
    exact h.2

theorem countdownLast_countdown {ts : List Task} (h : countdownLast (.countdown :: ts) = true) : ts = [] := by
  cases ts with
  | nil => rfl
  | cons l ts =>
    rw [countdownLast, List.dropLast_cons_cons, List.all_cons, Bool.and_eq_true] at h
    exact absurd h.1 (by decide)

/-- Tasks without part (c), alone or with part (c) behind them. -/
theorem countdownLast_of_notMem {ts : List Task} (h : Task.countdown ∉ ts) :
    countdownLast ts = true ∧ countdownLast (ts ++ [.countdown]) = true := by
  have hall : ∀ us : List Task, us ⊆ ts → us.all (· != .countdown) = true := by
    intro us hus
    rw [List.all_eq_true]
    intro k hk
    exact bne_iff_ne.mpr fun he => h (he ▸ hus hk)
  exact ⟨hall _ (List.dropLast_subset ts), by rw [countdownLast, List.dropLast_concat]; exact hall _ (List.Subset.refl ts)⟩

/-- While a task is left, the run has not ended. -/
theorem RunInv.running {k : Task} {ts : List Task} {s : State} (h : RunInv (k :: ts) s) : s.handedOff = false := by
  cases hh : s.handedOff with
  | false => rfl
  | true =>
    obtain ⟨-, -, hts⟩ := h.handoff hh
    cases hts

theorem RunInv.not_handedOff {k : Task} {ts : List Task} {s : State} (h : RunInv (k :: ts) s) {P : Prop}
    (hx : s.handedOff = true) : P := by
  rw [h.running] at hx
  cases hx

/-! ### One task -/

/-- The host takes from the FIFO, and touches nothing the invariant reads but an empty FIFO's emptiness. -/
theorem RunInv.hostTurn {ts : List Task} {s : State} (h : RunInv ts s) : RunInv ts (Machine.hostTurn s) := by
  obtain ⟨tx, es, ns, hh, htx⟩ := hostTurn_frame s
  rw [hh]
  refine ⟨h.decoder, h.flash, h.busy, h.pending, h.controller, h.last, fun hoff => ?_⟩
  obtain ⟨hc, hempty, hts⟩ := h.handoff hoff
  rw [hempty] at htx
  exact ⟨hc, (List.append_eq_nil_iff.mp htx).2, hts⟩

theorem RunInv.port {op : FlashOp} {ts : List Task} {s t : State} (h : RunInv (.port op :: ts) s)
    (hp : portOp op s = .ok t) : RunInv ts t := by
  obtain ⟨fc, hfc, rfl⟩ := portOp_ok hp
  have hcontroller : controllerOk s.par fc ts = true := by rw [← controllerOk_port hfc]; exact h.controller
  rcases port_ok hfc with ⟨hb, hpend⟩ | ⟨e, hb, hpend, he⟩
  · exact ⟨h.decoder, h.flash, hb.trans (h.busy.trans (congrArg Option.isSome hpend.symm)),
      (congrArg (pendingOk s.par) hpend).trans h.pending, hcontroller, countdownLast_tail h.last, fun hx => h.not_handedOff hx⟩
  · exact ⟨h.decoder, h.flash, hb.trans (congrArg Option.isSome hpend.symm), (congrArg (pendingOk s.par) hpend).trans he,
      hcontroller, countdownLast_tail h.last, fun hx => h.not_handedOff hx⟩

/-- A port operation that the controller's discipline admits can only be refused for its page address. -/
theorem RunInv.port_fault {op : FlashOp} {ts : List Task} {s : State} (h : RunInv (.port op :: ts) s)
    (hp : portOp op s = .error .unmodelledController) : False := by
  have hc := h.controller
  rw [controllerOk, portOp_error hp] at hc
  cases hc

theorem complete_idle (fc : Controller) : fc.complete.busy = false ∧ fc.complete.pending = none := by
  unfold Controller.complete
  split <;> exact ⟨rfl, rfl⟩

/-- Completion applies an admitted effect and leaves the controller idle (R206). -/
theorem RunInv.complete {ts : List Task} {s : State} (h : RunInv (.wait :: ts) s) (hb : s.fc.busy = true) :
    RunInv ts s.complete := by
  have hcontroller : controllerOk s.par s.fc.complete ts = true := by
    have hc := h.controller
    rwa [controllerOk_wait, if_pos hb] at hc
  have hflash : flashOk s.par s.complete.flash = true := by
    have hpend := h.pending
    unfold State.complete
    cases he : s.fc.pending with
    | none => exact h.flash
    | some e => rw [he] at hpend; exact flashOk_effect h.flash hpend
  obtain ⟨hidle, hnone⟩ := complete_idle s.fc
  obtain ⟨fl, ob, k, hframe⟩ := complete_frame s
  rw [hframe] at hflash ⊢
  exact ⟨h.decoder, hflash, hidle.trans (congrArg Option.isSome hnone.symm), congrArg (pendingOk s.par) hnone, hcontroller,
    countdownLast_tail h.last, fun hx => h.not_handedOff hx⟩

/-- The poll script and the trace are nothing the invariant reads. -/
theorem RunInv.of_polls {ts : List Task} {s : State} (h : RunInv ts s) (ps : List Poll) :
    RunInv ts { s with env := { s.env with fcPolls := ps } } :=
  ⟨h.decoder, h.flash, h.busy, h.pending, h.controller, h.last, h.handoff⟩

theorem RunInv.log {ts : List Task} {s : State} (h : RunInv ts s) (e : Event) : RunInv ts (s.log e) :=
  ⟨h.decoder, h.flash, h.busy, h.pending, h.controller, h.last, h.handoff⟩

/-- A wait that returns has nothing pending behind it; one that does not is held with busy set. -/
theorem RunInv.poll {ts : List Task} {s t : State} {b : Bool} (h : RunInv (.wait :: ts) s) (hp : pollBusy s = (b, t)) :
    if b then RunInv ts t else RunInv (.wait :: ts) t ∧ t.fc.busy = true := by
  rcases pollBusy_cases s with ⟨hb, hpoll⟩ | ⟨hb, ps, hpoll⟩ | ⟨hb, ps, hpoll⟩ <;> rw [hp] at hpoll <;> cases hpoll
  · have hoff := h.running
    have hcontroller : controllerOk s.par s.fc ts = true := by
      have hc := h.controller
      rwa [controllerOk_wait, hb] at hc
    exact ⟨h.decoder, h.flash, h.busy, h.pending, hcontroller, countdownLast_tail h.last,
      fun hx => h.not_handedOff hx⟩
  · exact ((h.of_polls ps).complete hb).log _
  · exact ⟨h.of_polls ps, hb⟩

theorem RunInv.respond {c : Byte} {p : List Byte} {ts : List Task} {s : State} (h : RunInv (.respond c p :: ts) s) :
    RunInv ts (Machine.respond c p s) := by
  rw [respond_eq]
  exact ⟨h.decoder, h.flash, h.busy, h.pending, h.controller, countdownLast_tail h.last,
    fun hx => h.not_handedOff hx⟩

/-- Part (c) is the last task, and hands off at countdown 0 with an empty FIFO only (R293). -/
theorem RunInv.countdown {ts : List Task} {s : State} (h : RunInv (.countdown :: ts) s) : RunInv ts (countdownStep s) := by
  have hts := countdownLast_countdown h.last
  rcases countdownStep_cases s with ⟨-, hc⟩ | ⟨-, ⟨hzero, htx⟩, hc⟩ | ⟨-, -, hc⟩ <;> rw [hc]
  · exact ⟨h.decoder, h.flash, h.busy, h.pending, h.controller, countdownLast_tail h.last, fun hx => h.not_handedOff hx⟩
  · exact ⟨h.decoder, h.flash, h.busy, h.pending, h.controller, countdownLast_tail h.last, fun _ => ⟨hzero, htx, hts⟩⟩
  · exact ⟨h.decoder, h.flash, h.busy, h.pending, h.controller, countdownLast_tail h.last, fun hx => h.not_handedOff hx⟩

/-! ### A run of tasks -/

/-- Running tasks keeps the invariant, and never misuses the controller. -/
theorem RunInv.run {ts : List Task} : ∀ {s : State}, RunInv ts s →
    (∀ t, Machine.run ts s = .next t → MachineInv t) ∧ Machine.run ts s ≠ .fault .unmodelledController := by
  induction ts with
  | nil =>
    intro s h
    exact ⟨fun t ht => by cases ht; exact h.machineInv rfl, fun hf => by cases hf⟩
  | cons k ts ih =>
    intro s h
    cases k with
    | port op =>
      cases hop : portOp op (Machine.hostTurn s) with
      | error f =>
        rw [run_port_fault hop]
        refine ⟨fun t ht => (nomatch ht), fun hf => ?_⟩
        cases hf
        exact h.hostTurn.port_fault hop
      | ok u => rw [run_port hop]; exact ih (h.hostTurn.port hop)
    | wait =>
      rcases hpoll : pollBusy (Machine.hostTurn s) with ⟨b, u⟩
      have hu := h.hostTurn.poll hpoll
      cases b with
      | true => rw [run_wait hpoll]; exact ih hu
      | false =>
        rw [run_wait_held hpoll]
        exact ⟨fun t ht => by cases ht; exact hu.1.machineInv hu.2, fun hf => by cases hf⟩
    | respond c p => exact ih h.respond
    | countdown => exact ih h.hostTurn.countdown

/-! ### Where an operation starts -/

/-- Between two operations no control bit is armed and nothing is pending (R218). -/
theorem MachineInv.idle {s : State} (h : MachineInv s) (hw : s.work = []) :
    s.fc.mode = ModeSet.empty ∧ s.fc.busy = false ∧ s.fc.pending = none := by
  have hc := h.controller
  rw [hw, controllerOk, Bool.and_eq_true, decide_eq_true_eq, Bool.not_eq_true'] at hc
  obtain ⟨hm, hb⟩ := hc
  refine ⟨hm, hb, ?_⟩
  have hp := h.busy
  rw [hb] at hp
  exact Option.not_isSome_iff_eq_none.mp (by rw [← hp]; simp)

/-- Every task list keeps the controller's discipline when it starts from an idle controller, if what follows it does
too. -/
theorem Sequence.controllerOk {i : Instr} {ts : List Task} (h : Sequence i ts) (p : Params) (rest : List Task)
    (hrest : ∀ fc : Controller, fc.mode = ModeSet.empty → fc.busy = false → controllerOk p fc rest = true)
    (fc : Controller) (hm : fc.mode = ModeSet.empty) (hb : fc.busy = false) : controllerOk p fc (ts ++ rest) = true := by
  have hanswer (op : Byte) (fc : Controller) (hm : fc.mode = ModeSet.empty) (hb : fc.busy = false) :
      Machine.controllerOk p fc ([.respond op []] ++ rest) = true := hrest fc hm hb
  cases h with
  | none => exact hrest fc hm hb
  | answer c d => exact hrest fc hm hb
  | erasePage a =>
    rw [controllerOk_erasePage p a rest fc hm, hrest _ rfl rfl, Bool.or_true]
  | writePage a d =>
    rw [controllerOk_writePage p a d rest fc hm, hrest _ rfl rfl, Bool.or_true]
  | option k v st =>
    rw [controllerOk_option p st rest fc hm]
    exact hrest _ rfl rfl
  | erase dst d a op =>
    rw [eraseTasks, List.append_assoc, controllerOk_erasePage p a _ fc hm, hanswer op _ rfl rfl, Bool.or_true]
  | write dst d a page op =>
    rw [writeTasks, List.append_assoc, List.append_assoc, controllerOk_erasePage p a _ fc hm,
      controllerOk_writePage p a page _ _ rfl, hanswer op _ rfl rfl, Bool.or_true, Bool.or_true]
  | setNodeId dst d st op =>
    rw [List.append_assoc, controllerOk_option p st _ fc hm]
    exact hanswer op _ rfl rfl

/-- What an operation changes before its tasks leaves the invariant ready for them. -/
theorem MachineInv.started {s t : State} {ts : List Task} (h : MachineInv s) (hr : Ready s) (ht : Started s t)
    (hc : controllerOk s.par s.fc ts = true) (hl : countdownLast ts = true) : RunInv ts t where
  decoder := ht.decoder h.decoder
  flash := by rw [ht.par, ht.flash]; exact h.flash
  busy := by rw [ht.fc]; exact h.busy
  pending := by rw [ht.par, ht.fc]; exact h.pending
  controller := by rw [ht.par, ht.fc]; exact hc
  last := hl
  handoff := fun hx => by rw [ht.handedOff, hr.1] at hx; cases hx

/-- An instruction's tasks start inside the invariant. -/
theorem MachineInv.planned {i : Instr} {s t : State} {ts : List Task} (h : MachineInv s) (hr : Ready s)
    (hp : opPlan i s = .ok (t, ts)) : RunInv ts t := by
  obtain ⟨hm, hb, -⟩ := h.idle hr.2
  have hend (fc : Controller) (hm : fc.mode = ModeSet.empty) (hb : fc.busy = false) :
      controllerOk s.par fc [] = true ∧ controllerOk s.par fc [.countdown] = true := by
    simp [controllerOk, hm, hb]
  by_cases hi : i = .loopIteration
  · subst hi
    obtain ⟨ht, j, us, hus, rfl⟩ := iteration_planned hp
    exact h.started hr ht (hus.controllerOk s.par _ (fun fc hm hb => (hend fc hm hb).2) s.fc hm hb)
      (countdownLast_of_notMem hus.countdown_notMem).2
  · obtain ⟨ht, hts, -⟩ := opPlan_planned hi hp
    have hc := hts.controllerOk s.par [] (fun fc hm hb => (hend fc hm hb).1) s.fc hm hb
    rw [List.append_nil] at hc
    exact h.started hr ht hc (countdownLast_of_notMem hts.countdown_notMem).1

/-- A plan carried out keeps the invariant, and never misuses the controller. -/
theorem MachineInv.runPlan {i : Instr} {s : State} (h : MachineInv s) (hr : Ready s) :
    (∀ t, Machine.runPlan (opPlan i s) = .next t → MachineInv t) ∧
      Machine.runPlan (opPlan i s) ≠ .fault .unmodelledController := by
  cases hp : opPlan i s with
  | error f =>
    rw [opPlan_error hp]
    exact ⟨fun t ht => (nomatch ht), fun hf => (nomatch hf)⟩
  | ok r => exact (h.planned hr hp).run

theorem MachineInv.hostTurn {s : State} (h : MachineInv s) : MachineInv (Machine.hostTurn s) := by
  have hr := h.runInv.hostTurn
  obtain ⟨tx, es, ns, hh, -⟩ := hostTurn_frame s
  rw [hh] at hr ⊢
  exact hr.machineInv h.held

/-- Where an instruction answers or faults, an operation could start. -/
theorem exec_ready {i : Instr} {s : State} (h : (∃ t, exec i s = .next t) ∨ ∃ f, exec i s = .fault f) : Ready s := by
  obtain ⟨k, hk⟩ := exec_guarded i s
  rcases h with ⟨t, ht⟩ | ⟨f, hf⟩
  · exact (atRest_next (hk.symm.trans ht)).1
  · exact (atRest_fault (hk.symm.trans hf)).1

/-- An instruction, from a state of the invariant. -/
theorem MachineInv.exec {i : Instr} {s : State} (h : MachineInv s) :
    (∀ t, Machine.exec i s = .next t → MachineInv t) ∧ Machine.exec i s ≠ .fault .unmodelledController := by
  by_cases hr : Ready s
  · cases hshort : shortOfData i with
    | true =>
      rw [exec_short hr hshort]
      exact ⟨fun t ht => (nomatch ht), fun hf => (nomatch hf)⟩
    | false => rw [exec_plan hr hshort]; exact h.runPlan hr
  · exact ⟨fun t ht => absurd (exec_ready (.inl ⟨t, ht⟩)) hr, fun hf => hr (exec_ready (.inr ⟨_, hf⟩))⟩

/-- A step, from a state of the invariant. -/
theorem MachineInv.step {s : State} (h : MachineInv s) :
    (∀ t, Machine.step s = .next t → MachineInv t) ∧ Machine.step s ≠ .fault .unmodelledController := by
  cases hoff : s.handedOff with
  | true =>
    rw [(nothingRunsAfterHandoff s hoff).1]
    exact ⟨fun t ht => (nomatch ht), fun hf => (nomatch hf)⟩
  | false =>
    rcases step_cases hoff with ⟨-, hrun⟩ | ⟨hr, hrun⟩
    · rw [hrun]; exact h.runInv.hostTurn.run
    · rw [hrun]; exact h.hostTurn.runPlan (i := .loopIteration) ((hostTurn_started s).ready hr)

/-! ### Which tasks touch flash, which option bytes -/

/-- Runs of tasks, as far as flash, option bytes and controller are concerned: what the port operations among the tasks
and every completion keep, the run keeps. -/
theorem run_keeps_store {P : Memory → Vector Byte 24 → Controller → Prop} {A : FlashOp → Prop}
    (hport : ∀ p op fl ob fc fc', A op → Controller.port p fc op = .ok fc' → P fl ob fc → P fl ob fc')
    (hcomplete : ∀ s : State, P s.flash s.ob s.fc → P s.complete.flash s.complete.ob s.complete.fc) :
    ∀ (ts : List Task) (s t : State), (∀ op, .port op ∈ ts → A op) → run ts s = .next t → P s.flash s.ob s.fc →
      P t.flash t.ob t.fc := by
  intro ts
  induction ts with
  | nil => intro s t _ h hp; cases h; exact hp
  | cons k ts ih =>
    intro s t hA h hp
    have hA' : ∀ op, .port op ∈ ts → A op := fun op hop => hA op (List.mem_cons_of_mem _ hop)
    have hhost : P (hostTurn s).flash (hostTurn s).ob (hostTurn s).fc := by
      obtain ⟨tx, es, ns, hh, -⟩ := hostTurn_frame s
      rwa [hh]
    cases k with
    | port op =>
      cases hop : portOp op (hostTurn s) with
      | error f => rw [run_port_fault hop] at h; cases h
      | ok u =>
        rw [run_port hop] at h
        obtain ⟨fc, hfc, rfl⟩ := portOp_ok hop
        exact ih _ t hA' h (hport _ op _ _ _ fc (hA op (by simp)) hfc hhost)
    | wait =>
      rcases hpoll : pollBusy (hostTurn s) with ⟨b, u⟩
      have hu : P u.flash u.ob u.fc := by
        rcases pollBusy_cases (hostTurn s) with ⟨-, hc⟩ | ⟨-, ps, hc⟩ | ⟨-, ps, hc⟩ <;> rw [hpoll] at hc <;> cases hc
        · exact hhost
        · exact hcomplete _ hhost
        · exact hhost
      cases b with
      | true => rw [run_wait hpoll] at h; exact ih u t hA' h hu
      | false => rw [run_wait_held hpoll] at h; cases h; exact hu
    | respond c p => exact ih _ t hA' h (by rw [respond_eq]; exact hp)
    | countdown =>
      refine ih _ t hA' h ?_
      rcases countdownStep_cases (hostTurn s) with ⟨-, hc⟩ | ⟨-, -, hc⟩ | ⟨-, -, hc⟩ <;> rw [hc] <;> exact hhost

/-- Start records a page effect in a page mode only, an option effect in option-erase mode only (R205). -/
theorem start_effect {p : Params} {fc fc' : Controller} (h : fc.start p = .ok fc') :
    ∃ e, fc' = fc.await e ∧ (e.page ≠ none → fc.mode.pageErase = true ∨ fc.mode.pageProgram = true) ∧
      (e.options = true → fc.mode.optErase = true) := by
  have hmode {m : Mode} {q : ModeSet} (hq : q = ModeSet.only m) : q.has m = true := by rw [hq, ModeSet.has_only]
  unfold Controller.start at h
  split at h
  · cases h
  split at h
  · rename_i hm
    split at h <;> cases h
    exact ⟨_, rfl, fun _ => .inl (hmode hm), fun ho => by cases ho⟩
  split at h
  · rename_i hm
    split at h
    · split at h <;> cases h
      exact ⟨_, rfl, fun _ => .inr (hmode hm), fun ho => by cases ho⟩
    · cases h
  split at h
  · rename_i hm
    cases h
    exact ⟨_, rfl, fun hp => absurd rfl hp, fun _ => hmode hm.1⟩
  · cases h

/-- No page effect is pending, and none can be started. -/
def PageQuiet (fc : Controller) : Prop :=
  fc.mode.pageErase = false ∧ fc.mode.pageProgram = false ∧ ∀ e, fc.pending = some e → e.page = none

/-- No option effect is pending, and none can be started. -/
def OptionQuiet (fc : Controller) : Prop :=
  fc.mode.optErase = false ∧ fc.mode.optProgram = false ∧ ∀ e, fc.pending = some e → e.options = false

/-- The operations that arm no page mode. -/
def ArmsNoPage (op : FlashOp) : Prop := op ≠ .setMode .pageErase ∧ op ≠ .setMode .pageProgram

/-- The operations that arm no option mode. -/
def ArmsNoOption (op : FlashOp) : Prop := op ≠ .setMode .optErase ∧ op ≠ .setMode .optProgram

theorem PageQuiet.port {p : Params} {op : FlashOp} {fc fc' : Controller} (ha : ArmsNoPage op)
    (h : fc.port p op = .ok fc') (hq : PageQuiet fc) : PageQuiet fc' := by
  obtain ⟨he, hp, hpend⟩ := hq
  have hawait {e : Pending} (hpage : e.page = none) : PageQuiet (fc.await e) :=
    ⟨he, hp, fun e' he' => by cases he'; exact hpage⟩
  cases op with
  | start =>
    obtain ⟨e, rfl, hpage, -⟩ := start_effect h
    refine hawait (Classical.byContradiction fun hne => ?_)
    rcases hpage hne with hx | hx
    · rw [he] at hx; cases hx
    · rw [hp] at hx; cases hx
  | setMode m =>
    cases h
    cases m with
    | pageErase => exact absurd rfl ha.1
    | pageProgram => exact absurd rfl ha.2
    | optErase => exact ⟨he, hp, hpend⟩
    | optProgram => exact ⟨he, hp, hpend⟩
  | clearMode m => cases h; cases m <;> exact ⟨by first | rfl | exact he, by first | rfl | exact hp, hpend⟩
  | stageWord i w => rw [Controller.port] at h; split at h <;> cases h; exact ⟨he, hp, hpend⟩
  | bufferLoad => rw [Controller.port] at h; split at h <;> cases h; exact hawait rfl
  | obWriteWord i w => rw [Controller.port] at h; split at h <;> cases h; exact hawait rfl
  | _ => cases h; exact ⟨he, hp, hpend⟩

theorem OptionQuiet.port {p : Params} {op : FlashOp} {fc fc' : Controller} (ha : ArmsNoOption op)
    (h : fc.port p op = .ok fc') (hq : OptionQuiet fc) : OptionQuiet fc' := by
  obtain ⟨he, hp, hpend⟩ := hq
  have hawait {e : Pending} (hoptions : e.options = false) : OptionQuiet (fc.await e) :=
    ⟨he, hp, fun e' he' => by cases he'; exact hoptions⟩
  cases op with
  | start =>
    obtain ⟨e, rfl, -, hoptions⟩ := start_effect h
    refine hawait (Bool.eq_false_iff.mpr fun hx => ?_)
    rw [hoptions hx] at he
    cases he
  | setMode m =>
    cases h
    cases m with
    | pageErase => exact ⟨he, hp, hpend⟩
    | pageProgram => exact ⟨he, hp, hpend⟩
    | optErase => exact absurd rfl ha.1
    | optProgram => exact absurd rfl ha.2
  | clearMode m => cases h; cases m <;> exact ⟨by first | rfl | exact he, by first | rfl | exact hp, hpend⟩
  | stageWord i w => rw [Controller.port] at h; split at h <;> cases h; exact ⟨he, hp, hpend⟩
  | bufferLoad => rw [Controller.port] at h; split at h <;> cases h; exact hawait rfl
  | obWriteWord i w =>
    have hhas : fc.mode.has .optProgram = false := hp
    rw [Controller.port, hhas] at h
    split at h
    · rename_i hx; cases hx.1
    · cases h
  | _ => cases h; exact ⟨he, hp, hpend⟩

theorem complete_mode (fc : Controller) : fc.complete.mode = fc.mode := by
  unfold Controller.complete
  split <;> rfl

theorem pendingEffect_flash {s : State} {e : Pending} (h : e.page = none) : (pendingEffect s e).flash = s.flash := by
  cases e with
  | pageErase a => cases h
  | pageProgram a ws => cases h
  | _ => simp only [pendingEffect]

theorem pendingEffect_ob {s : State} {e : Pending} (h : e.options = false) : (pendingEffect s e).ob = s.ob := by
  cases e with
  | optErase => cases h
  | obWord i w => cases h
  | _ => simp only [pendingEffect]

/-- A completion without a page effect keeps the flash. -/
theorem complete_pageQuiet {s : State} (h : PageQuiet s.fc) : s.complete.flash = s.flash ∧ PageQuiet s.complete.fc := by
  obtain ⟨he, hp, hpend⟩ := h
  refine ⟨?_, ?_⟩
  · unfold State.complete
    cases hpd : s.fc.pending with
    | none => rfl
    | some e => exact pendingEffect_flash (hpend e hpd)
  · have hfc : s.complete.fc = s.fc.complete := rfl
    rw [hfc, PageQuiet, complete_mode, (complete_idle s.fc).2]
    exact ⟨he, hp, fun e hx => by cases hx⟩

/-- A completion without an option effect keeps the option bytes. -/
theorem complete_optionQuiet {s : State} (h : OptionQuiet s.fc) : s.complete.ob = s.ob ∧ OptionQuiet s.complete.fc := by
  obtain ⟨he, hp, hpend⟩ := h
  refine ⟨?_, ?_⟩
  · unfold State.complete
    cases hpd : s.fc.pending with
    | none => rfl
    | some e => exact pendingEffect_ob (hpend e hpd)
  · have hfc : s.complete.fc = s.fc.complete := rfl
    rw [hfc, OptionQuiet, complete_mode, (complete_idle s.fc).2]
    exact ⟨he, hp, fun e hx => by cases hx⟩

/-- Tasks that arm no page mode keep the flash. -/
theorem run_keeps_flash {ts : List Task} {s t : State} (ha : ∀ op, .port op ∈ ts → ArmsNoPage op)
    (hq : PageQuiet s.fc) (h : run ts s = .next t) : t.flash = s.flash :=
  (run_keeps_store (P := fun fl _ fc => fl = s.flash ∧ PageQuiet fc)
    (fun _ _ _ _ _ _ ha hport hp => ⟨hp.1, hp.2.port ha hport⟩)
    (fun _ hp => ⟨(complete_pageQuiet hp.2).1.trans hp.1, (complete_pageQuiet hp.2).2⟩) ts s t ha h ⟨rfl, hq⟩).1

/-- Tasks that arm no option mode keep the option bytes. -/
theorem run_keeps_ob {ts : List Task} {s t : State} (ha : ∀ op, .port op ∈ ts → ArmsNoOption op)
    (hq : OptionQuiet s.fc) (h : run ts s = .next t) : t.ob = s.ob :=
  (run_keeps_store (P := fun _ ob fc => ob = s.ob ∧ OptionQuiet fc)
    (fun _ _ _ _ _ _ ha hport hp => ⟨hp.1, hp.2.port ha hport⟩)
    (fun _ hp => ⟨(complete_optionQuiet hp.2).1.trans hp.1, (complete_optionQuiet hp.2).2⟩) ts s t ha h ⟨rfl, hq⟩).1

/-- The instructions whose tasks can change flash (43_dispatcher.md §2, 42_flash.md §2). -/
def ChangesFlash (i : Instr) : Prop :=
  (∃ a, i = .erasePage a) ∨ (∃ a d, i = .writePage a d) ∨ (∃ dst d, i = .erase dst d) ∨ ∃ dst d, i = .write dst d

/-- The instructions whose tasks can change option bytes. -/
def ChangesOptions (i : Instr) : Prop := (∃ k v, i = .writeOptionByte k v) ∨ ∃ dst d, i = .setNodeId dst d

theorem optionTasks_armsNoPage (st : Vector Byte 24) : ∀ op, .port op ∈ optionTasks st → ArmsNoPage op := by
  intro op hop
  simp only [optionTasks, optionWordTasks, List.mem_append, List.mem_cons, List.mem_flatMap, List.not_mem_nil, or_false,
    Task.port.injEq] at hop
  constructor <;> rintro rfl <;> simp at hop

theorem erasePageTasks_armsNoOption (a : Word) : ∀ op, .port op ∈ erasePageTasks a → ArmsNoOption op := by
  intro op hop
  simp only [erasePageTasks, List.mem_cons, List.not_mem_nil, or_false, Task.port.injEq] at hop
  constructor <;> rintro rfl <;> simp at hop

theorem writePageTasks_armsNoOption (a : Word) (d : Vector Byte 64) :
    ∀ op, .port op ∈ writePageTasks a d → ArmsNoOption op := by
  intro op hop
  simp only [writePageTasks, loadWordTasks, List.mem_append, List.mem_cons, List.mem_flatMap, List.not_mem_nil, or_false,
    Task.port.injEq] at hop
  constructor <;> rintro rfl <;> simp at hop

theorem Sequence.armsNoPage {i : Instr} {ts : List Task} (h : Sequence i ts) (hi : ¬ ChangesFlash i) :
    ∀ op, .port op ∈ ts → ArmsNoPage op := by
  intro op hop
  cases h with
  | none => cases hop
  | answer c p => simp at hop
  | erasePage a => exact absurd (.inl ⟨a, rfl⟩) hi
  | writePage a d => exact absurd (.inr (.inl ⟨a, d, rfl⟩)) hi
  | erase dst d a op => exact absurd (.inr (.inr (.inl ⟨dst, d, rfl⟩))) hi
  | write dst d a page op => exact absurd (.inr (.inr (.inr ⟨dst, d, rfl⟩))) hi
  | option k v st => exact optionTasks_armsNoPage st op hop
  | setNodeId dst d st c => exact optionTasks_armsNoPage st op (by simpa using hop)

theorem Sequence.armsNoOption {i : Instr} {ts : List Task} (h : Sequence i ts) (hi : ¬ ChangesOptions i) :
    ∀ op, .port op ∈ ts → ArmsNoOption op := by
  intro op hop
  cases h with
  | none => cases hop
  | answer c p => simp at hop
  | erasePage a => exact erasePageTasks_armsNoOption a op hop
  | writePage a d => exact writePageTasks_armsNoOption a d op hop
  | erase dst d a c => exact erasePageTasks_armsNoOption a op (by simpa [eraseTasks] using hop)
  | write dst d a page c =>
    have hor : .port op ∈ erasePageTasks a ∨ .port op ∈ writePageTasks a page := by simpa [writeTasks] using hop
    exact hor.elim (erasePageTasks_armsNoOption a op) (writePageTasks_armsNoOption a page op)
  | option k v st => exact absurd (.inl ⟨k, v, rfl⟩) hi
  | setNodeId dst d st c => exact absurd (.inr ⟨dst, d, rfl⟩) hi

/-! ### The statements -/

/-- Settles O50: nothing is under way at a launch, and the flash is as given. -/
theorem resetSatisfiesInvariant : Obligations.ResetSatisfiesInvariant := by
  have hlaunch (p : Params) (flash : Memory) (ob : Vector Byte 24) (hf : flashOk p flash = true) :
      MachineInv (State.launch p flash ob) :=
    ⟨rfl, hf, rfl, rfl, rfl, rfl, rfl, fun h => by cases h⟩
  exact ⟨hlaunch _ _ _ rfl, hlaunch⟩

/-- Settles O51. -/
theorem stepKeepsInvariant : Obligations.StepKeepsInvariant := fun _ t h ht => h.step.1 t ht

/-- Settles O52. -/
theorem execKeepsInvariant : Obligations.ExecKeepsInvariant := fun _ _ t h ht => h.exec.1 t ht

/-- Settles O53: the clause of `MachineInv.step` and `MachineInv.exec` on the fault. -/
theorem controllerIsNeverMisused : Obligations.ControllerIsNeverMisused := fun _ h => ⟨h.step.2, fun _ => h.exec.2⟩

/-- Settles O57: an instruction of neither kind starts from a quiet controller and arms nothing that could change the
store. -/
theorem onlyFlashOperationsChangePersistentState : Obligations.OnlyFlashOperationsChangePersistentState := by
  intro i s t h ht hloop
  have hr := exec_ready (.inl ⟨t, ht⟩)
  obtain ⟨hm, -, hp⟩ := h.idle hr.2
  cases hshort : shortOfData i with
  | true => rw [exec_short hr hshort] at ht; cases ht
  | false =>
    rw [exec_plan hr hshort] at ht
    obtain ⟨u, ts, hplan, hrun⟩ := runPlan_next ht
    obtain ⟨hu, hts, -⟩ := opPlan_planned hloop hplan
    refine ⟨fun hne => Classical.byContradiction fun hi => hne ?flash, fun hne => Classical.byContradiction fun hi => hne ?ob⟩
    case flash =>
      have hq : PageQuiet u.fc := by rw [hu.fc, PageQuiet, hm, hp]; exact ⟨rfl, rfl, fun e hx => by cases hx⟩
      exact (run_keeps_flash (hts.armsNoPage hi) hq hrun).trans hu.flash
    case ob =>
      have hq : OptionQuiet u.fc := by rw [hu.fc, OptionQuiet, hm, hp]; exact ⟨rfl, rfl, fun e hx => by cases hx⟩
      exact (run_keeps_ob (hts.armsNoOption hi) hq hrun).trans hu.ob

/-- Settles O58: the launch values, field by field. -/
theorem resetLeavesTheStatedValues : Obligations.ResetLeavesTheStatedValues :=
  ⟨rfl, rfl, rfl, rfl, rfl, rfl, rfl, rfl, rfl, rfl, rfl, rfl, rfl⟩

end Sys2Proof.Machine
end

section
/-! The obligation on a later reset (O59): what a reset in the middle of a flash sequence can change. -/

namespace Sys2Proof.Machine

theorem freePage_length (n : Nat) (a : Word) : (freePage n a).length = 64 := by
  rw [freePage, List.length_map, List.length_range]; rfl

/-- The flash with a page of free values at each of the pages `l`: what `State.interrupted` makes of it. -/
def lostPages (n : Nat) (l : List Word) (m : Memory) : Memory :=
  l.foldl (fun m a => m.writeBytes a.toNat (freePage n a)) m

theorem relaunch_flash (s : State) (env : Env) :
    (s.relaunch env).flash = lostPages s.draws s.openPages s.flash := rfl

theorem read_lostPages (n x : Nat) (l : List Word) (h : ∀ a ∈ l, ¬(a.toNat ≤ x ∧ x < a.toNat + 64)) :
    ∀ m : Memory, (lostPages n l m).read x = m.read x := by
  induction l with
  | nil => exact fun _ => rfl
  | cons a l ih =>
    intro m
    calc (lostPages n l (m.writeBytes a.toNat (freePage n a))).read x
        = (m.writeBytes a.toNat (freePage n a)).read x := ih (fun b hb => h b (.tail _ hb)) _
      _ = m.read x := by
        rw [Memory.read_writeBytes, freePage_length, if_neg (h a (.head _))]

theorem flashOk_lostPages {p : Params} (n : Nat) (l : List Word) (hl : ∀ a ∈ l, pageOk p a = true) :
    ∀ m : Memory, flashOk p m = true → flashOk p (lostPages n l m) = true := by
  induction l with
  | nil => exact fun _ h => h
  | cons a l ih =>
    intro m h
    refine ih (fun b hb => hl b (.tail _ hb)) _ ?_
    simp only [flashOk, Bool.and_eq_true, List.all_eq_true] at h ⊢
    obtain ⟨hwf, hin⟩ := h
    refine ⟨Memory.wf_writeBytes _ _ _ hwf, fun c hc => ?_⟩
    rcases Memory.mem_writeBytes _ _ _ c hc with ⟨h1, h2⟩ | hm
    · rw [freePage_length] at h2
      exact inFlash_page (hl a (.head _)) h1 h2
    · exact hin c hm

theorem openPages_pageOk (s : State) : ∀ a ∈ s.openPages, pageOk s.par a = true :=
  fun _ ha => (List.mem_filter.mp ha).2

theorem openPages_idle {s : State} (hw : s.work = []) (hp : s.fc.pending = none) : s.openPages = [] := by
  rw [State.openPages, hw, hp]; rfl

theorem openOptions_idle {s : State} (hw : s.work = []) (hp : s.fc.pending = none) : s.openOptions = false := by
  rw [State.openOptions, hw, hp]; rfl

theorem relaunch_ob {s : State} {env : Env} (h : s.openOptions = false) : (s.relaunch env).ob = s.ob := by
  change (if s.openOptions then _ else s.ob) = s.ob
  rw [h, if_neg Bool.false_ne_true]

/-- Only the flash of a launched state is not fixed by the launch. -/
theorem MachineInv.relaunch {s : State} (h : MachineInv s) (env : Env) : MachineInv (s.relaunch env) :=
  ⟨rfl, flashOk_lostPages s.draws _ (openPages_pageOk s) _ h.flash, rfl, rfl, rfl, rfl, rfl, fun h => by cases h⟩

/-- Settles O59. -/
theorem relaunchKeepsPersistentState : Obligations.RelaunchKeepsPersistentState := by
  intro s env
  refine ⟨⟨rfl, rfl, rfl, rfl, rfl, rfl, rfl, rfl, rfl, rfl, rfl, rfl⟩, fun hw hp => ⟨?_, ?_⟩, fun x hx => ?_,
    relaunch_ob, fun h => h.relaunch env⟩
  · rw [relaunch_flash, openPages_idle hw hp]; rfl
  · exact relaunch_ob (openOptions_idle hw hp)
  · rw [relaunch_flash]; exact read_lostPages s.draws x _ hx _

end Sys2Proof.Machine
end

section
/-! The obligation on busy polls and the host's turns (O26): an operation next to the same one unhindered. What an
operation does before its tasks reads nothing of the scripts, and a task's run goes on from where a wait was held. -/

namespace Sys2Proof.Machine

open Host (Outcome)

/-! ### The scripts of the other agents, replaced -/

def State.withEnv (s : State) (e : Env) : State := { s with env := e }

/-- A plan that starts from the same state with other scripts. -/
def Plan.withEnv (p : Plan) (e : Env) : Plan := p.map fun r => (r.1.withEnv e, r.2)

theorem memBytes_withEnv (s : State) (e : Env) (n : Nat) : ∀ a, memBytes (s.withEnv e) a n = memBytes s a n := by
  induction n with
  | zero => exact fun _ => rfl
  | succ n ih =>
    intro a
    rw [memBytes, memBytes, ih, show memByte (s.withEnv e) a = memByte s a from rfl]

theorem memRead_withEnv (s : State) (e : Env) (a : Word) (n : Nat) : memRead (s.withEnv e) a n = memRead s a n := by
  rw [memRead, memRead, memBytes_withEnv]

theorem planGetCrc32_withEnv (d : List Byte) (s : State) (e : Env) :
    planGetCrc32 d (s.withEnv e) = Plan.withEnv (planGetCrc32 d s) e := by
  unfold planGetCrc32
  rw [memRead_withEnv]
  split
  · rfl
  · cases memRead s (argWord d 0) (argWord d 4).toNat <;> rfl

theorem planGetId_withEnv (d : List Byte) (s : State) (e : Env) :
    planGetId d (s.withEnv e) = Plan.withEnv (planGetId d s) e := by
  by_cases hd : d.length = 1
  · obtain ⟨seed, rfl⟩ := List.length_eq_one_iff.mp hd
    rfl
  · rw [planGetId_of_length _ hd, planGetId_of_length _ hd]; rfl

theorem planErase_withEnv (d : List Byte) (s : State) (e : Env) :
    planErase d (s.withEnv e) = Plan.withEnv (planErase d s) e := by
  simp only [planErase, Plan.withEnv, apply_ite (Except.map _)]
  rfl

theorem planWrite_withEnv (d : List Byte) (s : State) (e : Env) :
    planWrite d (s.withEnv e) = Plan.withEnv (planWrite d s) e := by
  simp only [planWrite, Plan.withEnv, apply_ite (Except.map _)]
  rfl

theorem planSetNodeId_withEnv (d : List Byte) (s : State) (e : Env) :
    planSetNodeId d (s.withEnv e) = Plan.withEnv (planSetNodeId d s) e := by
  simp only [planSetNodeId, Plan.withEnv, apply_ite (Except.map _)]
  rfl

theorem onRequest_withEnv {dst : Addr} {s : State} {e : Env} {p q : Plan} (h : q = Plan.withEnv p e) :
    onRequest dst (s.withEnv e) q = Plan.withEnv (onRequest dst s p) e := by
  have haccept : addrAccept (s.withEnv e) dst = addrAccept s dst := by cases dst <;> rfl
  rw [onRequest, onRequest, haccept, h]
  split <;> rfl

theorem requestPlan_withEnv (i : Instr) (s : State) (e : Env) :
    requestPlan i (s.withEnv e) = Plan.withEnv (requestPlan i s) e := by
  cases i with
  | getId dst d => exact onRequest_withEnv (planGetId_withEnv d s e)
  | erase dst d => exact onRequest_withEnv (planErase_withEnv d s e)
  | write dst d => exact onRequest_withEnv (planWrite_withEnv d s e)
  | getCrc32 dst d => exact onRequest_withEnv (planGetCrc32_withEnv d s e)
  | setNodeId dst d => exact onRequest_withEnv (planSetNodeId_withEnv d s e)
  | info dst d => exact onRequest_withEnv rfl
  | getChip dst d => exact onRequest_withEnv rfl
  | silent dst d => exact onRequest_withEnv rfl
  | unsilent dst d => exact onRequest_withEnv rfl
  | go dst d => exact onRequest_withEnv rfl
  | getNodeId dst d => exact onRequest_withEnv rfl
  | _ => rfl

/-- Only a loop iteration reads a script before its tasks. -/
theorem opPlan_withEnv {i : Instr} (hi : i ≠ .loopIteration) (s : State) (e : Env) :
    opPlan i (s.withEnv e) = Plan.withEnv (opPlan i s) e := by
  cases i with
  | loopIteration => exact absurd rfl hi
  | crcInit acc => cases acc <;> rfl
  | crcUpdate acc bytes => cases acc <;> rfl
  | crcFinalize acc => cases acc <;> rfl
  | hdrReq => rfl
  | hdrResp => rfl
  | hdrReql => rfl
  | hdrRespl => rfl
  | crcCalc bytes => rfl
  | decoderStep b => rfl
  | serialize node cmd data len => rfl
  | erasePage a => rfl
  | writePage a d => rfl
  | writeOptionByte k v => rfl
  | _ => rw [opPlan_request rfl, opPlan_request rfl, requestPlan_withEnv]

theorem opPlan_env {i : Instr} {s t : State} {ts : List Task} (hi : i ≠ .loopIteration)
    (h : opPlan i s = .ok (t, ts)) : t.env = s.env := by
  have hsame : Plan.withEnv (opPlan i s) s.env = opPlan i s := (opPlan_withEnv hi s s.env).symm
  rw [h] at hsame
  have ht : t.withEnv s.env = t := congrArg Prod.fst (Except.ok.inj hsame)
  rw [← ht]
  rfl

/-! ### A visit of WaitNotBusy that returns -/

/-- What a visit that returns does, the script of polls apart (R206). -/
def State.settled (s : State) : State := (if s.fc.busy then s.complete else s).log .waitNotBusy

theorem complete_withEnv (s : State) (e : Env) : (s.withEnv e).complete = s.complete.withEnv e := by
  unfold State.complete State.withEnv
  cases s.fc.pending with
  | none => rfl
  | some p => cases p <;> simp only [pendingEffect]

theorem pollBusy_settled (s : State) (e : Env) (h : s.fc.busy = true → ∀ q ∈ e.fcPolls.head?, q = .clears) :
    ∃ ps, ps <:+ e.fcPolls ∧ pollBusy (s.withEnv e) = (true, s.settled.withEnv { e with fcPolls := ps }) := by
  cases hb : s.fc.busy with
  | false =>
    refine ⟨e.fcPolls, List.suffix_rfl, ?_⟩
    rw [pollBusy, if_neg (by simp [State.withEnv, hb]), State.settled, hb]
    rfl
  | true =>
    have hbusy : (s.withEnv e).fc.busy = true := hb
    have hset (ps : List Poll) : (s.withEnv { e with fcPolls := ps }).complete.log .waitNotBusy =
        s.settled.withEnv { e with fcPolls := ps } := by
      rw [complete_withEnv, State.settled, hb]; rfl
    rw [pollBusy, if_pos hbusy]
    cases hp : e.fcPolls with
    | nil =>
      refine ⟨[], List.suffix_rfl, ?_⟩
      rw [← hset [], ← hp, show (s.withEnv e).env.fcPolls = [] from hp]
    | cons q ps =>
      obtain rfl : q = .clears := h hb q (by rw [hp]; rfl)
      refine ⟨ps, List.suffix_cons _ _, ?_⟩
      rw [← hset ps, show (s.withEnv e).env.fcPolls = .clears :: ps from hp]
      rfl

theorem pollBusy_busy {s : State} {ps : List Poll} (hb : s.fc.busy = true) (hp : s.env.fcPolls = .busy :: ps) :
    pollBusy s = (false, s.withEnv { s.env with fcPolls := ps }) := by
  rw [pollBusy, if_pos hb, hp]
  rfl

/-! ### Next to the unhindered operation -/

/-- Nothing gets in the way of the rest of an operation. -/
structure Unhindered (u : State) : Prop where
  taken : u.env.txTake = []
  clears : ∀ q ∈ u.env.fcPolls, q = .clears

/-- Every wait of the rest of an operation, not handed off, ends within `n` more visits. -/
structure FairFor (n : Nat) (t : State) : Prop where
  running : t.handedOff = false
  fair : ∀ q ∈ t.env.fcPolls, q ≠ .never
  busy : t.env.fcPolls.count .busy ≤ n

theorem FairFor.suffix {n : Nat} {t t' : State} (h : FairFor n t) (hh : t'.handedOff = t.handedOff)
    (hp : t'.env.fcPolls <:+ t.env.fcPolls) : FairFor n t' :=
  ⟨hh.trans h.running, fun q hq => h.fair q (hp.subset hq), (hp.sublist.count_le _).trans h.busy⟩

/-- Started from `s`, the core has come to `t`, and to `u` unhindered. -/
def Delayed (s u t : State) : Prop := UpToHost s (u.withEnv { s.env with fcPolls := t.env.fcPolls }) t

theorem Delayed.of_upToHost {s u t : State} {ps : List Poll}
    (h : UpToHost s (u.withEnv { s.env with fcPolls := ps }) t) : Delayed s u t := by
  have hps : t.env.fcPolls = ps := h.fcPolls_eq
  rw [Delayed, hps]
  exact h

theorem hostTurn_polls (t : State) : (hostTurn t).env.fcPolls = t.env.fcPolls := by
  obtain ⟨tx, es, ns, hh, -⟩ := hostTurn_frame t
  rw [hh]

theorem hostTurn_handedOff (t : State) : (hostTurn t).handedOff = t.handedOff := by
  obtain ⟨tx, es, ns, hh, -⟩ := hostTurn_frame t
  rw [hh]

theorem Delayed.hostTurn {s u t : State} (h : Delayed s u t) : Delayed s u (hostTurn t) :=
  .of_upToHost (UpToHost.hostTurn h)

theorem FairFor.hostTurn {n : Nat} {t : State} (h : FairFor n t) : FairFor n (hostTurn t) :=
  h.suffix (hostTurn_handedOff t) (by rw [hostTurn_polls])

/-- The outcomes from `s` on, unhindered and in the end: the same, and unhindered nothing is left to do. -/
def EndsAlike (s : State) (o p : Outcome State Fault Refusal) : Prop :=
  SameResult s o p ∧ ∀ u, o = .next u → u.work = []

theorem EndsAlike.fault (s : State) (f : Fault) (n : Nat) : EndsAlike s (.fault f) (finish n (.fault f)) := by
  cases n <;> exact ⟨rfl, fun u hu => by cases hu⟩

theorem EndsAlike.refused (s : State) (r : Refusal) (n : Nat) : EndsAlike s (.refused r) (finish n (.refused r)) := by
  cases n <;> exact ⟨rfl, fun u hu => by cases hu⟩

theorem finish_done (n : Nat) {t : State} (h : t.work = []) : finish n (.next t) = .next t := by
  cases n with
  | zero => rfl
  | succ n => rw [finish, if_pos h]

/-- A tick held at a wait goes on with that wait. -/
theorem finish_held {t : State} (n : Nat) (hh : t.handedOff = false) (ts : List Task) :
    finish (n + 1) (.next { t with work := .wait :: ts }) = finish n (run (.wait :: ts) (hostTurn t)) := by
  have hstep := (nothingStartsMidSequence { t with work := .wait :: ts } hh (List.cons_ne_nil _ _)).2
  rw [finish, if_neg (List.cons_ne_nil _ _), hstep, hostTurn_work, run_work]

theorem pollBusy_handedOff (s : State) : (pollBusy s).2.handedOff = s.handedOff := by
  obtain ⟨fl, ob, k, fc, es, ps, hf, -⟩ := pollBusy_frame s
  rw [hf]

/-- A visit after the same history of the core: the same verdict, and the same history after it. -/
theorem UpToHost.visit {b u u' t : State} {c : Bool} (h : UpToHost b u t) (hp : Machine.pollBusy u = (c, u')) :
    ∃ t', Machine.pollBusy t = (c, t') ∧ UpToHost b u' t' ∧ t'.handedOff = t.handedOff := by
  obtain ⟨hsame, hafter⟩ := h.pollBusy
  rw [hp] at hsame hafter
  have hc : (Machine.pollBusy t).1 = c := hsame
  exact ⟨_, by rw [← hc], hafter, pollBusy_handedOff t⟩

/-- Unhindered, every visit returns. -/
theorem Unhindered.wait_eq {u : State} (h : Unhindered u) (ts : List Task) :
    ∃ e, Unhindered (u.settled.withEnv e) ∧ run (.wait :: ts) u = run ts (u.settled.withEnv e) := by
  obtain ⟨ps, hps, hp⟩ := pollBusy_settled u u.env fun _ q hq => h.clears q (List.mem_of_mem_head? hq)
  refine ⟨{ u.env with fcPolls := ps }, ⟨h.taken, fun q hq => h.clears q (hps.subset hq)⟩, run_wait ?_⟩
  rw [hostTurn_still h.taken]
  exact hp

section wait
variable {s : State} {ts : List Task}

/-- The rest of an operation, the tasks `ts`, ends as it does unhindered. -/
def RunsAlike (s : State) (ts : List Task) : Prop :=
  ∀ n u t, Delayed s u t → Unhindered u → FairFor n t → EndsAlike s (run ts u) (finish n (run ts t))

/-- A visit that returns: the controller is not busy, or clears. -/
theorem RunsAlike.wait_returns (hts : RunsAlike s ts) {n : Nat} {u t : State} (h : Delayed s u t) (hu : Unhindered u)
    (ht : FairFor n t) (hclears : u.fc.busy = true → ∀ q ∈ t.env.fcPolls.head?, q = .clears) :
    EndsAlike s (run (.wait :: ts) u) (finish n (run (.wait :: ts) t)) := by
  obtain ⟨e, hu', hrun⟩ := hu.wait_eq ts
  obtain ⟨ps, hps, hpoll⟩ := pollBusy_settled u { s.env with fcPolls := t.env.fcPolls } hclears
  obtain ⟨t', hvisit, hafter, hh⟩ := (UpToHost.hostTurn h).visit hpoll
  have hfair : FairFor n t' := ht.suffix (hh.trans (hostTurn_handedOff t)) (by rw [hafter.fcPolls_eq]; exact hps)
  rw [hrun, run_wait hvisit]
  exact hts n _ _ (.of_upToHost hafter) hu' hfair

/-- The wait, and with it the rest: by induction on the polls still to come. -/
theorem RunsAlike.wait (hts : RunsAlike s ts) : RunsAlike s (.wait :: ts) := by
  suffices ∀ ps n u t, t.env.fcPolls = ps → Delayed s u t → Unhindered u → FairFor n t →
      EndsAlike s (run (.wait :: ts) u) (finish n (run (.wait :: ts) t)) from fun n u t => this _ n u t rfl
  intro ps
  induction ps with
  | nil => intro n u t hps h hu ht; exact hts.wait_returns h hu ht (by simp [hps])
  | cons q ps ih =>
    intro n u t hps h hu ht
    cases q with
    | clears => exact hts.wait_returns h hu ht (by simp [hps])
    | never => exact absurd rfl (ht.fair .never (by rw [hps]; exact .head _))
    | busy =>
      cases hb : u.fc.busy with
      | false => exact hts.wait_returns h hu ht (by simp [hb])
      | true =>
        have hpoll : pollBusy (u.withEnv { s.env with fcPolls := t.env.fcPolls }) =
            (false, u.withEnv { s.env with fcPolls := ps }) := pollBusy_busy hb hps
        obtain ⟨t', hvisit, hafter, hh⟩ := (UpToHost.hostTurn h).visit hpoll
        have hrest : t'.env.fcPolls = ps := hafter.fcPolls_eq
        have hrunning : t'.handedOff = false := (hh.trans (hostTurn_handedOff t)).trans ht.running
        have hcount := ht.busy
        rw [hps, List.count_cons_self] at hcount
        obtain ⟨m, rfl⟩ : ∃ m, n = m + 1 := ⟨n - 1, by omega⟩
        have hfair : FairFor m t' :=
          ⟨hrunning, fun q hq => ht.fair q (by rw [hps, ← hrest]; exact .tail _ hq), by rw [hrest]; omega⟩
        rw [run_wait_held hvisit, finish_held m hrunning]
        exact ih m u _ ((hostTurn_polls _).trans hrest) (Delayed.of_upToHost hafter).hostTurn hu hfair.hostTurn

end wait

/-! ### The other tasks -/

theorem RunsAlike.nil (s : State) : RunsAlike s [] := by
  intro n u t h _ _
  rw [run_nil, run_nil, finish_done n rfl]
  exact ⟨UpToHost.work h [], fun v hv => by cases hv; rfl⟩

theorem RunsAlike.respond {s : State} {ts : List Task} (hts : RunsAlike s ts) (c : Byte) (p : List Byte) :
    RunsAlike s (.respond c p :: ts) := by
  intro n u t h hu ht
  have henv (v : State) (e : Env) : Machine.respond c p (v.withEnv e) = (Machine.respond c p v).withEnv e := by
    rw [respond_eq, respond_eq]; rfl
  have hkeep (v : State) : (Machine.respond c p v).env = v.env ∧ (Machine.respond c p v).handedOff = v.handedOff := by
    rw [respond_eq]; exact ⟨rfl, rfl⟩
  have hafter := UpToHost.respond h c p
  rw [henv] at hafter
  refine hts n _ _ (.of_upToHost hafter) ⟨?_, ?_⟩ (ht.suffix (hkeep t).2 (by rw [(hkeep t).1]))
  · rw [(hkeep u).1]; exact hu.taken
  · rw [(hkeep u).1]; exact hu.clears

theorem RunsAlike.port {s : State} {ts : List Task} (hts : RunsAlike s ts) (op : FlashOp) :
    RunsAlike s (.port op :: ts) := by
  intro n u t h hu ht
  have hturn : Machine.hostTurn u = u := hostTurn_still hu.taken
  have hh := UpToHost.hostTurn h
  cases hp : u.fc.port u.par op with
  | error f =>
    have hpt : portOp op (hostTurn t) = .error f := by
      rw [portOp, hh.fc_eq, hh.par_eq]; simp only [State.withEnv, hp]
    have hpu : portOp op (hostTurn u) = .error f := by rw [hturn, portOp, hp]
    rw [run_port_fault hpt, run_port_fault hpu]
    exact .fault s f n
  | ok fc =>
    obtain ⟨hpt, hafter⟩ := hh.portOp hp
    have hpu : portOp op (hostTurn u) = .ok (u.ported fc [.flash op]) := by rw [hturn, portOp, hp]
    rw [run_port hpt, run_port hpu]
    exact hts n _ _ (.of_upToHost hafter) ⟨hu.taken, hu.clears⟩ (ht.hostTurn.suffix rfl List.suffix_rfl)

/-- The tasks of an operation end as they do unhindered. Part (c) of an iteration is no such task: it looks at the
FIFO. -/
theorem runsAlike (s : State) (ts : List Task) (hc : Task.countdown ∉ ts) : RunsAlike s ts := by
  induction ts with
  | nil => exact .nil s
  | cons k ts ih =>
    have hts : RunsAlike s ts := ih fun hm => hc (.tail _ hm)
    cases k with
    | port op => exact hts.port op
    | wait => exact hts.wait
    | respond c p => exact hts.respond c p
    | countdown => exact absurd (.head _) hc

/-! ### The statement -/

theorem unhindered_eq (s : State) : s.unhindered = s.withEnv s.unhindered.env := rfl

theorem unhindered_unhindered {s u : State} (h : u.env = s.unhindered.env) : Unhindered u := by
  refine ⟨by rw [h]; rfl, fun q hq => ?_⟩
  rw [h] at hq
  simpa using (List.mem_filter.mp hq).2

theorem coreEvents_txBytes {es : List Event} (h : coreEvents es = es) : es.filterMap Event.txByte = [] := by
  rw [List.filterMap_eq_nil_iff]
  intro e he
  rw [← h] at he
  simpa [coreEvents] using (List.mem_filter.mp he).2

/-- Before its tasks an operation has come as far as it does unhindered. -/
theorem opPlan_delayed {i : Instr} {s t : State} {ts : List Task} (e : Env) (hi : i ≠ .loopIteration)
    (h : opPlan i s = .ok (t, ts)) : Delayed s (t.withEnv e) t := by
  have henv := opPlan_env hi h
  obtain ⟨es, htr, hes⟩ := (opPlan_planned hi h).events
  have hsame : t.withEnv { s.env with fcPolls := t.env.fcPolls } = t := by rw [henv, ← henv]; rfl
  change UpToHost s (t.withEnv { s.env with fcPolls := t.env.fcPolls }) t
  rw [hsame]
  refine ⟨es, 0, ?_, Nat.zero_le _, by rw [htr, hes], ?_, List.suffix_rfl⟩
  · rw [← htr]; rfl
  · exact coreEvents_txBytes hes

/-- Where no operation may start, all are refused alike. -/
theorem exec_notReady {s : State} (h : ¬Ready s) (i : Instr) :
    ∃ r, ∀ t : State, t.handedOff = s.handedOff → t.work = s.work → exec i t = .refused r := by
  cases hh : s.handedOff with
  | true => exact ⟨.handedOff, fun t ht _ => (nothingRunsAfterHandoff t ht).2 i⟩
  | false =>
    exact ⟨.midSequence, fun t ht hw => (nothingStartsMidSequence t ht fun hn => h ⟨hh, hw.symm.trans hn⟩).1 i⟩

/-- Settles O26: behind the guard both operations have the same plan, and its tasks end alike. -/
theorem delaysAndHostTurnsChangeNoResult : Obligations.DelaysAndHostTurnsChangeNoResult := by
  intro i s hi hfair
  change EndsAlike s (exec i s.unhindered) (finish (s.env.fcPolls.count .busy) (exec i s))
  by_cases hr : Ready s
  case neg =>
    obtain ⟨r, hrefused⟩ := exec_notReady hr i
    rw [hrefused s rfl rfl, hrefused s.unhindered rfl rfl]
    exact .refused s r _
  have hu : Ready s.unhindered := hr
  cases hshort : shortOfData i with
  | true => rw [exec_short hr hshort, exec_short hu hshort]; exact .refused s _ _
  | false =>
    rw [exec_plan hr hshort, exec_plan hu hshort, unhindered_eq, opPlan_withEnv hi]
    cases hplan : opPlan i s with
    | error f => exact .fault s f _
    | ok r =>
      obtain ⟨t, ts⟩ := r
      have hp := opPlan_planned hi hplan
      have henv := opPlan_env hi hplan
      refine runsAlike s ts hp.tasks.countdown_notMem _ (t.withEnv s.unhindered.env) t (opPlan_delayed _ hi hplan)
        (unhindered_unhindered rfl) ⟨hp.started.handedOff.trans hr.1, ?_, ?_⟩
      · rw [henv]; exact hfair
      · rw [henv]

end Sys2Proof.Machine
end
